-- ==== Sys2Proof/Word.lean ====
section
/-! DEFINITION. The word types: a register slot and an LM limb (00_scope.md R10, 10_state.md R31), a byte of the
byte view of LM (20_memory.md R72). -/

namespace Sys2Proof

/-- One register slot or one limb. The limb width W of 00_scope.md R8 is 32 or 64, so 64 bits hold a W-bit word of
either width; with W = 32 the upper half is 0 (notes/assumptions/2.md). -/
abbrev Word := BitVec 64

/-- One byte of the byte view of LM (20_memory.md R72). -/
abbrev Byte := BitVec 8

end Sys2Proof
end

