-- ==== Sys2Proof/Syntax.lean ====
section
/-! DEFINITION. The commands: one constructor of `Instr` for each row of spec/opcode_table.json (30_encoding.md R105).
A constructor carries the command-word fields its row leaves free (R102); the operands are the values of the ARG
registers latched at issue (R104), so they are state, not syntax. -/

namespace Sys2Proof

/-- The field C: the engine-context slot a command uses (30_encoding.md R101). -/
inductive Slot where
  | c0 | c1
  deriving DecidableEq, Repr

/-- The field D: the domain of an exponentiation (30_encoding.md R101). -/
inductive Domain where
  | montgomery  -- D = 0
  | regular     -- D = 1
  deriving DecidableEq, Repr

/-- The field S: the redundant digit size (30_encoding.md R102). -/
inductive DigitSize where
  | d52  -- S = 0
  | d27  -- S = 1
  deriving DecidableEq, Repr

/-- The field WIN, three bits (30_encoding.md R101). -/
abbrev Win := BitVec 3

/-- The commands (30_encoding.md R105). -/
inductive Instr where
  | nop
  | add
  | sub
  | inc
  | dec
  | muld
  | submuld
  | mul
  | sqr
  | nlz
  | ntz
  | lsr
  | cmp
  | cmpct
  | fix
  | maskcopy
  | div
  | mod
  | gcd
  | modinv
  | montfactor
  | enginit (c : Slot)
  | engrd (c : Slot)
  | madd (c : Slot)
  | msub (c : Slot)
  | mneg (c : Slot)
  | mdiv2 (c : Slot)
  | mmul2 (c : Slot)
  | mmul3 (c : Slot)
  | mmul (c : Slot)
  | msqr (c : Slot)
  | menc (c : Slot)
  | mdec (c : Slot)
  | mred (c : Slot)
  | r2red (d : DigitSize)
  | red2r (d : DigitSize)
  | amm (d : DigitSize)
  | ams (d : DigitSize)
  | ammdual (d : DigitSize)
  | scrsize (w : Win)
  | scrput (w : Win)
  | scrget (w : Win)
  | scrgetct (w : Win)
  | winsize
  | expbufsize (w : Win)
  | expbin (c : Slot) (dom : Domain)
  | expbinct (c : Slot) (dom : Domain)
  | expwin (c : Slot) (dom : Domain) (w : Win)
  | expwinct (c : Slot) (dom : Domain) (w : Win)
  | dualexpwinct (dom : Domain) (w : Win)
  | os2bn
  | bn2os
  deriving DecidableEq, Repr

end Sys2Proof
end

