-- ==== Sys2Proof/Config.lean ====
section
/-! DEFINITION. The implementation parameters of 00_scope.md R8 as plain data (State holds one `Config`, so every
statement is about every choice of them), and the free values: constants with no body, of which nothing can be
proved (93_implementation_defined.md sections 2 and 4). One more, `Config.freeLeak`, stands beside State. -/

namespace Sys2Proof

/-- The limb width W, 32 or 64 bits and nothing else (00_scope.md R8). -/
inductive LimbWidth where
  | w32 | w64
  deriving DecidableEq, Repr

/-- W in bits. -/
def LimbWidth.bits : LimbWidth → Nat
  | .w32 => 32
  | .w64 => 64

/-- W/8, the bytes of one limb (20_memory.md R72). -/
def LimbWidth.bytes : LimbWidth → Nat
  | .w32 => 4
  | .w64 => 8

/-- The parameters of 00_scope.md R8. `poolNeed` lists (OPC, POOL_NEED) and an opcode it does not list needs 0
buffers. `dualSizes` changes timing only (R8) and `coreBase` is the platform's (20_memory.md R87): no rule uses it. -/
structure Config where
  width       : LimbWidth
  lmLimbs     : Nat
  maxModBits  : Nat
  poolNeed    : List (Nat × Nat)
  clBytes     : Nat
  maxDigits52 : Nat
  maxDigits27 : Nat
  dualSizes   : List Nat
  coreBase    : Nat
  deriving DecidableEq, Repr

/-- The limb width in bits. -/
def Config.W (c : Config) : Nat := c.width.bits

/-- The bytes of one limb. -/
def Config.bpl (c : Config) : Nat := c.width.bytes

/-- MAX_LIMBS = ceil(MAX_MOD_BITS / W) (00_scope.md R8). -/
def Config.maxLimbs (c : Config) : Nat := (c.maxModBits + c.W - 1) / c.W

/-- The constraints of 92_eei_decisions.md, section "Open parameters". -/
def Config.wf (c : Config) : Bool :=
  decide (1 ≤ c.lmLimbs) && decide (1 ≤ c.maxModBits) && decide (1 ≤ c.clBytes) &&
    decide (c.clBytes % c.bpl = 0) && decide (79 ≤ c.maxDigits52)

/-- The parameters State.reset has. DESIGN CHOICE (notes/assumptions/1.md): W = 64, CL_BYTES = 64 and DUAL_SIZES are
the spec's defaults (00_scope.md R8), the others have none there. -/
def Config.standard : Config where
  width       := .w64
  lmLimbs     := 4096
  maxModBits  := 8192
  poolNeed    := []
  clBytes     := 64
  maxDigits52 := 158
  maxDigits27 := 304
  dualSizes   := [1024, 1536, 2048]
  coreBase    := 0

/-- One event of the leakage trace: the engine reads or writes the LM limb with this index (20_memory.md R82). -/
inductive Access where
  | read  (limb : Nat)
  | write (limb : Nat)
  deriving DecidableEq, Repr

/-- The leakage of one engine step: the limb accesses in order, and the abstract duration (20_memory.md R82). -/
structure Leak where
  trace    : List Access
  duration : Nat
  deriving DecidableEq, Repr, Inhabited

/-- What the leakage of a constant-time exponentiation may depend on: the command word (here the command it decodes
to), the ARG values the rule marks public, and (MOD_BITS, MOD_LEN) of the contexts used (20_memory.md R82,
45_exponentiation.md R332). -/
structure PublicInputs where
  command : Instr
  args    : List Word
  sizes   : List (Word × Word)
  deriving DecidableEq, Repr

/-- STATUS.ERR (60_exceptions.md R381); codes 6 to 15 are never produced. -/
inductive ErrCode where
  | none
  | invalidLength
  | insufficientPool
  | badModulus
  | tooSmall
  | illegal
  deriving DecidableEq, Repr, Inhabited

/-- STATUS, its fields by name (10_state.md R33); the other bits read 0. -/
structure Status where
  busy : Bool
  done : Bool
  err  : ErrCode
  deriving DecidableEq, Repr, Inhabited

/-- BACKEND: the implementation of the method table a context uses; no result depends on it (10_state.md R41). -/
inductive Backend where
  | generic | redundant52 | redundant27 | perCurve
  deriving DecidableEq, Repr, Inhabited

/-- Free value: word `i` of draw `k` (00_scope.md R12, Havoc and every "model draw"). -/
opaque Config.freeBits : Nat → Nat → Word

/-- Free value: STATUS in the fault state (10_state.md R42). -/
opaque Config.freeStatus : Nat → Status

/-- Free value: CTX[c].VALID in the fault state (60_exceptions.md R382); the second argument is the slot. -/
opaque Config.freeValid : Nat → Nat → Bool

/-- Free value: the back-end ENGINIT picks (93_implementation_defined.md V10); the second argument is the slot. -/
opaque Config.freeBackend : Nat → Nat → Backend

/-- The parameter CT_TRACE(op, public inputs) of 20_memory.md R82, with the duration: a function of the parameters of
the machine and of the public inputs, and of nothing else. -/
opaque Config.ctTrace : Config → PublicInputs → Leak

/-- The duration of CMPCT, a function of (nA, nB) only (40_bnu.md R154). -/
opaque Config.cmpctDuration : Config → Nat → Nat → Nat

/-- The duration of MASKCOPY, a function of n only (40_bnu.md R155). -/
opaque Config.maskcopyDuration : Config → Nat → Nat

/-- The duration of SCRGETCT, a function of (n, w, table, value) only (44_scramble.md R314). -/
opaque Config.scrgetctDuration : Config → Nat → Nat → Nat → Nat → Nat

end Sys2Proof
end

