-- ==== Sys2Proof/WellFormed.lean ====
section
/-! DEFINITION. Which commands have an encoding: the field legality of 30_encoding.md R103, beyond what the types of
the constructors already say. -/

namespace Sys2Proof

/-- WIN lies in lo..6 (30_encoding.md R103). -/
def winOk (lo : Nat) (w : Win) : Bool := decide (lo ≤ w.toNat) && decide (w.toNat ≤ 6)

/-- S = 0 (52-bit digits) is legal only when W = 64 (30_encoding.md R103, 00_scope.md R9). -/
def digitOk (lw : LimbWidth) (d : DigitSize) : Bool :=
  match d with
  | .d27 => true
  | .d52 => decide (lw = .w64)

/-- The command is legal on a block of limb width `lw` (30_encoding.md R103). -/
def Instr.wf (lw : LimbWidth) : Instr → Bool
  | .r2red d => digitOk lw d
  | .red2r d => digitOk lw d
  | .amm d => digitOk lw d
  | .ams d => digitOk lw d
  | .ammdual d => digitOk lw d
  | .scrsize w => winOk 1 w
  | .scrput w => winOk 1 w
  | .scrget w => winOk 1 w
  | .scrgetct w => winOk 1 w
  | .expbufsize w => winOk 0 w
  | .expwin _ _ w => winOk 1 w
  | .expwinct _ _ w => winOk 1 w
  | .dualexpwinct _ w => winOk 1 w
  | .nop => true
  | .add => true
  | .sub => true
  | .inc => true
  | .dec => true
  | .muld => true
  | .submuld => true
  | .mul => true
  | .sqr => true
  | .nlz => true
  | .ntz => true
  | .lsr => true
  | .cmp => true
  | .cmpct => true
  | .fix => true
  | .maskcopy => true
  | .div => true
  | .mod => true
  | .gcd => true
  | .modinv => true
  | .montfactor => true
  | .enginit _ => true
  | .engrd _ => true
  | .madd _ => true
  | .msub _ => true
  | .mneg _ => true
  | .mdiv2 _ => true
  | .mmul2 _ => true
  | .mmul3 _ => true
  | .mmul _ => true
  | .msqr _ => true
  | .menc _ => true
  | .mdec _ => true
  | .mred _ => true
  | .winsize => true
  | .expbin _ _ => true
  | .expbinct _ _ => true
  | .os2bn => true
  | .bn2os => true

end Sys2Proof
end

