-- ==== Sys2Proof/Decode.lean ====
section
/-! DEFINITION. The decoder of 30_encoding.md R109, total on every 32-bit word and rejecting by name, and the encoder
written from the same tables (R101, R103, R105). -/

namespace Sys2Proof

/-- Why a word is illegal (30_encoding.md R107); every one completes with STATUS.ERR = ILLEGAL. -/
inductive Illegal where
  | unassignedOpcode  -- OPC is not in the table of R105
  | reservedBits      -- bit 11, bit 15 or a bit of 31:16 is set (R101)
  | fieldNotZero      -- a field is non-zero where its opcode group requires 0 (R103)
  | winOutOfRange     -- WIN outside its range (R103)
  | digit52NeedsW64   -- S = 0 with W = 32 (R103)
  deriving DecidableEq, Repr

/-- What decoding answers (30_encoding.md R109). -/
inductive Decoded where
  | ok (i : Instr)
  | illegal (why : Illegal)
  deriving DecidableEq, Repr

/-- The `len` bits of a word from bit `lo` up, as a number (00_scope.md R10). -/
def bitField (w : BitVec 32) (lo len : Nat) : Nat := w.toNat / 2 ^ lo % 2 ^ len

/-- The fields of a command word (30_encoding.md R101). -/
structure Fields where
  opc : Nat
  c   : Nat
  d   : Nat
  s   : Nat
  win : Nat
  reserved11    : Nat
  reserved15    : Nat
  reserved31to16 : Nat
  deriving DecidableEq, Repr

/-- The field table of 30_encoding.md R101. -/
def fieldsOf (w : BitVec 32) : Fields where
  opc := bitField w 0 8
  c   := bitField w 8 1
  d   := bitField w 9 1
  s   := bitField w 10 1
  reserved11 := bitField w 11 1
  win := bitField w 12 3
  reserved15 := bitField w 15 1
  reserved31to16 := bitField w 16 16

/-- The values of the fields (30_encoding.md R102). -/
def Slot.ofBit (b : Nat) : Slot := if b = 0 then .c0 else .c1
def Domain.ofBit (b : Nat) : Domain := if b = 0 then .montgomery else .regular
def DigitSize.ofBit (b : Nat) : DigitSize := if b = 0 then .d52 else .d27
def Slot.bit : Slot → Nat
  | .c0 => 0
  | .c1 => 1
def Domain.bit : Domain → Nat
  | .montgomery => 0
  | .regular => 1
def DigitSize.bit : DigitSize → Nat
  | .d52 => 0
  | .d27 => 1

/-- Row 1 of 30_encoding.md R103: every field 0. -/
def plainCmd (f : Fields) (i : Instr) : Decoded :=
  if f.c = 0 ∧ f.d = 0 ∧ f.s = 0 ∧ f.win = 0 then .ok i else .illegal .fieldNotZero

/-- Row 2: C any. -/
def ctxCmd (f : Fields) (k : Slot → Instr) : Decoded :=
  if f.d = 0 ∧ f.s = 0 ∧ f.win = 0 then .ok (k (Slot.ofBit f.c)) else .illegal .fieldNotZero

/-- Row 3: S any, S = 0 only when W = 64. -/
def digitCmd (lw : LimbWidth) (f : Fields) (k : DigitSize → Instr) : Decoded :=
  if f.c = 0 ∧ f.d = 0 ∧ f.win = 0 then
    if digitOk lw (DigitSize.ofBit f.s) then .ok (k (DigitSize.ofBit f.s)) else .illegal .digit52NeedsW64
  else .illegal .fieldNotZero

/-- Rows 4 and 5: WIN in lo..6. -/
def winCmd (lo : Nat) (f : Fields) (k : Win → Instr) : Decoded :=
  if f.c = 0 ∧ f.d = 0 ∧ f.s = 0 then
    if lo ≤ f.win ∧ f.win ≤ 6 then .ok (k (BitVec.ofNat 3 f.win)) else .illegal .winOutOfRange
  else .illegal .fieldNotZero

/-- Row 6: C and D any, WIN 0. -/
def expBinCmd (f : Fields) (k : Slot → Domain → Instr) : Decoded :=
  if f.s = 0 ∧ f.win = 0 then .ok (k (Slot.ofBit f.c) (Domain.ofBit f.d)) else .illegal .fieldNotZero

/-- Row 7: C and D any, WIN in 1..6. -/
def expWinCmd (f : Fields) (k : Slot → Domain → Win → Instr) : Decoded :=
  if f.s = 0 then
    if 1 ≤ f.win ∧ f.win ≤ 6 then .ok (k (Slot.ofBit f.c) (Domain.ofBit f.d) (BitVec.ofNat 3 f.win))
    else .illegal .winOutOfRange
  else .illegal .fieldNotZero

/-- Row 8: C = 0, D any, WIN in 1..6. -/
def dualCmd (f : Fields) (k : Domain → Win → Instr) : Decoded :=
  if f.c = 0 ∧ f.s = 0 then
    if 1 ≤ f.win ∧ f.win ≤ 6 then .ok (k (Domain.ofBit f.d) (BitVec.ofNat 3 f.win)) else .illegal .winOutOfRange
  else .illegal .fieldNotZero

/-- The opcode map of 30_encoding.md R105 with the field legality of R103, the reserved bits being 0. -/
def decodeFields (lw : LimbWidth) (f : Fields) : Decoded :=
  match f.opc with
  | 0x00 => plainCmd f .nop
  | 0x01 => plainCmd f .add
  | 0x02 => plainCmd f .sub
  | 0x03 => plainCmd f .inc
  | 0x04 => plainCmd f .dec
  | 0x05 => plainCmd f .muld
  | 0x06 => plainCmd f .submuld
  | 0x07 => plainCmd f .mul
  | 0x08 => plainCmd f .sqr
  | 0x09 => plainCmd f .nlz
  | 0x0A => plainCmd f .ntz
  | 0x0B => plainCmd f .lsr
  | 0x0C => plainCmd f .cmp
  | 0x0D => plainCmd f .cmpct
  | 0x0E => plainCmd f .fix
  | 0x0F => plainCmd f .maskcopy
  | 0x10 => plainCmd f .div
  | 0x11 => plainCmd f .mod
  | 0x12 => plainCmd f .gcd
  | 0x13 => plainCmd f .modinv
  | 0x20 => plainCmd f .montfactor
  | 0x21 => ctxCmd f .enginit
  | 0x22 => ctxCmd f .engrd
  | 0x28 => ctxCmd f .madd
  | 0x29 => ctxCmd f .msub
  | 0x2A => ctxCmd f .mneg
  | 0x2B => ctxCmd f .mdiv2
  | 0x2C => ctxCmd f .mmul2
  | 0x2D => ctxCmd f .mmul3
  | 0x2E => ctxCmd f .mmul
  | 0x2F => ctxCmd f .msqr
  | 0x30 => ctxCmd f .menc
  | 0x31 => ctxCmd f .mdec
  | 0x32 => ctxCmd f .mred
  | 0x40 => digitCmd lw f .r2red
  | 0x41 => digitCmd lw f .red2r
  | 0x42 => digitCmd lw f .amm
  | 0x43 => digitCmd lw f .ams
  | 0x44 => digitCmd lw f .ammdual
  | 0x48 => winCmd 1 f .scrsize
  | 0x49 => winCmd 1 f .scrput
  | 0x4A => winCmd 1 f .scrget
  | 0x4B => winCmd 1 f .scrgetct
  | 0x50 => plainCmd f .winsize
  | 0x51 => winCmd 0 f .expbufsize
  | 0x52 => expBinCmd f .expbin
  | 0x53 => expBinCmd f .expbinct
  | 0x54 => expWinCmd f .expwin
  | 0x55 => expWinCmd f .expwinct
  | 0x56 => dualCmd f .dualexpwinct
  | 0x60 => plainCmd f .os2bn
  | 0x61 => plainCmd f .bn2os
  | _ => .illegal .unassignedOpcode

/-- Decoding a command word on a block of limb width `lw` (30_encoding.md R109). -/
def decode (lw : LimbWidth) (w : BitVec 32) : Decoded :=
  let f := fieldsOf w
  if f.reserved11 = 0 ∧ f.reserved15 = 0 ∧ f.reserved31to16 = 0 then decodeFields lw f
  else .illegal .reservedBits

/-- A command word from its fields (30_encoding.md R101). -/
def packWord (opc c d s win : Nat) : BitVec 32 :=
  BitVec.ofNat 32 (opc + 2 ^ 8 * c + 2 ^ 9 * d + 2 ^ 10 * s + 2 ^ 12 * win)

/-- The command word of a command (30_encoding.md R101, R105). -/
def encode : Instr → BitVec 32
  | .nop => packWord 0x00 0 0 0 0
  | .add => packWord 0x01 0 0 0 0
  | .sub => packWord 0x02 0 0 0 0
  | .inc => packWord 0x03 0 0 0 0
  | .dec => packWord 0x04 0 0 0 0
  | .muld => packWord 0x05 0 0 0 0
  | .submuld => packWord 0x06 0 0 0 0
  | .mul => packWord 0x07 0 0 0 0
  | .sqr => packWord 0x08 0 0 0 0
  | .nlz => packWord 0x09 0 0 0 0
  | .ntz => packWord 0x0A 0 0 0 0
  | .lsr => packWord 0x0B 0 0 0 0
  | .cmp => packWord 0x0C 0 0 0 0
  | .cmpct => packWord 0x0D 0 0 0 0
  | .fix => packWord 0x0E 0 0 0 0
  | .maskcopy => packWord 0x0F 0 0 0 0
  | .div => packWord 0x10 0 0 0 0
  | .mod => packWord 0x11 0 0 0 0
  | .gcd => packWord 0x12 0 0 0 0
  | .modinv => packWord 0x13 0 0 0 0
  | .montfactor => packWord 0x20 0 0 0 0
  | .enginit c => packWord 0x21 c.bit 0 0 0
  | .engrd c => packWord 0x22 c.bit 0 0 0
  | .madd c => packWord 0x28 c.bit 0 0 0
  | .msub c => packWord 0x29 c.bit 0 0 0
  | .mneg c => packWord 0x2A c.bit 0 0 0
  | .mdiv2 c => packWord 0x2B c.bit 0 0 0
  | .mmul2 c => packWord 0x2C c.bit 0 0 0
  | .mmul3 c => packWord 0x2D c.bit 0 0 0
  | .mmul c => packWord 0x2E c.bit 0 0 0
  | .msqr c => packWord 0x2F c.bit 0 0 0
  | .menc c => packWord 0x30 c.bit 0 0 0
  | .mdec c => packWord 0x31 c.bit 0 0 0
  | .mred c => packWord 0x32 c.bit 0 0 0
  | .r2red d => packWord 0x40 0 0 d.bit 0
  | .red2r d => packWord 0x41 0 0 d.bit 0
  | .amm d => packWord 0x42 0 0 d.bit 0
  | .ams d => packWord 0x43 0 0 d.bit 0
  | .ammdual d => packWord 0x44 0 0 d.bit 0
  | .scrsize w => packWord 0x48 0 0 0 w.toNat
  | .scrput w => packWord 0x49 0 0 0 w.toNat
  | .scrget w => packWord 0x4A 0 0 0 w.toNat
  | .scrgetct w => packWord 0x4B 0 0 0 w.toNat
  | .winsize => packWord 0x50 0 0 0 0
  | .expbufsize w => packWord 0x51 0 0 0 w.toNat
  | .expbin c dom => packWord 0x52 c.bit dom.bit 0 0
  | .expbinct c dom => packWord 0x53 c.bit dom.bit 0 0
  | .expwin c dom w => packWord 0x54 c.bit dom.bit 0 w.toNat
  | .expwinct c dom w => packWord 0x55 c.bit dom.bit 0 w.toNat
  | .dualexpwinct dom w => packWord 0x56 0 dom.bit 0 w.toNat
  | .os2bn => packWord 0x60 0 0 0 0
  | .bn2os => packWord 0x61 0 0 0 0

/-- The OPC value of a command, by which Config.poolNeed is keyed (30_encoding.md R105). -/
def Instr.opc (i : Instr) : Nat := bitField (encode i) 0 8

/-- A row of spec/opcode_table.json: a word belongs to the row when `word & mask = pattern` (30_encoding.md R109). -/
structure OpRow where
  mnemonic : String
  mask     : BitVec 32
  pattern  : BitVec 32
  deriving DecidableEq, Repr

/-- The row of a command. -/
def Instr.row : Instr → OpRow
  | .nop => ⟨"NOP", 0xFFFFFFFF, 0x00⟩
  | .add => ⟨"ADD", 0xFFFFFFFF, 0x01⟩
  | .sub => ⟨"SUB", 0xFFFFFFFF, 0x02⟩
  | .inc => ⟨"INC", 0xFFFFFFFF, 0x03⟩
  | .dec => ⟨"DEC", 0xFFFFFFFF, 0x04⟩
  | .muld => ⟨"MULD", 0xFFFFFFFF, 0x05⟩
  | .submuld => ⟨"SUBMULD", 0xFFFFFFFF, 0x06⟩
  | .mul => ⟨"MUL", 0xFFFFFFFF, 0x07⟩
  | .sqr => ⟨"SQR", 0xFFFFFFFF, 0x08⟩
  | .nlz => ⟨"NLZ", 0xFFFFFFFF, 0x09⟩
  | .ntz => ⟨"NTZ", 0xFFFFFFFF, 0x0A⟩
  | .lsr => ⟨"LSR", 0xFFFFFFFF, 0x0B⟩
  | .cmp => ⟨"CMP", 0xFFFFFFFF, 0x0C⟩
  | .cmpct => ⟨"CMPCT", 0xFFFFFFFF, 0x0D⟩
  | .fix => ⟨"FIX", 0xFFFFFFFF, 0x0E⟩
  | .maskcopy => ⟨"MASKCOPY", 0xFFFFFFFF, 0x0F⟩
  | .div => ⟨"DIV", 0xFFFFFFFF, 0x10⟩
  | .mod => ⟨"MOD", 0xFFFFFFFF, 0x11⟩
  | .gcd => ⟨"GCD", 0xFFFFFFFF, 0x12⟩
  | .modinv => ⟨"MODINV", 0xFFFFFFFF, 0x13⟩
  | .montfactor => ⟨"MONTFACTOR", 0xFFFFFFFF, 0x20⟩
  | .enginit _ => ⟨"ENGINIT", 0xFFFFFEFF, 0x21⟩
  | .engrd _ => ⟨"ENGRD", 0xFFFFFEFF, 0x22⟩
  | .madd _ => ⟨"MADD", 0xFFFFFEFF, 0x28⟩
  | .msub _ => ⟨"MSUB", 0xFFFFFEFF, 0x29⟩
  | .mneg _ => ⟨"MNEG", 0xFFFFFEFF, 0x2A⟩
  | .mdiv2 _ => ⟨"MDIV2", 0xFFFFFEFF, 0x2B⟩
  | .mmul2 _ => ⟨"MMUL2", 0xFFFFFEFF, 0x2C⟩
  | .mmul3 _ => ⟨"MMUL3", 0xFFFFFEFF, 0x2D⟩
  | .mmul _ => ⟨"MMUL", 0xFFFFFEFF, 0x2E⟩
  | .msqr _ => ⟨"MSQR", 0xFFFFFEFF, 0x2F⟩
  | .menc _ => ⟨"MENC", 0xFFFFFEFF, 0x30⟩
  | .mdec _ => ⟨"MDEC", 0xFFFFFEFF, 0x31⟩
  | .mred _ => ⟨"MRED", 0xFFFFFEFF, 0x32⟩
  | .r2red _ => ⟨"R2RED", 0xFFFFFBFF, 0x40⟩
  | .red2r _ => ⟨"RED2R", 0xFFFFFBFF, 0x41⟩
  | .amm _ => ⟨"AMM", 0xFFFFFBFF, 0x42⟩
  | .ams _ => ⟨"AMS", 0xFFFFFBFF, 0x43⟩
  | .ammdual _ => ⟨"AMMDUAL", 0xFFFFFBFF, 0x44⟩
  | .scrsize _ => ⟨"SCRSIZE", 0xFFFF8FFF, 0x48⟩
  | .scrput _ => ⟨"SCRPUT", 0xFFFF8FFF, 0x49⟩
  | .scrget _ => ⟨"SCRGET", 0xFFFF8FFF, 0x4A⟩
  | .scrgetct _ => ⟨"SCRGETCT", 0xFFFF8FFF, 0x4B⟩
  | .winsize => ⟨"WINSIZE", 0xFFFFFFFF, 0x50⟩
  | .expbufsize _ => ⟨"EXPBUFSIZE", 0xFFFF8FFF, 0x51⟩
  | .expbin _ _ => ⟨"EXPBIN", 0xFFFFFCFF, 0x52⟩
  | .expbinct _ _ => ⟨"EXPBINCT", 0xFFFFFCFF, 0x53⟩
  | .expwin _ _ _ => ⟨"EXPWIN", 0xFFFF8CFF, 0x54⟩
  | .expwinct _ _ _ => ⟨"EXPWINCT", 0xFFFF8CFF, 0x55⟩
  | .dualexpwinct _ _ => ⟨"DUALEXPWINCT", 0xFFFF8DFF, 0x56⟩
  | .os2bn => ⟨"OS2BN", 0xFFFFFFFF, 0x60⟩
  | .bn2os => ⟨"BN2OS", 0xFFFFFFFF, 0x61⟩

/-- One command for each row, in the table's order. -/
def rowInstances : List Instr :=
  List.flatten
    [[.nop, .add, .sub, .inc, .dec, .muld, .submuld, .mul, .sqr, .nlz, .ntz, .lsr, .cmp],
     [.cmpct, .fix, .maskcopy, .div, .mod, .gcd, .modinv, .montfactor, .enginit .c0, .engrd .c0, .madd .c0, .msub .c0, .mneg .c0],
     [.mdiv2 .c0, .mmul2 .c0, .mmul3 .c0, .mmul .c0, .msqr .c0, .menc .c0, .mdec .c0, .mred .c0, .r2red .d27, .red2r .d27, .amm .d27, .ams .d27, .ammdual .d27],
     [.scrsize 1, .scrput 1, .scrget 1, .scrgetct 1, .winsize, .expbufsize 1, .expbin .c0 .regular, .expbinct .c0 .regular, .expwin .c0 .regular 1, .expwinct .c0 .regular 1, .dualexpwinct .regular 1, .os2bn, .bn2os]]

/-- The opcode table (30_encoding.md R105, R109). -/
def opcodeTable : List OpRow := rowInstances.map Instr.row

/-- The word belongs to the row. -/
def OpRow.selects (r : OpRow) (w : BitVec 32) : Bool := decide (w &&& r.mask = r.pattern)

/-- What the decoder reads from a table word: the command word of R100 has one 32-bit form, and the width is the one
State.reset has. -/
def decodeTableWord (nbits w : Nat) : Option Instr :=
  match decode Config.standard.width (BitVec.ofNat 32 (w % 2 ^ nbits)) with
  | .ok i => some i
  | .illegal _ => none

end Sys2Proof
end

