-- ==== Sys2Proof/Machine/State.lean ====
section
/-! DEFINITION. The architectural state (10_state.md), plain data, the reasons a step can stop, and the state after
reset (R49). -/

namespace Sys2Proof.Machine

open Sys2Proof

/-- Limb memory LM through its byte view (20_memory.md R70, R72): byte `b` of limb `a` is at byte address
`a * (W/8) + b`. An address is listed exactly when its written mark is set (R74); a byte that nothing has written has
no value. Addresses rise strictly. -/
abbrev Memory := List Host.Cell

/-- The reasons of undefined behaviour, the table of 60_exceptions.md R383. A meaning answers one of them when the
caller's contract is broken, and the engine's step then enters `Phase.faulted` with it (R382). Each is safe: the spec
gives such a command no value. -/
inductive Fault where
  /-- A count that must be at least 1 is 0 (every command with a count; safe). -/
  | zeroLength
  /-- A length relation fails (DIV, R2RED, AMM, AMS, AMMDUAL, OS2BN, SCRSIZE, EXPBUFSIZE; safe). -/
  | badLength
  /-- A region lies outside LM (every command with a region, and a host access to LM; safe). -/
  | outOfBounds
  /-- The regions break the alias class (every command with an output region; safe). -/
  | overlap
  /-- An unwritten limb or byte is read (every command with an input region; safe). -/
  | uninitRead
  /-- The context is not valid (ENGRD, MADD .. MRED, EXPBIN .. DUALEXPWINCT; safe). -/
  | noContext
  /-- POOL_CAP is below POOL_NEED (the commands of noContext; safe). -/
  | poolExhausted
  /-- An operand is not below its modulus bound (MADD .. MRED, AMM, AMS, AMMDUAL, exponentiations; safe). -/
  | notReduced
  /-- An even value where an odd one is required (MONTFACTOR, AMM, AMS, AMMDUAL; safe). -/
  | evenModulus
  /-- k0 is not the Montgomery factor of the modulus (AMM, AMS, AMMDUAL; safe). -/
  | badFactor
  /-- A digit is not below 2^d (RED2R, AMM, AMS, AMMDUAL; safe). -/
  | digitOverflow
  /-- A value has bits at or above its declared size (R2RED, RED2R, exponentiations; safe). -/
  | excessBits
  /-- The modulus has bits at or above bitSize (ENGINIT; safe). -/
  | modulusTooWide
  /-- The modulus is below 2 (MODINV; safe). -/
  | modulusTooSmall
  /-- The top limb of the divisor is 0 (DIV, MOD; safe). -/
  | divisorNotNormalized
  /-- The selector is above 3 (ENGRD; safe). -/
  | badSelector
  /-- The table index is not below 2^w (SCRPUT, SCRGET, SCRGETCT; safe). -/
  | badIndex
  /-- The two contexts have different lengths (DUALEXPWINCT; safe). -/
  | lengthMismatch
  /-- The host writes CMD, ARG or LM while BUSY = 1 (the host; safe). -/
  | hostBusyWrite
  deriving DecidableEq, Repr

/-- Why a step gives an instruction no meaning. -/
inductive Refusal where
  /-- The dispatcher, for an instruction that has no meaning yet (safe). -/
  | notModelled (mnemonic : String)
  deriving DecidableEq, Repr

/-- The operand registers ARG0 .. ARG15 (10_state.md R35). -/
abbrev Args := Vector Word 16

/-- One engine context (10_state.md R36). The arrays are limb lists of MAX_LIMBS limbs, least-significant first. -/
structure Ctx where
  valid    : Bool
  modBits  : Word
  modLen   : Word
  modulus  : List Word
  k0       : Word
  montR    : List Word
  montR2   : List Word
  poolCap  : Word
  poolUsed : Word
  backend  : Backend
  deriving DecidableEq, Repr

/-- The engine phase (10_state.md R42). -/
inductive Phase where
  | idle
  | pending (word : BitVec 32) (args : Args)
  | faulted (reason : Fault)
  deriving DecidableEq, Repr

/-- What the host can do to the block (60_exceptions.md R395): slots are numbered 0 .. 63 (10_state.md R31). -/
inductive HostAccess where
  | readReg  (slot : Fin 64)
  | writeReg (slot : Fin 64) (v : Word)
  | readLm   (limb : Nat)
  | writeLm  (limb : Nat) (v : Word)
  | reset
  deriving DecidableEq, Repr

/-- One item of the interleaving of 20_memory.md R81: a host access, or the engine's turn. -/
inductive Event where
  | host (a : HostAccess)
  | engine
  deriving DecidableEq, Repr

/-- The state of the block (10_state.md R30 to R49), with the model's own fields last. -/
structure State where
  /-- The implementation parameters (00_scope.md R8); no step changes them. -/
  cfg    : Config
  /-- CMD (R32). -/
  cmd    : BitVec 32
  /-- STATUS (R33). -/
  status : Status
  /-- RES0 (R34). -/
  res0   : Word
  /-- RES1 (R34). -/
  res1   : Word
  /-- ARG0 .. ARG15 (R35). -/
  args   : Args
  /-- CTX[0] (R36). -/
  ctx0   : Ctx
  /-- CTX[1] (R36). -/
  ctx1   : Ctx
  /-- The engine phase (R42). -/
  phase  : Phase
  /-- LM and its written marks (R43). -/
  lm     : Memory
  /-- The leakage of the last engine step, the observable of 20_memory.md R82. -/
  leak   : Leak
  /-- The model's own: no engine step has been taken since reset (notes/assumptions/12.md). -/
  fresh  : Bool
  /-- The model's own: the value the host's last read returned. -/
  hostData : Word
  /-- The model's own: the interleaving still to come (20_memory.md R81, notes/assumptions/7.md). -/
  schedule : List Event
  /-- The model's own: the number of the next model draw (00_scope.md R12). -/
  draws  : Nat
  deriving DecidableEq, Repr

end Sys2Proof.Machine

namespace Sys2Proof

/-- Free value: the leakage of an engine step that 20_memory.md R82 leaves unconstrained. Its argument is the whole
state the step begins in, operands, LM and contexts included: such a trace may depend on the data
(70_reset_and_hazards.md R415). -/
opaque Config.freeLeak : Machine.State → Leak

end Sys2Proof

namespace Sys2Proof.Machine

open Sys2Proof

/-- A context slot after reset: VALID and the scalars 0 as 10_state.md R36 says; the arrays and BACKEND, which it
leaves unspecified, are 0 and generic. DESIGN CHOICE (notes/assumptions/5.md). -/
def Ctx.reset (c : Config) : Ctx where
  valid    := false
  modBits  := 0
  modLen   := 0
  modulus  := List.replicate c.maxLimbs 0
  k0       := 0
  montR    := List.replicate c.maxLimbs 0
  montR2   := List.replicate c.maxLimbs 0
  poolCap  := 0
  poolUsed := 0
  backend  := .generic

/-- The state after reset of a block with parameters `c` (10_state.md R49, 70_reset_and_hazards.md R410). The fields
the spec does not name: notes/assumptions/6.md. -/
def State.resetOf (c : Config) : State where
  cfg    := c
  cmd    := 0
  status := ⟨false, false, .none⟩
  res0   := 0
  res1   := 0
  args   := Vector.replicate 16 0
  ctx0   := Ctx.reset c
  ctx1   := Ctx.reset c
  phase  := .idle
  lm     := []
  leak   := ⟨[], 0⟩
  fresh  := true
  hostData := 0
  schedule := []
  draws  := 0

/-- The machine right after reset, with the parameters of notes/assumptions/1.md. -/
def State.reset : State := State.resetOf Config.standard

end Sys2Proof.Machine
end

