-- ==== Sys2Proof/Machine/Ops.lean ====
section
/-! DEFINITION. The named operations over LM, the registers, the contexts and the engine phase, which every meaning
is written with: the pseudocode primitives of 00_scope.md R11 and R12, how a command completes (30_encoding.md R110,
60_exceptions.md R380), how the engine enters the fault state (R382) and how reset leaves it
(70_reset_and_hazards.md R410). -/

namespace Sys2Proof.Machine

open Sys2Proof

/-- How a meaning ends. -/
abbrev Out := Host.Outcome State Fault Refusal

/-! ### Positional values -/

/-- The value of a digit sequence in radix 2^k, least-significant digit first: `val` with k = W, `dval` with k = d
(00_scope.md R11). -/
def radixVal (k : Nat) : List Nat → Nat
  | [] => 0
  | x :: xs => x + 2 ^ k * radixVal k xs

/-- The `n` low digits of a value in radix 2^k, least-significant digit first: `limb(v, i)` for i < n with k = W
(00_scope.md R11). -/
def radixDigits (k : Nat) : Nat → Nat → List Nat
  | 0, _ => []
  | n + 1, v => v % 2 ^ k :: radixDigits k n (v / 2 ^ k)

/-! ### The byte view of LM (20_memory.md R72, R74) -/

/-- The canonical form of LM: addresses rise strictly. -/
abbrev Memory.wf (m : Memory) : Prop := m.Pairwise (fun x y => x.1 < y.1)

/-- `ByteRead`: the byte at byte address `b`, or nothing where no byte has been written (20_memory.md R74). -/
def Memory.byteAt : Memory → Nat → Option Byte
  | [], _ => none
  | (a, v) :: m, b => if a = b then some v else Memory.byteAt m b

/-- `ByteWrite`: store one byte and set its written mark (20_memory.md R72, R74). -/
def Memory.setByte : Memory → Nat → Byte → Memory
  | [], b, v => [(b, v)]
  | (a, x) :: m, b, v =>
    if b < a then (b, v) :: (a, x) :: m
    else if b = a then (b, v) :: m
    else (a, x) :: Memory.setByte m b v

/-- `k` bytes from byte address `b` up, or nothing if one of them is unwritten. -/
def Memory.readBytes (m : Memory) : Nat → Nat → Option (List Byte)
  | _, 0 => some []
  | b, k + 1 =>
    match Memory.byteAt m b, Memory.readBytes m (b + 1) k with
    | some x, some xs => some (x :: xs)
    | _, _ => none

/-- Store bytes from byte address `b` up. -/
def Memory.writeBytes : Memory → Nat → List Byte → Memory
  | m, _, [] => m
  | m, b, x :: xs => Memory.writeBytes (Memory.setByte m b x) (b + 1) xs

/-- The value of bytes, the byte at the lowest address least significant (20_memory.md R72). -/
def bytesVal (l : List Byte) : Nat := radixVal 8 (l.map BitVec.toNat)

/-- The `k` low bytes of a value, least significant first. -/
def valBytes (k v : Nat) : List Byte := (radixDigits 8 k v).map (BitVec.ofNat 8)

/-! ### Limbs (20_memory.md R70, R71) -/

/-- Limb `a` of LM, or nothing if one of its bytes is unwritten (20_memory.md R74). -/
def State.limbAt (s : State) (a : Nat) : Option Nat :=
  (Memory.readBytes s.lm (a * s.cfg.bpl) s.cfg.bpl).map bytesVal

/-- Store one limb, its value taken modulo 2^W. -/
def State.setLimb (s : State) (a v : Nat) : State :=
  { s with lm := Memory.writeBytes s.lm (a * s.cfg.bpl) (valBytes s.cfg.bpl v) }

/-- The limbs LM[a], LM[a + stride], ... (n of them), or nothing if one is unwritten. A region has stride 1; an
entry of a scramble table has stride 2^w (44_scramble.md R311). -/
def State.limbsAt (s : State) (stride : Nat) : Nat → Nat → Option (List Nat)
  | _, 0 => some []
  | a, n + 1 =>
    match s.limbAt a, State.limbsAt s stride (a + stride) n with
    | some x, some xs => some (x :: xs)
    | _, _ => none

/-- Store limbs at LM[a], LM[a + stride], ... -/
def State.setLimbs (stride : Nat) : State → Nat → List Nat → State
  | s, _, [] => s
  | s, a, x :: xs => State.setLimbs stride (s.setLimb a x) (a + stride) xs

/-- `MemRead(a, n)` (00_scope.md R12): the value of a region, or nothing if a limb is unwritten. -/
def State.memRead (s : State) (a n : Nat) : Option Nat := (s.limbsAt 1 a n).map (radixVal s.cfg.W)

/-- `MemWrite(a, n, v)` (00_scope.md R12). -/
def State.memWrite (s : State) (a n v : Nat) : State := s.setLimbs 1 a (radixDigits s.cfg.W n v)

/-- `DigWrite(a, n, v)` for digits of `d` bits (00_scope.md R12). -/
def State.digWrite (s : State) (d a n v : Nat) : State := s.setLimbs 1 a (radixDigits d n v)

/-- The octets from byte address `b` up read as a big-endian string of `k` octets (20_memory.md R73). -/
def State.octetsRead (s : State) (b k : Nat) : Option Nat :=
  (Memory.readBytes s.lm b k).map (fun l => bytesVal l.reverse)

/-- Store a big-endian string of `k` octets from byte address `b` up (20_memory.md R73, 46_octet_misc.md R361). -/
def State.octetsWrite (s : State) (b k v : Nat) : State :=
  { s with lm := Memory.writeBytes s.lm b (valBytes k v).reverse }

/-! ### Words and draws -/

/-- A value as a W-bit word (00_scope.md R10). -/
def wordOf (c : Config) (v : Nat) : Word := BitVec.ofNat 64 (v % 2 ^ c.W)

/-- Word `i` of model draw `k`: an arbitrary W-bit value (00_scope.md R12, notes/assumptions/10.md). -/
def drawWord (c : Config) (k i : Nat) : Word := wordOf c (Config.freeBits k i).toNat

/-- `n` arbitrary words of draw `k`, from index `i` up. -/
def drawWords (c : Config) (k i n : Nat) : List Word := (List.range n).map (fun j => drawWord c k (i + j))

/-- `Havoc(a, n)` (00_scope.md R12): every limb gets an arbitrary value, drawn independently, and is marked written. -/
def State.havoc (s : State) (a n : Nat) : State :=
  s.setLimbs 1 a ((drawWords s.cfg s.draws 0 n).map BitVec.toNat)

/-! ### Operand registers and contexts -/

/-- The operand values of the command in flight, latched at issue (10_state.md R32, R35); outside `pending` the
values an issue would latch now (notes/assumptions/11.md). -/
def State.latched (s : State) : Args :=
  match s.phase with
  | .pending _ args => args
  | .idle => s.args
  | .faulted _ => s.args

/-- Operand `ARG[i]` as the unsigned integer it stands for (30_encoding.md R104). -/
def State.opnd (s : State) (i : Fin 16) : Nat := (s.latched.get i).toNat

/-- The context slot `c` (10_state.md R36). -/
def State.ctx (s : State) (c : Slot) : Ctx :=
  match c with
  | .c0 => s.ctx0
  | .c1 => s.ctx1

/-- Replace context slot `c`; the other slot is never touched (42_montgomery.md R232). -/
def State.setCtx (s : State) (c : Slot) (x : Ctx) : State :=
  match c with
  | .c0 => { s with ctx0 := x }
  | .c1 => { s with ctx1 := x }

/-- The number of a slot, for the free values of Config. -/
def slotIndex (c : Slot) : Nat :=
  match c with
  | .c0 => 0
  | .c1 => 1

/-- A context none of whose fields has a defined value but VALID, which the caller gives (10_state.md R36). -/
def freeCtx (c : Config) (valid : Bool) (slot k : Nat) : Ctx :=
  let base := 64 + slot * (3 * c.maxLimbs + 5)
  { valid    := valid
    modBits  := drawWord c k base
    modLen   := drawWord c k (base + 1)
    k0       := drawWord c k (base + 2)
    poolCap  := drawWord c k (base + 3)
    poolUsed := drawWord c k (base + 4)
    modulus  := drawWords c k (base + 5) c.maxLimbs
    montR    := drawWords c k (base + 5 + c.maxLimbs) c.maxLimbs
    montR2   := drawWords c k (base + 5 + 2 * c.maxLimbs) c.maxLimbs
    backend  := Config.freeBackend k slot }

/-! ### Completing a command (30_encoding.md R110, 60_exceptions.md R380) -/

/-- The end of every command that completes: STATUS is not busy and done with its code, RES0 and RES1 are written
(10_state.md R34), the engine is idle (R42), and the step's leakage stands in `leak` (20_memory.md R82). -/
def State.finish (s : State) (err : ErrCode) (r0 r1 : Nat) (l : Leak) : State :=
  { s with
    status := ⟨false, true, err⟩
    res0   := wordOf s.cfg r0
    res1   := wordOf s.cfg r1
    phase  := .idle
    leak   := l
    fresh  := false
    draws  := s.draws + 1 }

/-- A successful command: its results and its leakage, which is `Config.freeLeak` of the state the command began in
unless the rule makes the command constant-time (20_memory.md R82). -/
def State.complete (s : State) (r0 r1 : Nat) (l : Leak) : State := s.finish .none r0 r1 l

/-- A checked error: ERR is the code and RES0 = RES1 = 0 (60_exceptions.md R380, R381). -/
def State.completeErr (s : State) (e : ErrCode) (l : Leak) : State := s.finish e 0 0 l

/-! ### Undefined behaviour, the fault state and reset -/

/-- `require p else UB(r)` (00_scope.md R13). -/
def guardUB (p : Prop) [Decidable p] (r : Fault) (k : Out) : Out := if p then k else .fault r

/-- A read that raises UB(r) where there is nothing to read (00_scope.md R12). -/
def needUB {α : Type} (o : Option α) (r : Fault) (k : α → Out) : Out :=
  match o with
  | some v => k v
  | none => .fault r

/-- Enter the fault state (10_state.md R42, 60_exceptions.md R382): the phase is Faulted(reason), and no register,
context field or LM limb has a defined value: registers and contexts are free values, LM holds no value. -/
def State.enterFaulted (s : State) (r : Fault) : State where
  cfg    := s.cfg
  cmd    := (Config.freeBits s.draws 0).setWidth 32
  status := Config.freeStatus s.draws
  res0   := drawWord s.cfg s.draws 1
  res1   := drawWord s.cfg s.draws 2
  args   := Vector.ofFn (fun i : Fin 16 => drawWord s.cfg s.draws (3 + i.val))
  ctx0   := freeCtx s.cfg (Config.freeValid s.draws 0) 0 s.draws
  ctx1   := freeCtx s.cfg (Config.freeValid s.draws 1) 1 s.draws
  phase  := .faulted r
  lm     := []
  leak   := Config.freeLeak s
  fresh  := false
  hostData := s.hostData
  schedule := s.schedule
  draws  := s.draws + 1

/-- Reset, in any phase (70_reset_and_hazards.md R410): every field of the spec's state takes its reset value; the
parameters and the model's own record of the host stay. It is the one way out of the fault state (60_exceptions.md
R382). -/
def State.applyReset (s : State) : State :=
  { State.resetOf s.cfg with hostData := s.hostData, schedule := s.schedule, draws := s.draws }

/-- Issue a command: the effect of a host write to CMD while idle (10_state.md R32). -/
def State.issue (s : State) (w : BitVec 32) : State :=
  { s with cmd := w, status := ⟨true, false, .none⟩, phase := .pending w s.args }

end Sys2Proof.Machine
end

