-- ==== Sys2Proof/Machine/Operands.lean ====
section
/-! DEFINITION. Operand forms: regions of LM, their bounds and alias classes (20_memory.md R75, R77), the values read
from them, and the context a command selects (42_montgomery.md R230, R231). -/

namespace Sys2Proof.Machine

open Sys2Proof

/-- ceil(a / b) for b ≥ 1 (00_scope.md R12). -/
def ceilDiv (a b : Nat) : Nat := (a + b - 1) / b

/-- The digit size d selected by S (30_encoding.md R102). -/
def digitBits : DigitSize → Nat
  | .d52 => 52
  | .d27 => 27

/-- MAX_DIGITS(d) (00_scope.md R8). -/
def maxDigits (c : Config) : DigitSize → Nat
  | .d52 => c.maxDigits52
  | .d27 => c.maxDigits27

/-- A region of LM: base limb index and limb count (00_scope.md R11). -/
structure Region where
  base  : Nat
  count : Nat
  deriving DecidableEq, Repr

/-- The region lies inside LM, computed without wrap-around (20_memory.md R75). -/
def Region.inBounds (c : Config) (r : Region) : Bool := decide (r.base + r.count ≤ c.lmLimbs)

/-- The two regions share no limb (20_memory.md R77). -/
def Region.disjoint (r q : Region) : Bool :=
  decide (r.count = 0) || decide (q.count = 0) || decide (r.base + r.count ≤ q.base) ||
    decide (q.base + q.count ≤ r.base)

/-- The limbs that hold the bytes of a byte region (20_memory.md R72, R77). -/
def limbCover (c : Config) (b len : Nat) : Region :=
  if len = 0 then ⟨b / c.bpl, 0⟩ else ⟨b / c.bpl, (b + len - 1) / c.bpl - b / c.bpl + 1⟩

/-- The alias classes of 20_memory.md R77. -/
inductive AliasClass where
  | a1 | none | io
  deriving DecidableEq, Repr

/-- Every region of the list is disjoint from `r`. -/
def Region.disjointAll (r : Region) (l : List Region) : Bool := l.all (fun q => r.disjoint q)

/-- Output regions are pairwise disjoint (20_memory.md R77). -/
def pairwiseDisjoint : List Region → Bool
  | [] => true
  | r :: l => r.disjointAll l && pairwiseDisjoint l

/-- Every output region is disjoint from every input region. -/
def outputsDisjoint (ins outs : List Region) : Bool := outs.all (fun r => r.disjointAll ins)

/-- The alias class holds (20_memory.md R77). A1 lets the first output be exactly the first input; in IO the region
read and written is the output, and `ins` are the other inputs. -/
def aliasOk (cls : AliasClass) (ins outs : List Region) : Bool :=
  pairwiseDisjoint outs &&
    match cls with
    | .none => outputsDisjoint ins outs
    | .io => outputsDisjoint ins outs
    | .a1 =>
      match ins, outs with
      | i :: is, o :: os => (decide (o = i) || o.disjoint i) && o.disjointAll is && outputsDisjoint (i :: is) os
      | _, _ => true

/-- The bounds and overlap checks of the skeleton, in its order (30_encoding.md R110). -/
def checkRegions (s : State) (cls : AliasClass) (ins outs : List Region) (k : Out) : Out :=
  guardUB ((ins ++ outs).all (fun r => r.inBounds s.cfg)) .outOfBounds <|
  guardUB (aliasOk cls ins outs) .overlap k

/-- Read a region's value, UB(UninitRead) on an unwritten limb. -/
def withVal (s : State) (a n : Nat) (k : Nat → Out) : Out := needUB (s.memRead a n) .uninitRead k

/-- Read a region's limbs, UB(UninitRead) on an unwritten limb. -/
def withLimbs (s : State) (stride a n : Nat) (k : List Nat → Out) : Out :=
  needUB (s.limbsAt stride a n) .uninitRead k

/-- Read a digit region's value (`DigRead`), every digit normalized (43_redundant.md R280). -/
def withDigits (s : State) (d a n : Nat) (k : Nat → Out) : Out :=
  withLimbs s 1 a n fun l =>
  guardUB (l.all (fun x => decide (x < 2 ^ d))) .digitOverflow <|
  k (radixVal d l)

/-- POOL_NEED(op) by opcode (00_scope.md R8). -/
def poolNeedOf (c : Config) (opc : Nat) : Nat :=
  match c.poolNeed.find? (fun p => p.1 == opc) with
  | some p => p.2
  | none => 0

/-- The context checks of the skeleton for one context (42_montgomery.md R230, R231). -/
def withCtx (s : State) (c : Slot) (opc : Nat) (k : Ctx → Out) : Out :=
  guardUB ((s.ctx c).valid) .noContext <|
  guardUB (poolNeedOf s.cfg opc ≤ (s.ctx c).poolCap.toNat) .poolExhausted <|
  k (s.ctx c)

/-- MOD_LEN of a context. -/
def ctxLen (x : Ctx) : Nat := x.modLen.toNat

/-- The value of the first MOD_LEN limbs of a context array (42_montgomery.md R230). -/
def ctxVal (c : Config) (x : Ctx) (limbs : List Word) : Nat :=
  radixVal c.W ((limbs.take (ctxLen x)).map BitVec.toNat)

/-- m, the modulus of a context. -/
def ctxM (c : Config) (x : Ctx) : Nat := ctxVal c x x.modulus

/-- Rm, the contents of MONT_R. -/
def ctxRm (c : Config) (x : Ctx) : Nat := ctxVal c x x.montR

/-- R2m, the contents of MONT_R2. -/
def ctxR2m (c : Config) (x : Ctx) : Nat := ctxVal c x x.montR2

/-- R = 2^(W·n) (00_scope.md R16). -/
def ctxR (c : Config) (x : Ctx) : Nat := 2 ^ (c.W * ctxLen x)

end Sys2Proof.Machine
end

