-- ==== Sys2Proof/Machine/Flags.lean ====
section
/-! DEFINITION. The outcomes the commands return in RES0 and RES1, the block having no flag register (10_state.md
R45): carries, borrows, the three-way comparison, bit counts and logical lengths. -/

namespace Sys2Proof.Machine

open Sys2Proof

/-- The part of a result that does not fit n limbs: the carry or high limb (40_bnu.md R141, R143, R145). -/
def carryOut (W n v : Nat) : Nat := v / 2 ^ (W * n)

/-- (a - b) mod 2^(W·n) (40_bnu.md R142, R144). -/
def subWrap (W n a b : Nat) : Nat := ((a : Int) - (b : Int)).emod (2 ^ (W * n) : Nat) |>.toNat

/-- The borrow of a - b, 0 or 1 (40_bnu.md R142, R144). -/
def borrowOut (a b : Nat) : Nat := if a < b then 1 else 0

/-- The borrow limb of r - p, the b with r - p = rn - b·2^(W·n) (40_bnu.md R146). -/
def borrowLimb (W n r p : Nat) : Nat :=
  (((subWrap W n r p : Nat) : Int) - ((r : Int) - (p : Int))) / ((2 ^ (W * n) : Nat) : Int) |>.toNat

/-- The three-way comparison as a W-bit two's-complement word (40_bnu.md R153). -/
def compareWord (W a b : Nat) : Nat := if b < a then 1 else if a = b then 0 else 2 ^ W - 1

/-- The logical length in limbs, 1 for the value 0 (41_division.md R200, 00_scope.md R11). -/
def lenOf (W v : Nat) : Nat := if v = 0 then 1 else Nat.log2 v / W + 1

/-- The minimal byte length, 0 for the value 0 (46_octet_misc.md R361). -/
def minBytes (v : Nat) : Nat := if v = 0 then 0 else Nat.log2 v / 8 + 1

/-- The leading zero bits of a limb (40_bnu.md R149). -/
def leadingZeros (W x : Nat) : Nat := if x = 0 then W else W - 1 - Nat.log2 x

/-- The trailing zero bits among the low `k` bits of a value (40_bnu.md R150); `k` if all of them are 0. -/
def trailingZeros : Nat → Nat → Nat
  | 0, _ => 0
  | k + 1, x => if x % 2 = 1 then 0 else 1 + trailingZeros k (x / 2)

end Sys2Proof.Machine
end

