-- ==== Sys2Proof/Machine/Bnu.lean ====
section
/-! DEFINITION. The limb-arithmetic commands (40_bnu.md R140 to R155). -/

namespace Sys2Proof.Machine

open Sys2Proof

/-- The shape of ADD and SUB: R(n) from A(n) and B(n), alias class A1; `f a b` is the result before truncation and
`g a b` the value of RES0 (40_bnu.md R141, R142). -/
def bnuBinary (s : State) (f g : Nat → Nat → Nat → Nat) : Out :=
  let r := s.opnd 0
  let a := s.opnd 1
  let b := s.opnd 2
  let n := s.opnd 3
  checkRegions s .a1 [⟨a, n⟩, ⟨b, n⟩] [⟨r, n⟩] <|
  guardUB (1 ≤ n) .zeroLength <|
  withVal s a n fun av =>
  withVal s b n fun bv =>
  .next ((s.memWrite r n (f n av bv)).complete (g n av bv) 0 (Config.freeLeak s))

/-- The shape of INC, DEC and MULD: R(n) from A(n) and a single-limb value, alias class A1 (40_bnu.md R143 to R145). -/
def bnuDigit (s : State) (f g : Nat → Nat → Nat → Nat) : Out :=
  let r := s.opnd 0
  let a := s.opnd 1
  let n := s.opnd 2
  let v := s.opnd 3
  checkRegions s .a1 [⟨a, n⟩] [⟨r, n⟩] <|
  guardUB (1 ≤ n) .zeroLength <|
  withVal s a n fun av =>
  .next ((s.memWrite r n (f n av v)).complete (g n av v) 0 (Config.freeLeak s))

/-- ADD (R141). -/
def execAdd (s : State) : Out :=
  bnuBinary s (fun _ a b => a + b) (fun n a b => carryOut s.cfg.W n (a + b))

/-- SUB (R142). -/
def execSub (s : State) : Out :=
  bnuBinary s (fun n a b => subWrap s.cfg.W n a b) (fun _ a b => borrowOut a b)

/-- INC (R143). -/
def execInc (s : State) : Out :=
  bnuDigit s (fun _ a v => a + v) (fun n a v => carryOut s.cfg.W n (a + v))

/-- DEC (R144). -/
def execDec (s : State) : Out :=
  bnuDigit s (fun n a v => subWrap s.cfg.W n a v) (fun _ a v => borrowOut a v)

/-- MULD (R145). -/
def execMuld (s : State) : Out :=
  bnuDigit s (fun _ a v => a * v) (fun n a v => carryOut s.cfg.W n (a * v))

/-- SUBMULD (R146): R(n) is read and written, alias class IO. -/
def execSubmuld (s : State) : Out :=
  let r := s.opnd 0
  let a := s.opnd 1
  let n := s.opnd 2
  let v := s.opnd 3
  checkRegions s .io [⟨a, n⟩] [⟨r, n⟩] <|
  guardUB (1 ≤ n) .zeroLength <|
  withVal s r n fun rv =>
  withVal s a n fun av =>
  .next ((s.memWrite r n (subWrap s.cfg.W n rv (av * v))).complete (borrowLimb s.cfg.W n rv (av * v)) 0
    (Config.freeLeak s))

/-- MUL (R147). -/
def execMul (s : State) : Out :=
  let r := s.opnd 0
  let a := s.opnd 1
  let na := s.opnd 2
  let b := s.opnd 3
  let nb := s.opnd 4
  checkRegions s .none [⟨a, na⟩, ⟨b, nb⟩] [⟨r, na + nb⟩] <|
  guardUB (1 ≤ na ∧ 1 ≤ nb) .zeroLength <|
  withVal s a na fun av =>
  withVal s b nb fun bv =>
  .next ((s.memWrite r (na + nb) (av * bv)).complete 0 0 (Config.freeLeak s))

/-- SQR (R148). -/
def execSqr (s : State) : Out :=
  let r := s.opnd 0
  let a := s.opnd 1
  let n := s.opnd 2
  checkRegions s .none [⟨a, n⟩] [⟨r, 2 * n⟩] <|
  guardUB (1 ≤ n) .zeroLength <|
  withVal s a n fun av =>
  .next ((s.memWrite r (2 * n) (av * av)).complete 0 0 (Config.freeLeak s))

/-- NLZ (R149). -/
def execNlz (s : State) : Out := .next (s.complete (leadingZeros s.cfg.W (s.opnd 0)) 0 (Config.freeLeak s))

/-- NTZ (R150). -/
def execNtz (s : State) : Out := .next (s.complete (trailingZeros s.cfg.W (s.opnd 0)) 0 (Config.freeLeak s))

/-- a >> s, 0 once every bit of n limbs is shifted out (R151). -/
def shiftRightVal (W n a sh : Nat) : Nat := if W * n ≤ sh then 0 else a / 2 ^ sh

/-- LSR (R151). -/
def execLsr (s : State) : Out :=
  let r := s.opnd 0
  let a := s.opnd 1
  let n := s.opnd 2
  let sh := s.opnd 3
  checkRegions s .a1 [⟨a, n⟩] [⟨r, n⟩] <|
  guardUB (1 ≤ n) .zeroLength <|
  withVal s a n fun av =>
  .next ((s.memWrite r n (shiftRightVal s.cfg.W n av sh)).complete 0 0 (Config.freeLeak s))

/-- FIX (R152). -/
def execFix (s : State) : Out :=
  let a := s.opnd 0
  let n := s.opnd 1
  checkRegions s .none [⟨a, n⟩] [] <|
  guardUB (1 ≤ n) .zeroLength <|
  withVal s a n fun av =>
  .next (s.complete (lenOf s.cfg.W av) 0 (Config.freeLeak s))

/-- What CMP and CMPCT compare (R153): both read A(nA) and B(nB); `done` completes with the comparison word. -/
def bnuCompare (s : State) (done : Nat → State) : Out :=
  let a := s.opnd 0
  let na := s.opnd 1
  let b := s.opnd 2
  let nb := s.opnd 3
  checkRegions s .none [⟨a, na⟩, ⟨b, nb⟩] [] <|
  guardUB (1 ≤ na ∧ 1 ≤ nb) .zeroLength <|
  withVal s a na fun av =>
  withVal s b nb fun bv =>
  .next (done (compareWord s.cfg.W av bv))

/-- CMP (R153). -/
def execCmp (s : State) : Out := bnuCompare s (fun r => s.complete r 0 (Config.freeLeak s))

/-- The trace of CMPCT, from the top limb down (R154): the reads for index k - 1, then those below. -/
def cmpctTrace (a na b nb : Nat) : Nat → List Access
  | 0 => []
  | k + 1 =>
    (if k < na then [Access.read (a + k)] else []) ++ (if k < nb then [Access.read (b + k)] else []) ++
      cmpctTrace a na b nb k

/-- The leakage of CMPCT: the exact trace, and a duration that is a function of (nA, nB) (R154). -/
def cmpctLeak (c : Config) (a na b nb : Nat) : Leak :=
  ⟨cmpctTrace a na b nb (max na nb), Config.cmpctDuration c na nb⟩

/-- CMPCT (R154). -/
def execCmpct (s : State) : Out :=
  bnuCompare s (fun r => s.complete r 0 (cmpctLeak s.cfg (s.opnd 0) (s.opnd 1) (s.opnd 2) (s.opnd 3)))

/-- One limb of MASKCOPY: (x & mask) | (y & ~mask), `~` on W bits (R155, 00_scope.md R12). -/
def selectLimb (W mask x y : Nat) : Nat := (x &&& mask) ||| (y &&& (2 ^ W - 1 - mask))

/-- The trace of MASKCOPY for limbs j .. j + k - 1 (R155). -/
def maskcopyTrace (r a b : Nat) : Nat → Nat → List Access
  | _, 0 => []
  | j, k + 1 => .read (a + j) :: .read (b + j) :: .write (r + j) :: maskcopyTrace r a b (j + 1) k

/-- The leakage of MASKCOPY: the exact trace, and a duration that is a function of n (R155). -/
def maskcopyLeak (c : Config) (r a b n : Nat) : Leak := ⟨maskcopyTrace r a b 0 n, Config.maskcopyDuration c n⟩

/-- MASKCOPY (R155). -/
def execMaskcopy (s : State) : Out :=
  let r := s.opnd 0
  let a := s.opnd 1
  let b := s.opnd 2
  let n := s.opnd 3
  let mask := s.opnd 4
  checkRegions s .a1 [⟨a, n⟩, ⟨b, n⟩] [⟨r, n⟩] <|
  guardUB (1 ≤ n) .zeroLength <|
  withLimbs s 1 a n fun xs =>
  withLimbs s 1 b n fun ys =>
  .next ((s.setLimbs 1 r (List.zipWith (selectLimb s.cfg.W mask) xs ys)).complete 0 0
    (maskcopyLeak s.cfg r a b n))

end Sys2Proof.Machine
end

