-- ==== Sys2Proof/Machine/Arith.lean ====
section
/-! DEFINITION. The integer functions of the rules: the modular inverse (00_scope.md R12), Montgomery reduction and
products (42_montgomery.md R241), Almost Montgomery Multiplication (43_redundant.md R283), the scramble-table size
(44_scramble.md R310) and the four exponentiation methods (45_exponentiation.md R335 to R338). -/

namespace Sys2Proof.Machine

open Sys2Proof

/-- Extended Euclid: coefficients (x, y) with a·x + b·y = gcd(a, b), given more fuel than b. -/
def egcd : Nat → Nat → Nat → Int × Int
  | 0, _, _ => (1, 0)
  | fuel + 1, a, b =>
    if b = 0 then (1, 0)
    else
      let p := egcd fuel b (a % b)
      (p.2, p.1 - ((a / b : Nat) : Int) * p.2)

/-- `inv(x, m)`: the y in [0, m) with x·y ≡ 1 (mod m), when gcd(x, m) = 1 (00_scope.md R12). -/
def invMod (x m : Nat) : Nat := ((egcd (m + 1) (x % m) m).1 % (m : Int)).toNat

/-- -inv(x, q) mod q, the Montgomery factor for radix q (00_scope.md R16, 42_montgomery.md R234). -/
def negInv (x q : Nat) : Nat := (q - invMod (x % q) q) % q

/-- REDC(T) for modulus m and R (42_montgomery.md R241). -/
def redc (m R T : Nat) : Nat :=
  let Q := (R - T % R) * invMod m R % R
  let t := (T + Q * m) / R
  if m ≤ t then t - m else t

/-- MMULf(a, b) = REDC(a·b) (45_exponentiation.md). -/
def mmulf (m R a b : Nat) : Nat := redc m R (a * b)

/-! ### The method table's additive operations (42_montgomery.md R235 to R240) -/

/-- MADD's value: one conditional subtraction (R235). -/
def maddVal (m a b : Nat) : Nat := if m ≤ a + b then a + b - m else a + b

/-- MSUB's value: the modulus added back once on a borrow (R236). -/
def msubVal (m a b : Nat) : Nat := if a < b then a + m - b else a - b

/-- MNEG's value (R237). -/
def mnegVal (m a : Nat) : Nat := if m - a = m then 0 else m - a

/-- MDIV2's value (R238). -/
def mdiv2Val (m a : Nat) : Nat := if a % 2 = 1 then (a + m) / 2 else a / 2

/-! ### Almost Montgomery Multiplication -/

/-- The loop of AMMf over the digits of b, least significant first, no final subtraction (43_redundant.md R283). -/
def ammLoop (d a m k0d : Nat) : Nat → Nat → Nat → Nat
  | 0, _, acc => acc
  | n + 1, b, acc =>
    let acc1 := acc + a * (b % 2 ^ d)
    let y := acc1 % 2 ^ d * k0d % 2 ^ d
    ammLoop d a m k0d n (b / 2 ^ d) ((acc1 + y * m) / 2 ^ d)

/-- AMMf(a, b, m, k0d, len) (43_redundant.md R283). -/
def ammf (d a b m k0d len : Nat) : Nat := ammLoop d a m k0d len b 0

/-! ### Sizes -/

/-- SCRSIZE(n, w): 2^w entries of n limbs, padded up to a cache-line multiple (44_scramble.md R310). -/
def scrSize (c : Config) (n w : Nat) : Nat :=
  let cl := c.clBytes * 8 / c.W
  ceilDiv (2 ^ w * n) cl * cl

/-- EXPBUF(n, w); w = 0 is the binary method (45_exponentiation.md R331). -/
def expBuf (c : Config) (n w : Nat) : Nat := if w = 0 then 2 * n else scrSize c n w + 2 * n

/-- The window width for a bit size (45_exponentiation.md R330). -/
def winSize (bits : Nat) : Nat :=
  if 4096 < bits then 6
  else if 2666 < bits then 5
  else if 717 < bits then 4
  else if 178 < bits then 3
  else if 41 < bits then 2
  else 1

/-! ### Exponentiation methods, on Montgomery-domain values: x the encoded base, rm MontgomeryOne, e the exponent -/

/-- EXPBIN's loop, from bit k - 1 down (45_exponentiation.md R335). -/
def binLoop (m R x e : Nat) : Nat → Nat → Nat
  | 0, acc => acc
  | k + 1, acc =>
    let sq := mmulf m R acc acc
    binLoop m R x e k (if e.testBit k then mmulf m R sq x else sq)

/-- EXPBIN's accumulator, with its edge cases before the loop (45_exponentiation.md R335). -/
def powBin (m R rm x e bitsE : Nat) : Nat :=
  if e = 0 then rm else if x = 0 then 0 else binLoop m R x e bitsE rm

/-- EXPBINCT's loop: the product is always computed (45_exponentiation.md R336). -/
def binCtLoop (m R rm x e : Nat) : Nat → Nat → Nat
  | 0, acc => acc
  | k + 1, acc =>
    let sq := mmulf m R acc acc
    binCtLoop m R rm x e k (mmulf m R sq (if e.testBit k then x else rm))

/-- EXPBINCT's accumulator (45_exponentiation.md R336). -/
def powBinCt (m R rm x e bitsE : Nat) : Nat := binCtLoop m R rm x e bitsE rm

/-- The power table T[0 .. n-1] from T[0] = cur: each entry is the one before times x (45_exponentiation.md R337). -/
def powTable (m R x : Nat) : Nat → Nat → List Nat
  | 0, _ => []
  | n + 1, cur => cur :: powTable m R x n (mmulf m R cur x)

/-- `w` squarings. -/
def sqrTimes (m R : Nat) : Nat → Nat → Nat
  | 0, acc => acc
  | k + 1, acc => sqrTimes m R k (mmulf m R acc acc)

/-- EXPWIN's loop over windows j - 1 down to 0, no product for a zero window (45_exponentiation.md R337). -/
def winLoop (m R : Nat) (table : List Nat) (w e : Nat) : Nat → Nat → Nat
  | 0, acc => acc
  | j + 1, acc =>
    let sq := sqrTimes m R w acc
    let v := e / 2 ^ (w * j) % 2 ^ w
    winLoop m R table w e j (if v = 0 then sq else mmulf m R sq (table.getD v 0))

/-- EXPWIN's accumulator (45_exponentiation.md R337). -/
def powWin (m R rm x e bitsE w : Nat) : Nat :=
  winLoop m R (powTable m R x (2 ^ w) rm) w e (ceilDiv bitsE w) rm

/-- EXPWINCT's loop: window 0 selects T[0] and the product is always computed (45_exponentiation.md R338). -/
def winCtLoop (m R : Nat) (table : List Nat) (w e : Nat) : Nat → Nat → Nat
  | 0, acc => acc
  | j + 1, acc =>
    let sq := sqrTimes m R w acc
    winCtLoop m R table w e j (mmulf m R sq (table.getD (e / 2 ^ (w * j) % 2 ^ w) 0))

/-- EXPWINCT's accumulator (45_exponentiation.md R338). -/
def powWinCt (m R rm x e bitsE w : Nat) : Nat :=
  winCtLoop m R (powTable m R x (2 ^ w) rm) w e (ceilDiv bitsE w) rm

/-- x~: the base encoded when D = 1, as it is when D = 0 (45_exponentiation.md R335). -/
def encodeBase (dom : Domain) (m R r2m x : Nat) : Nat :=
  match dom with
  | .montgomery => x
  | .regular => mmulf m R x r2m

/-- Y from the accumulator: decoded when D = 1 (45_exponentiation.md R335). -/
def decodeResult (dom : Domain) (m R acc : Nat) : Nat :=
  match dom with
  | .montgomery => acc
  | .regular => redc m R acc

end Sys2Proof.Machine
end

