-- ==== Sys2Proof/Machine/Division.lean ====
section
/-! DEFINITION. Division, GCD and modular inverse (41_division.md R200 to R204). -/

namespace Sys2Proof.Machine

open Sys2Proof

/-- The check that the divisor's top limb, LM[B + nB - 1], is not 0 (R201, R202). -/
def divisorCheck (s : State) (b nb : Nat) (k : Out) : Out :=
  needUB (s.limbAt (b + nb - 1)) .uninitRead fun top =>
  guardUB (top ≠ 0) .divisorNotNormalized k

/-- DIV (R201). -/
def execDiv (s : State) : Out :=
  let q := s.opnd 0
  let rm := s.opnd 1
  let a := s.opnd 2
  let na := s.opnd 3
  let b := s.opnd 4
  let nb := s.opnd 5
  checkRegions s .none [⟨a, na⟩, ⟨b, nb⟩] [⟨q, na + 1 - nb⟩, ⟨rm, nb⟩] <|
  guardUB (1 ≤ na ∧ 1 ≤ nb) .zeroLength <|
  guardUB (nb ≤ na) .badLength <|
  divisorCheck s b nb <|
  withVal s a na fun av =>
  withVal s b nb fun bv =>
  .next (((s.memWrite q (na + 1 - nb) (av / bv)).memWrite rm nb (av % bv)).complete
    (lenOf s.cfg.W (av / bv)) (lenOf s.cfg.W (av % bv)) (Config.freeLeak s))

/-- MOD (R202). -/
def execMod (s : State) : Out :=
  let rm := s.opnd 0
  let a := s.opnd 1
  let na := s.opnd 2
  let b := s.opnd 3
  let nb := s.opnd 4
  checkRegions s .none [⟨a, na⟩, ⟨b, nb⟩] [⟨rm, nb⟩] <|
  guardUB (1 ≤ na ∧ 1 ≤ nb) .zeroLength <|
  divisorCheck s b nb <|
  withVal s a na fun av =>
  withVal s b nb fun bv =>
  .next ((s.memWrite rm nb (av % bv)).complete (lenOf s.cfg.W (av % bv)) 0 (Config.freeLeak s))

/-- GCD (R203). -/
def execGcd (s : State) : Out := .next (s.complete (Nat.gcd (s.opnd 0) (s.opnd 1)) 0 (Config.freeLeak s))

/-- MODINV (R204): with no inverse RES0 is the sentinel 0 and R(nM) is unspecified. -/
def execModinv (s : State) : Out :=
  let r := s.opnd 0
  let a := s.opnd 1
  let na := s.opnd 2
  let m := s.opnd 3
  let nm := s.opnd 4
  checkRegions s .none [⟨a, na⟩, ⟨m, nm⟩] [⟨r, nm⟩] <|
  guardUB (1 ≤ na ∧ 1 ≤ nm) .zeroLength <|
  withVal s a na fun av =>
  withVal s m nm fun mv =>
  guardUB (2 ≤ mv) .modulusTooSmall <|
  if Nat.gcd (av % mv) mv = 1 then
    .next ((s.memWrite r nm (invMod (av % mv) mv)).complete (lenOf s.cfg.W (invMod (av % mv) mv)) 0 (Config.freeLeak s))
  else
    .next ((s.havoc r nm).complete 0 0 (Config.freeLeak s))

end Sys2Proof.Machine
end

