-- ==== Sys2Proof/Machine/Exponent.lean ====
section
/-! DEFINITION. Modular exponentiation (45_exponentiation.md R330 to R340), each command by the method of its rule. -/

namespace Sys2Proof.Machine

open Sys2Proof

/-- WINSIZE (R330). -/
def execWinsize (s : State) : Out := .next (s.complete (winSize (s.opnd 0)) 0 (Config.freeLeak s))

/-- EXPBUFSIZE (R331). -/
def execExpbufsize (w : Win) (s : State) : Out :=
  let modBits := s.opnd 0
  let size := expBuf s.cfg (ceilDiv modBits s.cfg.W) w.toNat
  guardUB (1 ≤ modBits) .zeroLength <|
  guardUB (size < 2 ^ s.cfg.W) .badLength <|
  .next (s.complete size 0 (Config.freeLeak s))

/-- The operand values of one exponentiation, read and checked (R332): the base below m and the exponent below
2^bitsE. -/
def withExpOperands (s : State) (x : Ctx) (xb eb bitsE : Nat) (k : Nat → Nat → Out) : Out :=
  guardUB (1 ≤ bitsE) .zeroLength <|
  withVal s xb (ctxLen x) fun xv =>
  withVal s eb (ceilDiv bitsE s.cfg.W) fun ev =>
  guardUB (xv < ctxM s.cfg x) .notReduced <|
  guardUB (ev < 2 ^ bitsE) .excessBits <|
  k xv ev

/-- Y by the method `pow`, from the base X in the operand domain: encode, run, decode (R333, R335). -/
def expResult (c : Config) (x : Ctx) (dom : Domain) (pow : Nat → Nat → Nat → Nat) (xv : Nat) : Nat :=
  let m := ctxM c x
  let bigR := ctxR c x
  decodeResult dom m bigR (pow m bigR (encodeBase dom m bigR (ctxR2m c x) xv))

/-- The shape of the single exponentiations (R332): Y(n), X(n), E(nE) and a scratch region of EXPBUF(n, w) limbs,
alias class A1; `y x X e bitsE` is the value of Y and `fin` completes the command. -/
def expSingle (s : State) (c : Slot) (opc w : Nat) (y : Ctx → Nat → Nat → Nat → Nat) (fin : State → State) : Out :=
  let yb := s.opnd 0
  let xb := s.opnd 1
  let eb := s.opnd 2
  let bitsE := s.opnd 3
  let scratch := s.opnd 4
  withCtx s c opc fun x =>
  let n := ctxLen x
  let size := expBuf s.cfg n w
  checkRegions s .a1 [⟨xb, n⟩, ⟨eb, ceilDiv bitsE s.cfg.W⟩] [⟨yb, n⟩, ⟨scratch, size⟩] <|
  withExpOperands s x xb eb bitsE fun xv ev =>
  .next (fin ((s.memWrite yb n (y x xv ev bitsE)).havoc scratch size))

/-- The values of ARG0 .. ARG(k-1), all public (R332). -/
def publicArgs (s : State) (k : Nat) : List Word := s.latched.toList.take k

/-- The leakage of a constant-time single exponentiation (R332, R336, R338, 20_memory.md R82). -/
def expLeak (s : State) (i : Instr) (c : Slot) : Leak :=
  Config.ctTrace s.cfg ⟨i, publicArgs s 5, [((s.ctx c).modBits, (s.ctx c).modLen)]⟩

/-- EXPBIN (R335). -/
def execExpbin (c : Slot) (dom : Domain) (s : State) : Out :=
  expSingle s c 0x52 0
    (fun x xv ev bitsE => expResult s.cfg x dom (fun m bigR b => powBin m bigR (ctxRm s.cfg x) b ev bitsE) xv)
    (fun t => t.complete 0 0 (Config.freeLeak s))

/-- EXPBINCT (R336). -/
def execExpbinct (c : Slot) (dom : Domain) (s : State) : Out :=
  expSingle s c 0x53 0
    (fun x xv ev bitsE => expResult s.cfg x dom (fun m bigR b => powBinCt m bigR (ctxRm s.cfg x) b ev bitsE) xv)
    (fun t => t.complete 0 0 (expLeak s (.expbinct c dom) c))

/-- EXPWIN (R337). -/
def execExpwin (c : Slot) (dom : Domain) (w : Win) (s : State) : Out :=
  expSingle s c 0x54 w.toNat
    (fun x xv ev bitsE =>
      expResult s.cfg x dom (fun m bigR b => powWin m bigR (ctxRm s.cfg x) b ev bitsE w.toNat) xv)
    (fun t => t.complete 0 0 (Config.freeLeak s))

/-- EXPWINCT (R338). -/
def execExpwinct (c : Slot) (dom : Domain) (w : Win) (s : State) : Out :=
  expSingle s c 0x55 w.toNat
    (fun x xv ev bitsE =>
      expResult s.cfg x dom (fun m bigR b => powWinCt m bigR (ctxRm s.cfg x) b ev bitsE w.toNat) xv)
    (fun t => t.complete 0 0 (expLeak s (.expwinct c dom w) c))

/-- The value of one half of DUALEXPWINCT: the value of R333, computed as EXPWINCT does (R339). -/
def dualValue (c : Config) (x : Ctx) (dom : Domain) (w xv ev bitsE : Nat) : Nat :=
  expResult c x dom (fun m bigR b => powWinCt m bigR (ctxRm c x) b ev bitsE w) xv

/-- The leakage of DUALEXPWINCT, over the public inputs of both halves (R339). -/
def dualLeak (s : State) (i : Instr) : Leak :=
  Config.ctTrace s.cfg
    ⟨i, publicArgs s 9, [(s.ctx0.modBits, s.ctx0.modLen), (s.ctx1.modBits, s.ctx1.modLen)]⟩

/-- DUALEXPWINCT (R339). -/
def execDualexpwinct (dom : Domain) (w : Win) (s : State) : Out :=
  let y0 := s.opnd 0
  let x0 := s.opnd 1
  let e0 := s.opnd 2
  let bits0 := s.opnd 3
  let y1 := s.opnd 4
  let x1 := s.opnd 5
  let e1 := s.opnd 6
  let bits1 := s.opnd 7
  let scratch := s.opnd 8
  withCtx s .c0 0x56 fun p =>
  withCtx s .c1 0x56 fun q =>
  guardUB (p.modLen = q.modLen) .lengthMismatch <|
  let n := ctxLen p
  let size := 2 * expBuf s.cfg n w.toNat
  checkRegions s .none
    [⟨x0, n⟩, ⟨e0, ceilDiv bits0 s.cfg.W⟩, ⟨x1, n⟩, ⟨e1, ceilDiv bits1 s.cfg.W⟩]
    [⟨y0, n⟩, ⟨y1, n⟩, ⟨scratch, size⟩] <|
  withExpOperands s p x0 e0 bits0 fun xv0 ev0 =>
  withExpOperands s q x1 e1 bits1 fun xv1 ev1 =>
  .next ((((s.memWrite y0 n (dualValue s.cfg p dom w.toNat xv0 ev0 bits0)).memWrite y1 n
      (dualValue s.cfg q dom w.toNat xv1 ev1 bits1)).havoc scratch size).complete 0 0
    (dualLeak s (.dualexpwinct dom w)))

end Sys2Proof.Machine
end

