-- ==== Sys2Proof/Machine/Montgomery.lean ====
section
/-! DEFINITION. The Montgomery engine: construction and constants (42_montgomery.md R230 to R234) and the method table
(R235 to R246). -/

namespace Sys2Proof.Machine

open Sys2Proof

/-- MONTFACTOR (R234). -/
def execMontfactor (s : State) : Out :=
  guardUB (s.opnd 0 % 2 = 1) .evenModulus <|
  .next (s.complete (negInv (s.opnd 0) (2 ^ s.cfg.W)) 0 (Config.freeLeak s))

/-- A checked error of ENGINIT: the slot is invalid and its other fields are unspecified (60_exceptions.md R381). -/
def enginitError (s : State) (c : Slot) (e : ErrCode) : Out :=
  .next ((s.setCtx c (freeCtx s.cfg false (slotIndex c) s.draws)).completeErr e (Config.freeLeak s))

/-- A value as MAX_LIMBS limbs, zero-extended: how the context arrays hold it (R232, 10_state.md R36). -/
def ctxLimbs (c : Config) (v : Nat) : List Word := (radixDigits c.W c.maxLimbs v).map (BitVec.ofNat 64)

/-- The context ENGINIT constructs from modulus m of n limbs (R232). -/
def newCtx (s : State) (c : Slot) (m n bitSize poolCap : Nat) : Ctx :=
  let rm := 2 ^ (s.cfg.W * n) % m
  { valid    := true
    modBits  := wordOf s.cfg bitSize
    modLen   := wordOf s.cfg n
    modulus  := ctxLimbs s.cfg m
    k0       := wordOf s.cfg (negInv m (2 ^ s.cfg.W))
    montR    := ctxLimbs s.cfg rm
    montR2   := ctxLimbs s.cfg (rm * rm % m)
    poolCap  := wordOf s.cfg poolCap
    poolUsed := 0
    backend  := Config.freeBackend s.draws (slotIndex c) }

/-- ENGINIT (R232), its checks in the order the rule gives; they replace the context checks of the skeleton. -/
def execEnginit (c : Slot) (s : State) : Out :=
  let base := s.opnd 0
  let bitSize := s.opnd 1
  let poolCap := s.opnd 2
  let n := ceilDiv bitSize s.cfg.W
  if bitSize < 1 ∨ s.cfg.maxModBits < bitSize then enginitError s c .invalidLength
  else if poolCap < 1 then enginitError s c .insufficientPool
  else
    guardUB (Region.inBounds s.cfg ⟨base, n⟩) .outOfBounds <|
    withVal s base n fun m =>
    if m % 2 = 0 then enginitError s c .badModulus
    else
      guardUB (m < 2 ^ bitSize) .modulusTooWide <|
      .next ((s.setCtx c (newCtx s c m n bitSize poolCap)).complete n 0 (Config.freeLeak s))

/-- What ENGRD copies for a selector: the limb count and the value (R233). -/
def engrdSource (c : Config) (x : Ctx) (sel : Nat) : Nat × Nat :=
  if sel = 0 then (ctxLen x, ctxM c x)
  else if sel = 1 then (ctxLen x, ctxRm c x)
  else if sel = 2 then (ctxLen x, ctxR2m c x)
  else (1, x.k0.toNat)

/-- ENGRD (R233). -/
def execEngrd (c : Slot) (s : State) : Out :=
  let r := s.opnd 0
  let sel := s.opnd 1
  withCtx s c 0x22 fun x =>
  guardUB (sel ≤ 3) .badSelector <|
  let src := engrdSource s.cfg x sel
  checkRegions s .none [] [⟨r, src.1⟩] <|
  .next ((s.memWrite r src.1 src.2).complete src.1 0 (Config.freeLeak s))

/-- The shape of the two-operand methods: R(n) from A(n) and B(n), both below m, alias class A1 (R230). -/
def methodBinary (s : State) (c : Slot) (opc : Nat) (f : Ctx → Nat → Nat → Nat) : Out :=
  let r := s.opnd 0
  let a := s.opnd 1
  let b := s.opnd 2
  withCtx s c opc fun x =>
  let n := ctxLen x
  checkRegions s .a1 [⟨a, n⟩, ⟨b, n⟩] [⟨r, n⟩] <|
  withVal s a n fun av =>
  withVal s b n fun bv =>
  guardUB (av < ctxM s.cfg x ∧ bv < ctxM s.cfg x) .notReduced <|
  .next ((s.memWrite r n (f x av bv)).complete 0 0 (Config.freeLeak s))

/-- The shape of the one-operand methods: R(n) from A(n), below m, alias class A1 (R230). -/
def methodUnary (s : State) (c : Slot) (opc : Nat) (f : Ctx → Nat → Nat) : Out :=
  let r := s.opnd 0
  let a := s.opnd 1
  withCtx s c opc fun x =>
  let n := ctxLen x
  checkRegions s .a1 [⟨a, n⟩] [⟨r, n⟩] <|
  withVal s a n fun av =>
  guardUB (av < ctxM s.cfg x) .notReduced <|
  .next ((s.memWrite r n (f x av)).complete 0 0 (Config.freeLeak s))

/-- MADD (R235). -/
def execMadd (c : Slot) (s : State) : Out :=
  methodBinary s c 0x28 (fun x a b => maddVal (ctxM s.cfg x) a b)

/-- MSUB (R236). -/
def execMsub (c : Slot) (s : State) : Out :=
  methodBinary s c 0x29 (fun x a b => msubVal (ctxM s.cfg x) a b)

/-- MNEG (R237). -/
def execMneg (c : Slot) (s : State) : Out :=
  methodUnary s c 0x2A (fun x a => mnegVal (ctxM s.cfg x) a)

/-- MDIV2 (R238). -/
def execMdiv2 (c : Slot) (s : State) : Out :=
  methodUnary s c 0x2B (fun x a => mdiv2Val (ctxM s.cfg x) a)

/-- MMUL2 (R239). -/
def execMmul2 (c : Slot) (s : State) : Out :=
  methodUnary s c 0x2C (fun x a => (a + a) % ctxM s.cfg x)

/-- MMUL3 (R240). -/
def execMmul3 (c : Slot) (s : State) : Out :=
  methodUnary s c 0x2D (fun x a => (a + (a + a) % ctxM s.cfg x) % ctxM s.cfg x)

/-- MMUL (R242). -/
def execMmul (c : Slot) (s : State) : Out :=
  methodBinary s c 0x2E (fun x a b => redc (ctxM s.cfg x) (ctxR s.cfg x) (a * b))

/-- MSQR (R243). -/
def execMsqr (c : Slot) (s : State) : Out :=
  methodUnary s c 0x2F (fun x a => redc (ctxM s.cfg x) (ctxR s.cfg x) (a * a))

/-- MENC (R244). -/
def execMenc (c : Slot) (s : State) : Out :=
  methodUnary s c 0x30 (fun x a => redc (ctxM s.cfg x) (ctxR s.cfg x) (a * ctxR2m s.cfg x))

/-- MDEC (R245). -/
def execMdec (c : Slot) (s : State) : Out :=
  methodUnary s c 0x31 (fun x a => redc (ctxM s.cfg x) (ctxR s.cfg x) a)

/-- MRED (R246): a double-length operand below m·R, alias class NONE. -/
def execMred (c : Slot) (s : State) : Out :=
  let r := s.opnd 0
  let t := s.opnd 1
  withCtx s c 0x32 fun x =>
  let n := ctxLen x
  checkRegions s .none [⟨t, 2 * n⟩] [⟨r, n⟩] <|
  withVal s t (2 * n) fun tv =>
  guardUB (tv < ctxM s.cfg x * ctxR s.cfg x) .notReduced <|
  .next ((s.memWrite r n (redc (ctxM s.cfg x) (ctxR s.cfg x) tv)).complete 0 0 (Config.freeLeak s))

end Sys2Proof.Machine
end

