-- ==== Sys2Proof/Machine/Octet.lean ====
section
/-! DEFINITION. Octet-string conversion and NOP (46_octet_misc.md R360 to R362). -/

namespace Sys2Proof.Machine

open Sys2Proof

/-- NOP (R362): nothing but STATUS, RES0 and RES1 changes. -/
def execNop (s : State) : Out := .next (s.complete 0 0 (Config.freeLeak s))

/-- The byte region lies inside LM (20_memory.md R75). -/
def bytesInBounds (c : Config) (b len : Nat) : Bool := decide (b + len ≤ c.lmLimbs * c.bpl)

/-- OS2BN (R360). -/
def execOs2bn (s : State) : Out :=
  let r := s.opnd 0
  let n := s.opnd 1
  let src := s.opnd 2
  let len := s.opnd 3
  guardUB (bytesInBounds s.cfg src len ∧ Region.inBounds s.cfg ⟨r, n⟩) .outOfBounds <|
  guardUB (aliasOk .none [limbCover s.cfg src len] [⟨r, n⟩]) .overlap <|
  guardUB (1 ≤ n) .zeroLength <|
  guardUB (ceilDiv len s.cfg.bpl ≤ n) .badLength <|
  needUB (s.octetsRead src len) .uninitRead fun v =>
  .next ((s.memWrite r n v).complete (lenOf s.cfg.W v) 0 (Config.freeLeak s))

/-- BN2OS (R361): every UB condition is evaluated before TOO_SMALL (60_exceptions.md R385). -/
def execBn2os (s : State) : Out :=
  let dst := s.opnd 0
  let outLen := s.opnd 1
  let a := s.opnd 2
  let n := s.opnd 3
  guardUB (bytesInBounds s.cfg dst outLen ∧ Region.inBounds s.cfg ⟨a, n⟩) .outOfBounds <|
  guardUB (aliasOk .none [⟨a, n⟩] [limbCover s.cfg dst outLen]) .overlap <|
  guardUB (1 ≤ n) .zeroLength <|
  withVal s a n fun v =>
  if outLen < minBytes v then .next (s.completeErr .tooSmall (Config.freeLeak s))
  else .next ((s.octetsWrite dst outLen v).complete (minBytes v) 0 (Config.freeLeak s))

end Sys2Proof.Machine
end

