-- ==== Sys2Proof/Machine/Redundant.lean ====
section
/-! DEFINITION. The redundant-radix converters and the AMM units (43_redundant.md R280 to R287). -/

namespace Sys2Proof.Machine

open Sys2Proof

/-- R2RED (R281). -/
def execR2red (dg : DigitSize) (s : State) : Out :=
  let d := digitBits dg
  let out := s.opnd 0
  let outLen := s.opnd 1
  let inp := s.opnd 2
  let inBits := s.opnd 3
  let nIn := ceilDiv inBits s.cfg.W
  checkRegions s .none [⟨inp, nIn⟩] [⟨out, outLen⟩] <|
  guardUB (1 ≤ inBits ∧ 1 ≤ outLen) .zeroLength <|
  guardUB (inBits ≤ outLen * d) .badLength <|
  withVal s inp nIn fun x =>
  guardUB (x < 2 ^ inBits) .excessBits <|
  .next ((s.digWrite d out outLen x).complete 0 0 (Config.freeLeak s))

/-- RED2R (R282). -/
def execRed2r (dg : DigitSize) (s : State) : Out :=
  let d := digitBits dg
  let out := s.opnd 0
  let inp := s.opnd 1
  let outBits := s.opnd 2
  let nD := ceilDiv outBits d
  let nOut := ceilDiv outBits s.cfg.W
  checkRegions s .none [⟨inp, nD⟩] [⟨out, nOut⟩] <|
  guardUB (1 ≤ outBits) .zeroLength <|
  withDigits s d inp nD fun y =>
  guardUB (y < 2 ^ outBits) .excessBits <|
  .next ((s.memWrite out nOut y).complete 0 0 (Config.freeLeak s))

/-- The preconditions of AMM for one quadruple (a, b, m, k0) of `len` digits, and its value (R284). -/
def withAmm (s : State) (dg : DigitSize) (a b m k0 len : Nat) (k : Nat → Out) : Out :=
  let d := digitBits dg
  guardUB (1 ≤ len) .zeroLength <|
  guardUB (len ≤ maxDigits s.cfg dg) .badLength <|
  withDigits s d a len fun av =>
  withDigits s d b len fun bv =>
  withDigits s d m len fun mv =>
  let k0d := k0 % 2 ^ d
  guardUB (mv % 2 = 1) .evenModulus <|
  guardUB (k0d * mv % 2 ^ d = 2 ^ d - 1) .badFactor <|
  guardUB (4 * mv ≤ 2 ^ (d * len)) .badLength <|
  guardUB (av < 2 * mv ∧ bv < 2 * mv) .notReduced <|
  k (ammf d av bv mv k0d len)

/-- AMM (R284). -/
def execAmm (dg : DigitSize) (s : State) : Out :=
  let out := s.opnd 0
  let a := s.opnd 1
  let b := s.opnd 2
  let m := s.opnd 3
  let k0 := s.opnd 4
  let len := s.opnd 5
  checkRegions s .none [⟨a, len⟩, ⟨b, len⟩, ⟨m, len⟩] [⟨out, len⟩] <|
  withAmm s dg a b m k0 len fun v =>
  .next ((s.digWrite (digitBits dg) out len v).complete 0 0 (Config.freeLeak s))

/-- AMS (R285): AMM with b = a. -/
def execAms (dg : DigitSize) (s : State) : Out :=
  let out := s.opnd 0
  let a := s.opnd 1
  let m := s.opnd 2
  let k0 := s.opnd 3
  let len := s.opnd 4
  checkRegions s .none [⟨a, len⟩, ⟨m, len⟩] [⟨out, len⟩] <|
  withAmm s dg a a m k0 len fun v =>
  .next ((s.digWrite (digitBits dg) out len v).complete 0 0 (Config.freeLeak s))

/-- AMMDUAL (R286): both values from the inputs as they stand at the start, alias class NONE over all regions. -/
def execAmmdual (dg : DigitSize) (s : State) : Out :=
  let d := digitBits dg
  let out0 := s.opnd 0
  let a0 := s.opnd 1
  let b0 := s.opnd 2
  let m0 := s.opnd 3
  let k00 := s.opnd 4
  let out1 := s.opnd 5
  let a1 := s.opnd 6
  let b1 := s.opnd 7
  let m1 := s.opnd 8
  let k01 := s.opnd 9
  let len := s.opnd 10
  checkRegions s .none [⟨a0, len⟩, ⟨b0, len⟩, ⟨m0, len⟩, ⟨a1, len⟩, ⟨b1, len⟩, ⟨m1, len⟩]
    [⟨out0, len⟩, ⟨out1, len⟩] <|
  withAmm s dg a0 b0 m0 k00 len fun v0 =>
  withAmm s dg a1 b1 m1 k01 len fun v1 =>
  .next (((s.digWrite d out0 len v0).digWrite d out1 len v1).complete 0 0 (Config.freeLeak s))

end Sys2Proof.Machine
end

