-- ==== Sys2Proof/Machine/Scramble.lean ====
section
/-! DEFINITION. The scramble table (44_scramble.md R310 to R314): limb j of entry k is LM[table + j·N + k], N = 2^w. -/

namespace Sys2Proof.Machine

open Sys2Proof

/-- SCRSIZE (R310). -/
def execScrsize (w : Win) (s : State) : Out :=
  let n := s.opnd 0
  guardUB (1 ≤ n) .zeroLength <|
  guardUB (scrSize s.cfg n w.toNat < 2 ^ s.cfg.W) .badLength <|
  .next (s.complete (scrSize s.cfg n w.toNat) 0 (Config.freeLeak s))

/-- SCRPUT (R312): only entry idx of the table is written. -/
def execScrput (w : Win) (s : State) : Out :=
  let bigN := 2 ^ w.toNat
  let table := s.opnd 0
  let idx := s.opnd 1
  let value := s.opnd 2
  let n := s.opnd 3
  checkRegions s .none [⟨value, n⟩] [⟨table, bigN * n⟩] <|
  guardUB (1 ≤ n) .zeroLength <|
  guardUB (idx < bigN) .badIndex <|
  withLimbs s 1 value n fun xs =>
  .next ((s.setLimbs bigN (table + idx) xs).complete 0 0 (Config.freeLeak s))

/-- SCRGET (R313): only entry idx of the table is read. -/
def execScrget (w : Win) (s : State) : Out :=
  let bigN := 2 ^ w.toNat
  let value := s.opnd 0
  let n := s.opnd 1
  let table := s.opnd 2
  let idx := s.opnd 3
  checkRegions s .none [⟨table, bigN * n⟩] [⟨value, n⟩] <|
  guardUB (1 ≤ n) .zeroLength <|
  guardUB (idx < bigN) .badIndex <|
  withLimbs s bigN (table + idx) n fun xs =>
  .next ((s.setLimbs 1 value xs).complete 0 0 (Config.freeLeak s))

/-- mask[k] of the constant-time scan (R314). -/
def scanMask (W idx k : Nat) : Nat := if k = idx then 2 ^ W - 1 else 0

/-- One row of the constant-time scan: the OR of every entry's limb under its mask, from entry k up (R314). -/
def scanRow (W idx : Nat) : Nat → List Nat → Nat
  | _, [] => 0
  | k, x :: xs => (x &&& scanMask W idx k) ||| scanRow W idx (k + 1) xs

/-- The scan of `n` rows of N limbs each (R314). -/
def scanTable (W idx bigN : Nat) : Nat → List Nat → List Nat
  | 0, _ => []
  | n + 1, l => scanRow W idx 0 (l.take bigN) :: scanTable W idx bigN n (l.drop bigN)

/-- The reads of one row of the scan: LM[base], LM[base + 1], ... (R314). -/
def rowReads : Nat → Nat → List Access
  | _, 0 => []
  | base, k + 1 => .read base :: rowReads (base + 1) k

/-- The trace of SCRGETCT for rows j .. j + n - 1: a row's reads, then the write of value + j (R314). -/
def scrgetctTrace (bigN table value : Nat) : Nat → Nat → List Access
  | _, 0 => []
  | j, n + 1 => rowReads (table + j * bigN) bigN ++ .write (value + j) :: scrgetctTrace bigN table value (j + 1) n

/-- The leakage of SCRGETCT: the exact trace, and a duration that is a function of (n, w, table, value) (R314). -/
def scrgetctLeak (c : Config) (n w table value : Nat) : Leak :=
  ⟨scrgetctTrace (2 ^ w) table value 0 n, Config.scrgetctDuration c n w table value⟩

/-- SCRGETCT (R314): every limb of the table is read. -/
def execScrgetct (w : Win) (s : State) : Out :=
  let bigN := 2 ^ w.toNat
  let value := s.opnd 0
  let n := s.opnd 1
  let table := s.opnd 2
  let idx := s.opnd 3
  checkRegions s .none [⟨table, bigN * n⟩] [⟨value, n⟩] <|
  guardUB (1 ≤ n) .zeroLength <|
  guardUB (idx < bigN) .badIndex <|
  withLimbs s 1 table (bigN * n) fun l =>
  .next ((s.setLimbs 1 value (scanTable s.cfg.W idx bigN n l)).complete 0 0
    (scrgetctLeak s.cfg n w.toNat table value))

end Sys2Proof.Machine
end

