-- ==== Sys2Proof/Machine/Dispatch.lean ====
section
/-! DEFINITION. The dispatcher: one arm per constructor of `Instr`, each a call of that command's meaning. -/

namespace Sys2Proof.Machine

open Sys2Proof

def exec (i : Instr) (s : State) : Host.Outcome State Fault Refusal :=
  match i with
  | .nop => Sys2Proof.Machine.execNop s
  | .add => Sys2Proof.Machine.execAdd s
  | .sub => Sys2Proof.Machine.execSub s
  | .inc => Sys2Proof.Machine.execInc s
  | .dec => Sys2Proof.Machine.execDec s
  | .muld => Sys2Proof.Machine.execMuld s
  | .submuld => Sys2Proof.Machine.execSubmuld s
  | .mul => Sys2Proof.Machine.execMul s
  | .sqr => Sys2Proof.Machine.execSqr s
  | .nlz => Sys2Proof.Machine.execNlz s
  | .ntz => Sys2Proof.Machine.execNtz s
  | .lsr => Sys2Proof.Machine.execLsr s
  | .cmp => Sys2Proof.Machine.execCmp s
  | .cmpct => Sys2Proof.Machine.execCmpct s
  | .fix => Sys2Proof.Machine.execFix s
  | .maskcopy => Sys2Proof.Machine.execMaskcopy s
  | .div => Sys2Proof.Machine.execDiv s
  | .mod => Sys2Proof.Machine.execMod s
  | .gcd => Sys2Proof.Machine.execGcd s
  | .modinv => Sys2Proof.Machine.execModinv s
  | .montfactor => Sys2Proof.Machine.execMontfactor s
  | .enginit c => Sys2Proof.Machine.execEnginit c s
  | .engrd c => Sys2Proof.Machine.execEngrd c s
  | .madd c => Sys2Proof.Machine.execMadd c s
  | .msub c => Sys2Proof.Machine.execMsub c s
  | .mneg c => Sys2Proof.Machine.execMneg c s
  | .mdiv2 c => Sys2Proof.Machine.execMdiv2 c s
  | .mmul2 c => Sys2Proof.Machine.execMmul2 c s
  | .mmul3 c => Sys2Proof.Machine.execMmul3 c s
  | .mmul c => Sys2Proof.Machine.execMmul c s
  | .msqr c => Sys2Proof.Machine.execMsqr c s
  | .menc c => Sys2Proof.Machine.execMenc c s
  | .mdec c => Sys2Proof.Machine.execMdec c s
  | .mred c => Sys2Proof.Machine.execMred c s
  | .r2red d => Sys2Proof.Machine.execR2red d s
  | .red2r d => Sys2Proof.Machine.execRed2r d s
  | .amm d => Sys2Proof.Machine.execAmm d s
  | .ams d => Sys2Proof.Machine.execAms d s
  | .ammdual d => Sys2Proof.Machine.execAmmdual d s
  | .scrsize w => Sys2Proof.Machine.execScrsize w s
  | .scrput w => Sys2Proof.Machine.execScrput w s
  | .scrget w => Sys2Proof.Machine.execScrget w s
  | .scrgetct w => Sys2Proof.Machine.execScrgetct w s
  | .winsize => Sys2Proof.Machine.execWinsize s
  | .expbufsize w => Sys2Proof.Machine.execExpbufsize w s
  | .expbin c dom => Sys2Proof.Machine.execExpbin c dom s
  | .expbinct c dom => Sys2Proof.Machine.execExpbinct c dom s
  | .expwin c dom w => Sys2Proof.Machine.execExpwin c dom w s
  | .expwinct c dom w => Sys2Proof.Machine.execExpwinct c dom w s
  | .dualexpwinct dom w => Sys2Proof.Machine.execDualexpwinct dom w s
  | .os2bn => Sys2Proof.Machine.execOs2bn s
  | .bn2os => Sys2Proof.Machine.execBn2os s

end Sys2Proof.Machine
end

