-- ==== Sys2Proof/Machine/Host.lean ====
section
/-! DEFINITION. The host's accesses: the register slots (10_state.md R31 to R37, R47) and LM (20_memory.md R70, R74),
by engine phase as 60_exceptions.md R395 gives them. -/

namespace Sys2Proof.Machine

open Sys2Proof

/-- The numbers of ERR (60_exceptions.md R381). -/
def errNumber : ErrCode → Nat
  | .none => 0
  | .invalidLength => 1
  | .insufficientPool => 2
  | .badModulus => 3
  | .tooSmall => 4
  | .illegal => 5

/-- STATUS as a slot value: BUSY in bit 0, DONE in bit 1, ERR in bits 7:4, the rest 0 (10_state.md R33). -/
def statusWord (st : Status) : Nat := st.busy.toNat + 2 * st.done.toNat + 16 * errNumber st.err

/-- The host's read returns the value `v`. -/
def State.hostGets (s : State) (v : Word) : State := { s with hostData := v }

/-- The host's read returns an arbitrary value (00_scope.md R12, a draw). -/
def State.hostDraws (s : State) : State :=
  { s with hostData := drawWord s.cfg s.draws 0, draws := s.draws + 1 }

/-- What a register slot is (10_state.md R31). -/
inductive SlotKind where
  | cmd | status | res0 | res1
  | arg (i : Fin 16)
  | ctxField (c : Slot) (k : Nat)  -- k = 0 .. 5: VALID, MOD_BITS, MOD_LEN, K0, POOL_CAP, POOL_USED
  | reserved
  deriving DecidableEq, Repr

/-- The register map of 10_state.md R31. -/
def slotKind (n : Nat) : SlotKind :=
  if n = 0x00 then .cmd
  else if n = 0x01 then .status
  else if n = 0x02 then .res0
  else if n = 0x03 then .res1
  else if n < 0x10 then .reserved
  else if n < 0x20 then .arg (Fin.ofNat 16 (n - 0x10))
  else if n < 0x26 then .ctxField .c0 (n - 0x20)
  else if n < 0x28 then .reserved
  else if n < 0x2E then .ctxField .c1 (n - 0x28)
  else .reserved

/-- The scalar field k of a context (10_state.md R37). -/
def ctxField (x : Ctx) (k : Nat) : Word :=
  if k = 0 then BitVec.ofNat 64 x.valid.toNat
  else if k = 1 then x.modBits
  else if k = 2 then x.modLen
  else if k = 3 then x.k0
  else if k = 4 then x.poolCap
  else x.poolUsed

/-- A host read of a context slot while idle (10_state.md R37): while VALID = 0 only VALID has a defined value, but
directly after reset the others read their reset value (notes/assumptions/12.md). -/
def hostReadCtx (s : State) (c : Slot) (k : Nat) : State :=
  if k = 0 ∨ (s.ctx c).valid = true ∨ s.fresh = true then s.hostGets (ctxField (s.ctx c) k) else s.hostDraws

/-- A host read of a register slot (60_exceptions.md R395). -/
def hostReadReg (s : State) (slot : Fin 64) : State :=
  match s.phase with
  | .idle =>
    match slotKind slot.val with
    | .cmd => s.hostGets (s.cmd.setWidth 64)
    | .status => s.hostGets (BitVec.ofNat 64 (statusWord s.status))
    | .res0 => s.hostGets s.res0
    | .res1 => s.hostGets s.res1
    | .arg i => s.hostGets (s.args.get i)
    | .ctxField c k => hostReadCtx s c k
    | .reserved => s.hostDraws
  | .pending _ _ =>
    match slotKind slot.val with
    | .cmd => s.hostGets (s.cmd.setWidth 64)
    | .status => s.hostGets (BitVec.ofNat 64 (statusWord s.status))
    | .arg i => s.hostGets (s.args.get i)
    | .res0 => s.hostDraws
    | .res1 => s.hostDraws
    | .ctxField _ _ => s.hostDraws
    | .reserved => s.hostDraws
  | .faulted _ => s.hostDraws

/-- A host write of a register slot (60_exceptions.md R395); the slot takes the low W bits of the value (10_state.md
R31), CMD its low 32 (R32). -/
def hostWriteReg (s : State) (slot : Fin 64) (v : Word) : State :=
  match s.phase with
  | .idle =>
    match slotKind slot.val with
    | .cmd => s.issue (v.setWidth 32)
    | .arg i => { s with args := s.args.set i.val (wordOf s.cfg v.toNat) i.isLt }
    | .status => s
    | .res0 => s
    | .res1 => s
    | .ctxField _ _ => s
    | .reserved => s
  | .pending _ _ =>
    match slotKind slot.val with
    | .cmd => s.enterFaulted .hostBusyWrite
    | .arg _ => s.enterFaulted .hostBusyWrite
    | .status => s
    | .res0 => s
    | .res1 => s
    | .ctxField _ _ => s
    | .reserved => s
  | .faulted _ => s

/-- A host read of an LM limb (60_exceptions.md R395, 20_memory.md R74): a limb with an unwritten byte is a draw, a
limb index outside LM is UB (20_memory.md R88, notes/assumptions/14.md). -/
def hostReadLm (s : State) (a : Nat) : State :=
  match s.phase with
  | .idle =>
    if a < s.cfg.lmLimbs then
      match s.limbAt a with
      | some v => s.hostGets (BitVec.ofNat 64 v)
      | none => s.hostDraws
    else s.enterFaulted .outOfBounds
  | .pending _ _ => if a < s.cfg.lmLimbs then s.hostDraws else s.enterFaulted .outOfBounds
  | .faulted _ => s.hostDraws

/-- A host write of an LM limb (60_exceptions.md R395). -/
def hostWriteLm (s : State) (a : Nat) (v : Word) : State :=
  match s.phase with
  | .idle => if a < s.cfg.lmLimbs then s.setLimb a v.toNat else s.enterFaulted .outOfBounds
  | .pending _ _ => s.enterFaulted .hostBusyWrite
  | .faulted _ => s

/-- One host access (60_exceptions.md R395). -/
def hostAccess (s : State) (h : HostAccess) : State :=
  match h with
  | .readReg slot => hostReadReg s slot
  | .writeReg slot v => hostWriteReg s slot v
  | .readLm a => hostReadLm s a
  | .writeLm a v => hostWriteLm s a v
  | .reset => s.applyReset

end Sys2Proof.Machine
end

