-- ==== Sys2Proof/Machine/Engine.lean ====
section
/-! DEFINITION. The engine's turn (30_encoding.md R110, 10_state.md R42). -/

namespace Sys2Proof.Machine

open Sys2Proof

/-- How a meaning's end becomes the engine's: UB(reason) moves the engine to Faulted(reason) (60_exceptions.md R382,
notes/assumptions/9.md). -/
def settle (s : State) (o : Out) : Out :=
  match o with
  | .next t => .next t
  | .fault r => .next (s.enterFaulted r)
  | .refused r => .refused r

/-- The engine's step: from Pending it executes the command, an illegal word completing with Err(ILLEGAL) (R107,
R110); in Idle it has nothing to do; in Faulted it has no step (60_exceptions.md R382). -/
def engineStep (s : State) : Out :=
  match s.phase with
  | .idle => .next s
  | .faulted r => .fault r
  | .pending w _ =>
    match decode s.cfg.width w with
    | .illegal _ => .next (s.completeErr .illegal (Config.freeLeak s))
    | .ok i => settle s (exec i s)

/-- A command word that stands pending with the ARG registers as they are, as a host write to CMD leaves it (10_state.md
R32), the next turn being the engine's. -/
def State.withCommand (s : State) (w : BitVec 32) : State :=
  { s.issue w with schedule := .engine :: s.schedule }

end Sys2Proof.Machine
end

