-- ==== Sys2Proof/Safety.lean ====
section
/-! DEFINITION. The terms statements are made in: how an outcome ends, what a command leaves unchanged, and the
invariants of the state. -/

namespace Sys2Proof.Machine

open Sys2Proof

/-! ### Outcomes -/

/-- A caller's contract: the conditions a rule requires, each with the reason of undefined behaviour it names for a
condition that fails (00_scope.md R13, 60_exceptions.md R383). -/
abbrev Contract := List (Prop × Fault)

/-- Every condition of the contract holds. -/
def Contract.Holds (c : Contract) : Prop := ∀ q ∈ c, q.1

/-- When the whole contract holds the outcome is a next state that meets `post`; otherwise it is a fault, and its reason
is that of a condition that fails. When several fail, no property may depend on which one is recorded (60_exceptions.md
R380, R382, R385). -/
def CompletesUnder (c : Contract) (o : Out) (post : State → Prop) : Prop :=
  (c.Holds → ∃ t, o = .next t ∧ post t) ∧ (¬ c.Holds → ∃ q ∈ c, ¬ q.1 ∧ o = .fault q.2)

/-- The command has completed without an error, with these results (10_state.md R33, R34, R42). -/
def Done (t : State) (r0 r1 : Nat) : Prop :=
  t.status = ⟨false, true, .none⟩ ∧ t.phase = .idle ∧ t.res0.toNat = r0 ∧ t.res1.toNat = r1

/-- The command has completed with a checked error (60_exceptions.md R380). -/
def Failed (t : State) (e : ErrCode) : Prop :=
  t.status = ⟨false, true, e⟩ ∧ t.phase = .idle ∧ t.res0.toNat = 0 ∧ t.res1.toNat = 0

/-- The next turn is the engine's, and it begins in `u`: an engine event comes next, or no event is left
(notes/assumptions/7.md). -/
def EngineTurn (s u : State) : Prop :=
  s.schedule = [] ∧ u = s ∨ ∃ rest, s.schedule = .engine :: rest ∧ u = { s with schedule := rest }

/-! ### Frames -/

/-- Every byte of LM outside the regions reads as before, written mark included. -/
def KeepsLmOutside (s t : State) (regions : List Region) : Prop :=
  ∀ b, (∀ q ∈ regions, ¬ (q.base * s.cfg.bpl ≤ b ∧ b < (q.base + q.count) * s.cfg.bpl)) →
    Memory.byteAt t.lm b = Memory.byteAt s.lm b

/-- Every register but STATUS, RES0 and RES1 is unchanged, the contexts aside. -/
def KeepsRegisters (s t : State) : Prop :=
  t.cfg = s.cfg ∧ t.cmd = s.cmd ∧ t.args = s.args ∧ t.hostData = s.hostData ∧ t.schedule = s.schedule

/-- What a command that stores to `regions` and to no context leaves unchanged. -/
def Frame (s t : State) (regions : List Region) : Prop :=
  KeepsRegisters s t ∧ t.ctx0 = s.ctx0 ∧ t.ctx1 = s.ctx1 ∧ KeepsLmOutside s t regions

/-! ### Operands -/

/-- Every limb of the region is written (20_memory.md R74). -/
def Written (s : State) (a n : Nat) : Prop := (s.memRead a n).isSome

/-- The value of a written region (00_scope.md R11). -/
def valAt (s : State) (a n : Nat) : Nat := (s.memRead a n).getD 0

/-- The region holds `n` normalized digits of `d` bits with value `v` (00_scope.md R11, 43_redundant.md R280). -/
def DigitsAt (s : State) (d a n v : Nat) : Prop :=
  ∃ l, s.limbsAt 1 a n = some l ∧ (∀ x ∈ l, x < 2 ^ d) ∧ radixVal d l = v

/-- The value of a written digit region of `d`-bit digits (00_scope.md R11). -/
def dvalAt (s : State) (d a n : Nat) : Nat := ((s.limbsAt 1 a n).map (radixVal d)).getD 0

/-- Every digit of a written region is normalized (43_redundant.md R280). -/
def Normalized (s : State) (d a n : Nat) : Prop := ∀ l, s.limbsAt 1 a n = some l → ∀ x ∈ l, x < 2 ^ d

/-- Every operand value is a W-bit word (30_encoding.md R104). -/
def OperandsFit (s : State) : Prop := ∀ i, s.opnd i < 2 ^ s.cfg.W

/-- `k` is the logical length of `v` in limbs (41_division.md R200). -/
def IsLength (W v k : Nat) : Prop :=
  1 ≤ k ∧ v < 2 ^ (W * k) ∧ (v ≠ 0 → 2 ^ (W * (k - 1)) ≤ v) ∧ (v = 0 → k = 1)

/-- The value of an octet string, its octets taken from the lowest address up (46_octet_misc.md R360, 20_memory.md
R73). -/
def octetSum (s : State) (b len : Nat) : Nat :=
  (List.range len).foldl (fun v i => v * 256 + ((Memory.byteAt s.lm (b + i)).getD 0).toNat) 0

/-- Every octet of the string is written (20_memory.md R74). -/
def OctetsWritten (s : State) (b len : Nat) : Prop := ∀ i, i < len → (Memory.byteAt s.lm (b + i)).isSome

/-! ### Contracts and values the statements of several commands share -/

/-- Bounds and alias class (20_memory.md R75, R77). -/
def Contract.regions (s : State) (cls : AliasClass) (ins outs : List Region) : Contract :=
  [(∀ q ∈ ins ++ outs, q.base + q.count ≤ s.cfg.lmLimbs, .outOfBounds), (aliasOk cls ins outs = true, .overlap)]

/-- Every limb read is written (20_memory.md R74). -/
def Contract.reads (s : State) (regions : List Region) : Contract :=
  [(∀ q ∈ regions, Written s q.base q.count, .uninitRead)]

/-- The context is constructed and its pool suffices for the opcode (42_montgomery.md R230, R231). -/
def Contract.context (s : State) (c : Slot) (opc : Nat) : Contract :=
  [((s.ctx c).valid = true, .noContext), (poolNeedOf s.cfg opc ≤ (s.ctx c).poolCap.toNat, .poolExhausted)]

/-- The contract of one AMM quadruple, its regions aside (R284). -/
def Contract.amm (s : State) (dg : DigitSize) (a b m k0 len : Nat) : Contract :=
  let d := digitBits dg
  let vm := dvalAt s d m len
  [(1 ≤ len, .zeroLength), (len ≤ maxDigits s.cfg dg, .badLength),
    (Written s a len ∧ Written s b len ∧ Written s m len, .uninitRead),
    (Normalized s d a len ∧ Normalized s d b len ∧ Normalized s d m len, .digitOverflow),
    (vm % 2 = 1, .evenModulus), (k0 % 2 ^ d * vm % 2 ^ d = 2 ^ d - 1, .badFactor),
    (4 * vm ≤ 2 ^ (d * len), .badLength), (dvalAt s d a len < 2 * vm ∧ dvalAt s d b len < 2 * vm, .notReduced)]

/-- The contract of one exponentiation's operands (R332). -/
def Contract.exponent (s : State) (x : Ctx) (xb eb bitsE : Nat) : Contract :=
  let ne := ceilDiv bitsE s.cfg.W
  [(1 ≤ bitsE, .zeroLength), (Written s xb (ctxLen x) ∧ Written s eb ne, .uninitRead),
    (valAt s xb (ctxLen x) < ctxM s.cfg x, .notReduced), (valAt s eb ne < 2 ^ bitsE, .excessBits)]

/-- The value of AMM: y·Rd = A·B + Q·M for a Q below Rd, and y < 2M (R283). -/
def ammValue (d len va vb vm y : Nat) : Prop :=
  ∃ q, q < 2 ^ (d * len) ∧ y * 2 ^ (d * len) = va * vb + q * vm ∧ y < 2 * vm

/-- The size of a table of 2^w entries of n limbs: the least multiple of the cache line that holds them (R310). -/
def isTableSize (c : Config) (n w size : Nat) : Prop :=
  let cl := c.clBytes * 8 / c.W
  size % cl = 0 ∧ 2 ^ w * n ≤ size ∧ size < 2 ^ w * n + cl

/-- Y by R333: in the regular domain X^e mod m; in the Montgomery domain x^e·R mod m for the reduced x with
x·R ≡ X. -/
def isPower (dom : Domain) (m bigR vx e y : Nat) : Prop :=
  match dom with
  | .regular => y = vx ^ e % m
  | .montgomery => ∃ x, x < m ∧ x * bigR % m = vx ∧ y = x ^ e * bigR % m

/-! ### Invariants -/

/-- What a valid context holds (10_state.md R36, R39). -/
def CtxOk (c : Config) (x : Ctx) : Prop :=
  x.valid = true →
    1 ≤ x.modBits.toNat ∧ x.modBits.toNat ≤ c.maxModBits ∧ x.modLen.toNat = ceilDiv x.modBits.toNat c.W ∧
    x.modulus.length = c.maxLimbs ∧ x.montR.length = c.maxLimbs ∧ x.montR2.length = c.maxLimbs ∧
    (∀ v ∈ x.modulus.drop x.modLen.toNat, v = 0) ∧
    ctxM c x % 2 = 1 ∧ ctxM c x < 2 ^ x.modBits.toNat ∧
    (ctxM c x * x.k0.toNat + 1) % 2 ^ c.W = 0 ∧
    ctxRm c x = ctxR c x % ctxM c x ∧ ctxR2m c x = ctxR c x * ctxR c x % ctxM c x ∧
    1 ≤ x.poolCap.toNat ∧ x.poolUsed = 0

/-- VALID and the scalar fields hold their reset values (10_state.md R36, R49). -/
def CtxAtReset (x : Ctx) : Prop :=
  x.valid = false ∧ x.modBits = 0 ∧ x.modLen = 0 ∧ x.k0 = 0 ∧ x.poolCap = 0 ∧ x.poolUsed = 0

/-- Outside the fault state, both contexts are as 10_state.md R36 says, and directly after reset they hold their reset
values (R37, notes/assumptions/12.md). -/
def CtxsOk (s : State) : Prop :=
  ((∀ r, s.phase ≠ .faulted r) → CtxOk s.cfg s.ctx0 ∧ CtxOk s.cfg s.ctx1) ∧
  (s.fresh = true → CtxAtReset s.ctx0 ∧ CtxAtReset s.ctx1)

/-- The scalar fields of a context are W-bit words (10_state.md R36). -/
def CtxFits (c : Config) (x : Ctx) : Prop :=
  x.modBits.toNat < 2 ^ c.W ∧ x.modLen.toNat < 2 ^ c.W ∧ x.k0.toNat < 2 ^ c.W ∧ x.poolCap.toNat < 2 ^ c.W ∧
    x.poolUsed.toNat < 2 ^ c.W

/-- Every register is a W-bit word (10_state.md R31, R34, R35, R36). -/
def WordsFit (s : State) : Prop :=
  (∀ i, (s.args.get i).toNat < 2 ^ s.cfg.W) ∧ OperandsFit s ∧ s.res0.toNat < 2 ^ s.cfg.W ∧
    s.res1.toNat < 2 ^ s.cfg.W ∧ s.hostData.toNat < 2 ^ s.cfg.W ∧ CtxFits s.cfg s.ctx0 ∧ CtxFits s.cfg s.ctx1

/-- LM is in canonical form, and nothing is stored outside LM_LIMBS limbs (20_memory.md R70, R75). -/
def LmOk (s : State) : Prop := Memory.wf s.lm ∧ ∀ p ∈ s.lm, p.1 < s.cfg.lmLimbs * s.cfg.bpl

/-- STATUS and the phase agree: BUSY exactly in Pending, and what is pending is CMD with the ARG values; an error
leaves RES0 = RES1 = 0 (10_state.md R32, R34, R35, R42). -/
def ProtocolOk (s : State) : Prop :=
  match s.phase with
  | .idle => s.status.busy = false ∧ (s.status.err ≠ .none → s.res0.toNat = 0 ∧ s.res1.toNat = 0)
  | .pending w args => s.status = ⟨true, false, .none⟩ ∧ w = s.cmd ∧ args = s.args
  | .faulted _ => True

end Sys2Proof.Machine
end

