-- ==== Sys2Proof/Certificates/Slice0/Obligations.lean ====
section
/-! DEFINITION. The statements about the machine, each from the rules of spec/ its docstring names. In a statement
about a command, `CompletesUnder c o post` says that the command answers a next state that meets `post` when every
condition of the caller's contract `c` holds, and faults with the reason of a condition that fails otherwise
(60_exceptions.md R380, R382); `c` lists the rule's Exceptions, each with what it asks. -/

open Sys2Proof Sys2Proof.Machine

/-! ### Encoding (30_encoding.md) -/

/-- Command words of 95_test_vectors.md sections 2.1 and 3.6 and R111, at least one of each row of R103, decode to the
commands they stand for (R101, R105). -/
def Obligations.SpecWordsDecode : Prop :=
  decode .w64 0x00000001#32 = .ok .add ∧ decode .w64 0x0000012E#32 = .ok (.mmul .c1) ∧
  decode .w64 0x00000042#32 = .ok (.amm .d52) ∧ decode .w32 0x00000440#32 = .ok (.r2red .d27) ∧
  decode .w64 0x0000204B#32 = .ok (.scrgetct 2#3) ∧ decode .w64 0x00000051#32 = .ok (.expbufsize 0#3) ∧
  decode .w64 0x00006051#32 = .ok (.expbufsize 6#3) ∧ decode .w64 0x00000252#32 = .ok (.expbin .c0 .regular) ∧
  decode .w64 0x00000353#32 = .ok (.expbinct .c1 .regular) ∧
  decode .w64 0x00004355#32 = .ok (.expwinct .c1 .regular 4#3) ∧
  decode .w64 0x00002256#32 = .ok (.dualexpwinct .regular 2#3) ∧ decode .w64 0x00000061#32 = .ok .bn2os

/-- Decoding the word of a legal command gives the command back, with every field at every value its group allows
(R101 to R103, R109). -/
def Obligations.DecodeOfEncode : Prop :=
  ∀ (lw : LimbWidth) (i : Instr), i.wf lw = true → decode lw (encode i) = .ok i

/-- A word that decodes is the word of the command it decodes to, and that command is legal: no bit is ignored (R103,
R107). -/
def Obligations.EncodeOfDecode : Prop :=
  ∀ (lw : LimbWidth) (w : BitVec 32) (i : Instr), decode lw w = .ok i → encode i = w ∧ i.wf lw = true

/-- A row of the table selects a word when `word & mask == match`; at most one row selects a word, the decoded
command's row selects it, and a word no row selects is illegal (R109). -/
def Obligations.OneRowSelectsAWord : Prop :=
  (∀ (w : BitVec 32) (r q : OpRow), r ∈ opcodeTable → q ∈ opcodeTable →
    r.selects w = true → q.selects w = true → r = q) ∧
  (∀ (lw : LimbWidth) (w : BitVec 32) (i : Instr), decode lw w = .ok i →
    i.row ∈ opcodeTable ∧ i.row.selects w = true) ∧
  (∀ (lw : LimbWidth) (w : BitVec 32), (∀ r ∈ opcodeTable, r.selects w = false) → ∃ e, decode lw w = .illegal e)

/-! ### The machine: reset, issue, the engine's step, the fault state (10_state.md, 60_exceptions.md, 70) -/

/-- The state after reset holds the values the spec gives, whatever the parameters of the block (10_state.md R49). LM
lists nothing, which is every written mark clear. -/
def Obligations.ResetLeavesTheSpecsValues : Prop :=
  ∀ s : State, (s = State.reset ∨ ∃ c : Config, s = State.resetOf c) →
    s.cmd = 0 ∧ s.status = ⟨false, false, .none⟩ ∧ s.res0 = 0 ∧ s.res1 = 0 ∧ (∀ i, s.args.get i = 0) ∧
    (∀ k : Slot, CtxAtReset (s.ctx k)) ∧ s.phase = .idle ∧ s.lm = []

/-- The invariants of this file hold after reset, and the parameters of State.reset meet their constraints (the latter
a choice of the model, notes/assumptions/1.md). -/
def Obligations.ResetMeetsTheInvariants : Prop :=
  Config.standard.wf = true ∧
  ∀ c : Config, LmOk (State.resetOf c) ∧ WordsFit (State.resetOf c) ∧ CtxsOk (State.resetOf c) ∧
    ProtocolOk (State.resetOf c)

/-- A host write to CMD while idle issues the command: CMD takes the low 32 bits, STATUS is BUSY only, and the phase
is Pending with the ARG values as they are; nothing else changes (10_state.md R32). -/
def Obligations.HostWriteToCmdIssues : Prop :=
  ∀ (s : State) (v : Word) (rest : List Event),
    s.phase = .idle → s.schedule = .host (.writeReg 0 v) :: rest →
    step s = .next { s with
      schedule := rest
      cmd := v.setWidth 32
      status := ⟨true, false, .none⟩
      phase := .pending (v.setWidth 32) s.args }

/-- The engine's step from Pending runs the command its word decodes to: the next state is exec's, and a fault of exec
is the fault state with its reason (30_encoding.md R110, 10_state.md R42). The engine's turn comes with an engine
event or with no event left, which is the model's form of the interleaving (notes/assumptions/7.md). -/
def Obligations.EngineRunsTheDecodedCommand : Prop :=
  ∀ (s : State) (w : BitVec 32) (args : Args) (i : Instr),
    s.phase = .pending w args → decode s.cfg.width w = .ok i →
    (∀ u : State, EngineTurn s u →
      (∀ t, exec i u = .next t → step s = .next t) ∧
      (∀ r, exec i u = .fault r → step s = .next (u.enterFaulted r)))

/-- A table word placed by withFetchWord runs at the very next step, with the ARG values the registers hold (the form
is the model's, notes/assumptions/8.md). -/
def Obligations.FetchedWordRunsNext : Prop :=
  ∀ (s : State) (w : BitVec 32) (i : Instr), decode s.cfg.width w = .ok i →
    let u := s.issue w
    (s.withFetchWord 32 w.toNat).schedule = .engine :: s.schedule ∧ u.latched = s.args ∧
    (∀ t, exec i u = .next t → step (s.withFetchWord 32 w.toNat) = .next t) ∧
    (∀ r, exec i u = .fault r → step (s.withFetchWord 32 w.toNat) = .next (u.enterFaulted r))

/-- An illegal command word completes at the engine's turn with ERR = ILLEGAL and RES0 = RES1 = 0 and changes no LM
limb, no context and no operand (30_encoding.md R107). -/
def Obligations.IllegalWordCompletesWithError : Prop :=
  ∀ (s u : State) (w : BitVec 32) (args : Args) (e : Illegal),
    s.phase = .pending w args → EngineTurn s u → decode s.cfg.width w = .illegal e →
    ∃ t, step s = .next t ∧ Failed t .illegal ∧ Frame u t [] ∧ t.lm = u.lm

/-- In the fault state the engine has no step (60_exceptions.md R382). -/
def Obligations.FaultedEngineHasNoStep : Prop :=
  ∀ (s : State) (r : Fault) (rest : List Event), s.phase = .faulted r →
    (s.schedule = [] → step s = .fault r) ∧ (s.schedule = .engine :: rest → step s = .fault r)

/-- The fault state is left by reset only: every other host access keeps the phase, a host write has no effect, a host
read changes only what the host got, and reset gives every field of the spec's state its reset value (60_exceptions.md
R382, R395, 70_reset_and_hazards.md R410). The values `State.resetOf` has in the context arrays, BACKEND, `leak` and
`fresh` are the model's choice (notes/assumptions/5.md, 6.md). -/
def Obligations.OnlyResetLeavesTheFaultState : Prop :=
  ∀ (s t : State) (r : Fault), s.phase = .faulted r → step s = .next t →
    ((t.phase = .faulted r ∧ ∀ rest, s.schedule ≠ .host .reset :: rest) ∨
      ((∃ rest, s.schedule = .host .reset :: rest) ∧
        t = { State.resetOf s.cfg with hostData := s.hostData, schedule := s.schedule.tail, draws := s.draws })) ∧
    (∀ slot v rest, s.schedule = .host (.writeReg slot v) :: rest → t = { s with schedule := rest }) ∧
    (∀ a v rest, s.schedule = .host (.writeLm a v) :: rest → t = { s with schedule := rest }) ∧
    (∀ slot rest, s.schedule = .host (.readReg slot) :: rest →
      ∃ v d, t = { s with schedule := rest, hostData := v, draws := d }) ∧
    (∀ a rest, s.schedule = .host (.readLm a) :: rest →
      ∃ v d, t = { s with schedule := rest, hostData := v, draws := d })

/-- Reset may be applied in any phase and puts every piece of the spec's state at its reset value (R410). The values
`State.resetOf` has in the context arrays, BACKEND, `leak` and `fresh` are the model's choice (notes/assumptions/5.md,
6.md). -/
def Obligations.ResetInEveryPhase : Prop :=
  ∀ (s : State) (rest : List Event), s.schedule = .host .reset :: rest →
    step s = .next { State.resetOf s.cfg with hostData := s.hostData, schedule := rest, draws := s.draws }

/-- While BUSY = 1 a host write of CMD, of an ARG register or of an LM limb is UB(HostBusyWrite): the phase becomes
Faulted with that reason; a host write of any other slot changes nothing (70_reset_and_hazards.md R411, 60_exceptions.md
R395). That this is the reason for a limb index outside LM too is the model's reading (notes/assumptions/14.md). -/
def Obligations.HostWritesWhileBusy : Prop :=
  ∀ (s : State) (w : BitVec 32) (args : Args) (rest : List Event), s.phase = .pending w args →
    (∀ slot v, s.schedule = .host (.writeReg slot v) :: rest →
      ((slot.val = 0 ∨ (0x10 ≤ slot.val ∧ slot.val ≤ 0x1F)) →
        ∃ t, step s = .next t ∧ t.phase = .faulted .hostBusyWrite) ∧
      (¬ (slot.val = 0 ∨ (0x10 ≤ slot.val ∧ slot.val ≤ 0x1F)) → step s = .next { s with schedule := rest })) ∧
    (∀ a v, s.schedule = .host (.writeLm a v) :: rest →
      ∃ t, step s = .next t ∧ t.phase = .faulted .hostBusyWrite)

/-- A host read, in any phase, changes nothing but the value the host got and the number of the next draw:
reads have no side effects (20_memory.md R79). A read of an LM limb outside LM is not one (notes/assumptions/14.md). -/
def Obligations.HostReadsHaveNoSideEffects : Prop :=
  ∀ (s : State) (rest : List Event),
    (∀ slot, s.schedule = .host (.readReg slot) :: rest →
      ∃ v d, step s = .next { s with schedule := rest, hostData := v, draws := d }) ∧
    (∀ a, a < s.cfg.lmLimbs → s.schedule = .host (.readLm a) :: rest →
      ∃ v d, step s = .next { s with schedule := rest, hostData := v, draws := d })

/-- What a host read returns. While idle: CMD, STATUS with BUSY in bit 0, DONE in bit 1 and ERR in bits 7:4, RES0,
RES1, ARG0 to ARG15, of a context VALID and, when it is valid, its five other scalar fields, which read 0 directly after
reset (10_state.md R31 to R37, notes/assumptions/12.md), and a written LM limb (20_memory.md R70, R74). While BUSY = 1:
STATUS, CMD and ARG0 to ARG15 (60_exceptions.md R395). -/
def Obligations.HostReadsTheRegisterMap : Prop :=
  ∀ (s : State) (rest : List Event),
    (∀ slot : Fin 64, s.schedule = .host (.readReg slot) :: rest →
      let readable := fun t : State =>
        (slot.val = 0x00 → t.hostData.toNat = s.cmd.toNat) ∧
        (slot.val = 0x01 → t.hostData.getLsbD 0 = s.status.busy ∧ t.hostData.getLsbD 1 = s.status.done ∧
          t.hostData.toNat / 2 ^ 4 = errNumber s.status.err ∧ t.hostData.toNat / 2 ^ 2 % 2 ^ 2 = 0) ∧
        (∀ i : Fin 16, slot.val = 0x10 + i.val → t.hostData = s.args.get i)
      (s.phase = .idle → ∃ t, step s = .next t ∧ readable t ∧
        (slot.val = 0x02 → t.hostData = s.res0) ∧ (slot.val = 0x03 → t.hostData = s.res1) ∧
        (∀ c : Slot,
          let base := 0x20 + 8 * c.bit
          let x := s.ctx c
          (slot.val = base → t.hostData.toNat = x.valid.toNat) ∧
          (x.valid = true →
            (slot.val = base + 1 → t.hostData = x.modBits) ∧ (slot.val = base + 2 → t.hostData = x.modLen) ∧
            (slot.val = base + 3 → t.hostData = x.k0) ∧ (slot.val = base + 4 → t.hostData = x.poolCap) ∧
            (slot.val = base + 5 → t.hostData = x.poolUsed)) ∧
          (s.fresh = true → CtxAtReset x → base ≤ slot.val → slot.val ≤ base + 5 → t.hostData = 0))) ∧
      (∀ w args, s.phase = .pending w args → ∃ t, step s = .next t ∧ readable t ∧
        (ProtocolOk s → slot.val = 0x01 → t.hostData = 1))) ∧
    (∀ a v, a < s.cfg.lmLimbs → s.limbAt a = some v → s.phase = .idle → s.schedule = .host (.readLm a) :: rest →
      ∃ t, step s = .next t ∧ t.hostData.toNat = v)

/-- Host writes while idle: an ARG register takes the value, an LM limb takes it and is written, and a read-only or
reserved slot ignores it (10_state.md R35, R47, 20_memory.md R70, R74). Values are taken to W bits. -/
def Obligations.HostWritesWhileIdle : Prop :=
  ∀ (s : State) (rest : List Event), s.phase = .idle →
    (∀ (i : Fin 16) (slot : Fin 64) v, slot.val = 0x10 + i.val → s.schedule = .host (.writeReg slot v) :: rest →
      ∃ args, step s = .next { s with schedule := rest, args := args } ∧
        (args.get i).toNat = v.toNat % 2 ^ s.cfg.W ∧ ∀ j, j ≠ i → args.get j = s.args.get j) ∧
    (∀ (slot : Fin 64) v, slot.val ≠ 0 → ¬ (0x10 ≤ slot.val ∧ slot.val ≤ 0x1F) →
      s.schedule = .host (.writeReg slot v) :: rest → step s = .next { s with schedule := rest }) ∧
    (∀ a v, a < s.cfg.lmLimbs → s.schedule = .host (.writeLm a v) :: rest →
      ∃ lm, let t := { s with schedule := rest, lm := lm }
        step s = .next t ∧ KeepsLmOutside s t [⟨a, 1⟩] ∧ t.limbAt a = some (v.toNat % 2 ^ s.cfg.W))

/-! ### Invariants every step keeps -/

/-- LM keeps its canonical form, and nothing is ever stored outside LM_LIMBS limbs (20_memory.md R70, R75). -/
def Obligations.StepKeepsLimbMemoryOk : Prop :=
  ∀ s t : State, LmOk s → step s = .next t → LmOk t

/-- Every register and every operand in flight stays a W-bit word (10_state.md R31). -/
def Obligations.StepKeepsWordsFitting : Prop :=
  ∀ s t : State, WordsFit s → step s = .next t → WordsFit t

/-- Outside the fault state a valid context always holds an odd modulus below 2^MOD_BITS with its constants k0, Rm and
R2m, a pool of at least one buffer and POOL_USED = 0, and both contexts hold their reset values until the first command
after reset (10_state.md R36, R37, R39, notes/assumptions/12.md). The premise WordsFit is an invariant of its own. -/
def Obligations.StepKeepsContextConstants : Prop :=
  ∀ s t : State, WordsFit s → CtxsOk s → step s = .next t → CtxsOk t

/-- STATUS and the engine phase stay in step: BUSY = 1 exactly in Pending, the pending operands are the ARG registers,
and an error leaves RES0 = RES1 = 0 (10_state.md R34, R35, R42). -/
def Obligations.StepKeepsStatusAndPhaseInStep : Prop :=
  ∀ s t : State, ProtocolOk s → step s = .next t → ProtocolOk t

/-! ### Rules over all commands -/

/-- Only ENGINIT writes a context, and it never touches the other slot (10_state.md R38, 42_montgomery.md R232). -/
def Obligations.OnlyEnginitWritesAContext : Prop :=
  ∀ (i : Instr) (s t : State), exec i s = .next t →
    (∀ c : Slot, i ≠ .enginit c → t.ctx c = s.ctx c)

/-- Every command ends with the engine idle and STATUS done and not busy; a command that ends with ERR other than 0
writes RES0 = RES1 = 0 and changes no LM byte, and the commands that can are ENGINIT and BN2OS (60_exceptions.md R380,
R381, 10_state.md R34). -/
def Obligations.CommandsEndDone : Prop :=
  ∀ (i : Instr) (s t : State), exec i s = .next t →
    t.phase = .idle ∧ t.status.busy = false ∧ t.status.done = true ∧
    (t.status.err ≠ .none → t.res0 = 0 ∧ t.res1 = 0 ∧ t.lm = s.lm ∧ (i = .bn2os ∨ ∃ c, i = .enginit c))

/-- The engine never writes an ARG register, CMD or a parameter, and every command ends in a next state or a fault:
none is refused (10_state.md R35, 60_exceptions.md R380). -/
def Obligations.CommandsKeepOperandRegisters : Prop :=
  ∀ (i : Instr) (s : State), (∀ t, exec i s = .next t → KeepsRegisters s t) ∧ ∀ x, exec i s ≠ .refused x

/-! ### Regions -/

/-- Two regions are disjoint when they share no limb, and the alias classes are as 20_memory.md R77 says: outputs are
pairwise disjoint, class NONE wants every output disjoint from every input, and class A1 excuses the one pair of first
output and first input when they are the same region. -/
def Obligations.AliasClassesAsTheSpecSays : Prop :=
  (∀ r q : Region, r.disjoint q = true ↔
    ¬ ∃ l, r.base ≤ l ∧ l < r.base + r.count ∧ q.base ≤ l ∧ l < q.base + q.count) ∧
  (∀ ins outs : List Region, aliasOk .none ins outs = true ↔
    outs.Pairwise (fun r q => r.disjoint q = true) ∧ ∀ o ∈ outs, ∀ i ∈ ins, o.disjoint i = true) ∧
  (∀ (i o : Region) (is os : List Region), aliasOk .a1 (i :: is) (o :: os) = true ↔
    (o :: os).Pairwise (fun r q => r.disjoint q = true) ∧ (o = i ∨ o.disjoint i = true) ∧
    (∀ j ∈ is, o.disjoint j = true) ∧ ∀ p ∈ os, ∀ j ∈ i :: is, p.disjoint j = true) ∧
  (∀ (r : Region) (ins : List Region), aliasOk .io ins [r] = true ↔ ∀ i ∈ ins, r.disjoint i = true)

/-! ### Limb arithmetic (40_bnu.md) -/

/-- ADD: R takes a + b modulo 2^(W·n), RES0 the carry, under its contract (R141). -/
def Obligations.AddWritesSumAndCarry : Prop :=
  (encode .add).toNat = 0x01 ∧
  ∀ s : State,
    let r := s.opnd 0
    let a := s.opnd 1
    let b := s.opnd 2
    let n := s.opnd 3
    CompletesUnder
      ((1 ≤ n, .zeroLength) ::
        (Contract.regions s .a1 [⟨a, n⟩, ⟨b, n⟩] [⟨r, n⟩] ++ Contract.reads s [⟨a, n⟩, ⟨b, n⟩]))
      (exec .add s) fun t =>
      t.memRead r n = some ((valAt s a n + valAt s b n) % 2 ^ (s.cfg.W * n)) ∧
      Done t ((valAt s a n + valAt s b n) / 2 ^ (s.cfg.W * n)) 0 ∧ Frame s t [⟨r, n⟩]

/-- SUB: R takes a - b modulo 2^(W·n), RES0 the borrow (R142). -/
def Obligations.SubWritesDifferenceAndBorrow : Prop :=
  (encode .sub).toNat = 0x02 ∧
  ∀ s : State,
    let r := s.opnd 0
    let a := s.opnd 1
    let b := s.opnd 2
    let n := s.opnd 3
    CompletesUnder
      ((1 ≤ n, .zeroLength) ::
        (Contract.regions s .a1 [⟨a, n⟩, ⟨b, n⟩] [⟨r, n⟩] ++ Contract.reads s [⟨a, n⟩, ⟨b, n⟩]))
      (exec .sub s) fun t =>
      t.memRead r n = some ((2 ^ (s.cfg.W * n) + valAt s a n - valAt s b n) % 2 ^ (s.cfg.W * n)) ∧
      Done t (if valAt s a n < valAt s b n then 1 else 0) 0 ∧ Frame s t [⟨r, n⟩]

/-- INC and DEC: one limb added or subtracted, with the carry or borrow in RES0 (R143, R144). The operands are W-bit
words. -/
def Obligations.IncAndDecPropagate : Prop :=
  (encode .inc).toNat = 0x03 ∧ (encode .dec).toNat = 0x04 ∧
  ∀ s : State, OperandsFit s →
    let r := s.opnd 0
    let a := s.opnd 1
    let n := s.opnd 2
    let v := s.opnd 3
    let c : Contract :=
      (1 ≤ n, .zeroLength) :: (Contract.regions s .a1 [⟨a, n⟩] [⟨r, n⟩] ++ Contract.reads s [⟨a, n⟩])
    CompletesUnder c (exec .inc s) (fun t =>
      t.memRead r n = some ((valAt s a n + v) % 2 ^ (s.cfg.W * n)) ∧
      Done t ((valAt s a n + v) / 2 ^ (s.cfg.W * n)) 0 ∧ Frame s t [⟨r, n⟩]) ∧
    CompletesUnder c (exec .dec s) (fun t =>
      t.memRead r n = some ((2 ^ (s.cfg.W * n) + valAt s a n - v) % 2 ^ (s.cfg.W * n)) ∧
      Done t (if valAt s a n < v then 1 else 0) 0 ∧ Frame s t [⟨r, n⟩])

/-- MULD: R takes a·v modulo 2^(W·n), RES0 the high limb (R145). -/
def Obligations.MuldWritesProductAndHighLimb : Prop :=
  (encode .muld).toNat = 0x05 ∧
  ∀ s : State, OperandsFit s →
    let r := s.opnd 0
    let a := s.opnd 1
    let n := s.opnd 2
    let v := s.opnd 3
    CompletesUnder
      ((1 ≤ n, .zeroLength) :: (Contract.regions s .a1 [⟨a, n⟩] [⟨r, n⟩] ++ Contract.reads s [⟨a, n⟩]))
      (exec .muld s) fun t =>
      t.memRead r n = some (valAt s a n * v % 2 ^ (s.cfg.W * n)) ∧
      Done t (valAt s a n * v / 2 ^ (s.cfg.W * n)) 0 ∧ Frame s t [⟨r, n⟩]

/-- SUBMULD: R takes rn and RES0 the borrow b with r - a·v = rn - b·2^(W·n) (R146). -/
def Obligations.SubmuldWritesDifferenceAndBorrowLimb : Prop :=
  (encode .submuld).toNat = 0x06 ∧
  ∀ s : State, OperandsFit s →
    let r := s.opnd 0
    let a := s.opnd 1
    let n := s.opnd 2
    let v := s.opnd 3
    CompletesUnder
      ((1 ≤ n, .zeroLength) ::
        (Contract.regions s .io [⟨a, n⟩] [⟨r, n⟩] ++ Contract.reads s [⟨a, n⟩, ⟨r, n⟩]))
      (exec .submuld s) fun t =>
      ∃ rn b, rn < 2 ^ (s.cfg.W * n) ∧ b < 2 ^ s.cfg.W ∧ valAt s r n + b * 2 ^ (s.cfg.W * n) = rn + valAt s a n * v ∧
        t.memRead r n = some rn ∧ Done t b 0 ∧ Frame s t [⟨r, n⟩]

/-- MUL: R(nA + nB) takes the exact product (R147). -/
def Obligations.MulWritesTheExactProduct : Prop :=
  (encode .mul).toNat = 0x07 ∧
  ∀ s : State,
    let r := s.opnd 0
    let a := s.opnd 1
    let na := s.opnd 2
    let b := s.opnd 3
    let nb := s.opnd 4
    CompletesUnder
      ((1 ≤ na ∧ 1 ≤ nb, .zeroLength) ::
        (Contract.regions s .none [⟨a, na⟩, ⟨b, nb⟩] [⟨r, na + nb⟩] ++ Contract.reads s [⟨a, na⟩, ⟨b, nb⟩]))
      (exec .mul s) fun t =>
      t.memRead r (na + nb) = some (valAt s a na * valAt s b nb) ∧ Done t 0 0 ∧ Frame s t [⟨r, na + nb⟩]

/-- SQR: R(2n) takes the exact square (R148). -/
def Obligations.SqrWritesTheExactSquare : Prop :=
  (encode .sqr).toNat = 0x08 ∧
  ∀ s : State,
    let r := s.opnd 0
    let a := s.opnd 1
    let n := s.opnd 2
    CompletesUnder
      ((1 ≤ n, .zeroLength) :: (Contract.regions s .none [⟨a, n⟩] [⟨r, 2 * n⟩] ++ Contract.reads s [⟨a, n⟩]))
      (exec .sqr s) fun t =>
      t.memRead r (2 * n) = some (valAt s a n * valAt s a n) ∧ Done t 0 0 ∧ Frame s t [⟨r, 2 * n⟩]

/-- NLZ and NTZ count the leading and the trailing zero bits of one limb, W for the limb 0, and change nothing else
(R149, R150). -/
def Obligations.BitCountsOfALimb : Prop :=
  (encode .nlz).toNat = 0x09 ∧ (encode .ntz).toNat = 0x0A ∧
  ∀ s : State, OperandsFit s →
    let x := s.opnd 0
    (∃ t k, exec .nlz s = .next t ∧ Done t k 0 ∧ Frame s t [] ∧
      (x = 0 → k = s.cfg.W) ∧ (x ≠ 0 → k < s.cfg.W ∧ 2 ^ (s.cfg.W - 1 - k) ≤ x ∧ x < 2 ^ (s.cfg.W - k))) ∧
    (∃ t k, exec .ntz s = .next t ∧ Done t k 0 ∧ Frame s t [] ∧
      (x = 0 → k = s.cfg.W) ∧ (x ≠ 0 → 2 ^ k ∣ x ∧ ¬ 2 ^ (k + 1) ∣ x))

/-- LSR: R takes a shifted right by any bit count, zeros entering at the top (R151). -/
def Obligations.LsrShiftsBySomeBits : Prop :=
  (encode .lsr).toNat = 0x0B ∧
  ∀ s : State,
    let r := s.opnd 0
    let a := s.opnd 1
    let n := s.opnd 2
    let sh := s.opnd 3
    CompletesUnder
      ((1 ≤ n, .zeroLength) :: (Contract.regions s .a1 [⟨a, n⟩] [⟨r, n⟩] ++ Contract.reads s [⟨a, n⟩]))
      (exec .lsr s) fun t =>
      t.memRead r n = some (valAt s a n / 2 ^ sh) ∧ Done t 0 0 ∧ Frame s t [⟨r, n⟩]

/-- FIX: RES0 is the logical length, never 0 (R152). -/
def Obligations.FixGivesTheLogicalLength : Prop :=
  (encode .fix).toNat = 0x0E ∧
  ∀ s : State, OperandsFit s →
    let a := s.opnd 0
    let n := s.opnd 1
    CompletesUnder
      ((1 ≤ n, .zeroLength) :: (Contract.regions s .none [⟨a, n⟩] [] ++ Contract.reads s [⟨a, n⟩]))
      (exec .fix s) fun t =>
      ∃ k, IsLength s.cfg.W (valAt s a n) k ∧ k ≤ n ∧ Done t k 0 ∧ Frame s t []

/-- CMP and CMPCT: RES0 is 1, 0 or 2^W - 1 as a is greater, equal or less; CMPCT's trace is the scan from the top limb
down and its duration a function of (nA, nB) (R153, R154). -/
def Obligations.CompareGivesThreeWayResult : Prop :=
  (encode .cmp).toNat = 0x0C ∧ (encode .cmpct).toNat = 0x0D ∧
  ∀ s : State,
    let a := s.opnd 0
    let na := s.opnd 1
    let b := s.opnd 2
    let nb := s.opnd 3
    let c : Contract :=
      (1 ≤ na ∧ 1 ≤ nb, .zeroLength) ::
        (Contract.regions s .none [⟨a, na⟩, ⟨b, nb⟩] [] ++ Contract.reads s [⟨a, na⟩, ⟨b, nb⟩])
    let res := if valAt s b nb < valAt s a na then 1 else if valAt s a na = valAt s b nb then 0 else 2 ^ s.cfg.W - 1
    CompletesUnder c (exec .cmp s) (fun t => Done t res 0 ∧ Frame s t []) ∧
    CompletesUnder c (exec .cmpct s) (fun t => Done t res 0 ∧ Frame s t [] ∧
      t.leak.trace = (List.range (max na nb)).reverse.flatMap (fun i =>
        (if i < na then [Access.read (a + i)] else []) ++ (if i < nb then [Access.read (b + i)] else [])) ∧
      t.leak.duration = Config.cmpctDuration s.cfg na nb)

/-- MASKCOPY: every limb is (A & mask) | (B & ~mask) of the limbs before, with its exact trace
and a duration that is a function of n (R155). -/
def Obligations.MaskcopySelectsBitByBit : Prop :=
  (encode .maskcopy).toNat = 0x0F ∧
  ∀ s : State,
    let r := s.opnd 0
    let a := s.opnd 1
    let b := s.opnd 2
    let n := s.opnd 3
    let mask := s.opnd 4
    CompletesUnder
      ((1 ≤ n, .zeroLength) ::
        (Contract.regions s .a1 [⟨a, n⟩, ⟨b, n⟩] [⟨r, n⟩] ++ Contract.reads s [⟨a, n⟩, ⟨b, n⟩]))
      (exec .maskcopy s) fun t =>
      (∀ j, j < n → ∃ x y, s.limbAt (a + j) = some x ∧ s.limbAt (b + j) = some y ∧
        t.limbAt (r + j) = some ((x &&& mask) ||| (y &&& (2 ^ s.cfg.W - 1 - mask)))) ∧
      t.leak.trace = (List.range n).flatMap (fun j => [Access.read (a + j), .read (b + j), .write (r + j)]) ∧
      t.leak.duration = Config.maskcopyDuration s.cfg n ∧ Done t 0 0 ∧ Frame s t [⟨r, n⟩]

/-! ### Division, GCD and inverse (41_division.md) -/

/-- DIV: quotient, remainder and their logical lengths (R201). The quotient region counts nA + 1 - nB limbs. -/
def Obligations.DivWritesQuotientAndRemainder : Prop :=
  (encode .div).toNat = 0x10 ∧
  ∀ s : State, OperandsFit s →
    let q := s.opnd 0
    let rm := s.opnd 1
    let a := s.opnd 2
    let na := s.opnd 3
    let b := s.opnd 4
    let nb := s.opnd 5
    let nq := na + 1 - nb
    CompletesUnder
      ((1 ≤ na ∧ 1 ≤ nb, .zeroLength) :: (nb ≤ na, .badLength) ::
        (s.limbAt (b + nb - 1) ≠ some 0, .divisorNotNormalized) ::
        (Contract.regions s .none [⟨a, na⟩, ⟨b, nb⟩] [⟨q, nq⟩, ⟨rm, nb⟩] ++ Contract.reads s [⟨a, na⟩, ⟨b, nb⟩]))
      (exec .div s) fun t =>
      ∃ k0 k1, t.memRead q nq = some (valAt s a na / valAt s b nb) ∧
        t.memRead rm nb = some (valAt s a na % valAt s b nb) ∧ 0 < valAt s b nb ∧
        IsLength s.cfg.W (valAt s a na / valAt s b nb) k0 ∧ IsLength s.cfg.W (valAt s a na % valAt s b nb) k1 ∧
        Done t k0 k1 ∧ Frame s t [⟨q, nq⟩, ⟨rm, nb⟩]

/-- MOD: remainder and its logical length (R202). -/
def Obligations.ModWritesTheRemainder : Prop :=
  (encode .mod).toNat = 0x11 ∧
  ∀ s : State, OperandsFit s →
    let rm := s.opnd 0
    let a := s.opnd 1
    let na := s.opnd 2
    let b := s.opnd 3
    let nb := s.opnd 4
    CompletesUnder
      ((1 ≤ na ∧ 1 ≤ nb, .zeroLength) :: (s.limbAt (b + nb - 1) ≠ some 0, .divisorNotNormalized) ::
        (Contract.regions s .none [⟨a, na⟩, ⟨b, nb⟩] [⟨rm, nb⟩] ++ Contract.reads s [⟨a, na⟩, ⟨b, nb⟩]))
      (exec .mod s) fun t =>
      ∃ k, t.memRead rm nb = some (valAt s a na % valAt s b nb) ∧ 0 < valAt s b nb ∧
        IsLength s.cfg.W (valAt s a na % valAt s b nb) k ∧ Done t k 0 ∧ Frame s t [⟨rm, nb⟩]

/-- GCD: the greatest common divisor of two single limbs, with gcd(a, 0) = a, gcd(0, b) = b and gcd(0, 0) = 0 (R203). -/
def Obligations.GcdOfTwoLimbs : Prop :=
  (encode .gcd).toNat = 0x12 ∧
  ∀ s : State, OperandsFit s →
    let a := s.opnd 0
    let b := s.opnd 1
    ∃ t g, exec .gcd s = .next t ∧ Done t g 0 ∧ Frame s t [] ∧
      g ∣ a ∧ g ∣ b ∧ (∀ d, d ∣ a → d ∣ b → d ∣ g)

/-- MODINV: with gcd(a mod m, m) = 1 R takes the inverse in [0, m) and RES0 its length; otherwise RES0 = 0 and R is
written with unspecified values (R204). -/
def Obligations.ModinvWritesTheInverse : Prop :=
  (encode .modinv).toNat = 0x13 ∧
  ∀ s : State, OperandsFit s →
    let r := s.opnd 0
    let a := s.opnd 1
    let na := s.opnd 2
    let m := s.opnd 3
    let nm := s.opnd 4
    let av := valAt s a na
    let mv := valAt s m nm
    CompletesUnder
      ((1 ≤ na ∧ 1 ≤ nm, .zeroLength) :: (2 ≤ mv, .modulusTooSmall) ::
        (Contract.regions s .none [⟨a, na⟩, ⟨m, nm⟩] [⟨r, nm⟩] ++ Contract.reads s [⟨a, na⟩, ⟨m, nm⟩]))
      (exec .modinv s) fun t =>
      Frame s t [⟨r, nm⟩] ∧
      (Nat.gcd (av % mv) mv = 1 → ∃ y k, y < mv ∧ av * y % mv = 1 ∧ t.memRead r nm = some y ∧
        IsLength s.cfg.W y k ∧ Done t k 0) ∧
      (Nat.gcd (av % mv) mv ≠ 1 → Written t r nm ∧ Done t 0 0)

/-! ### Montgomery engine (42_montgomery.md) -/

/-- MONTFACTOR: k0 with m0·k0 ≡ -1 modulo 2^W, for an odd m0 (R234). -/
def Obligations.MontfactorGivesTheFactor : Prop :=
  (encode .montfactor).toNat = 0x20 ∧
  ∀ s : State,
    let m0 := s.opnd 0
    CompletesUnder [(m0 % 2 = 1, .evenModulus)] (exec .montfactor s) fun t =>
      ∃ k0, k0 < 2 ^ s.cfg.W ∧ (m0 * k0 + 1) % 2 ^ s.cfg.W = 0 ∧ Done t k0 0 ∧ Frame s t []

/-- ENGINIT: its checks in the rule's order, the context it constructs, and what an error leaves; LM and the other
slot are unchanged in every case (R232). -/
def Obligations.EnginitConstructsTheContext : Prop :=
  ∀ (c : Slot) (s : State), OperandsFit s → (encode (.enginit c)).toNat = 0x21 + 256 * c.bit ∧
    let base := s.opnd 0
    let bitSize := s.opnd 1
    let pool := s.opnd 2
    let n := ceilDiv bitSize s.cfg.W
    let m := valAt s base n
    let sizesOk := 1 ≤ bitSize ∧ bitSize ≤ s.cfg.maxModBits
    let inside := base + n ≤ s.cfg.lmLimbs
    let slotOnly := fun t : State => KeepsRegisters s t ∧ t.lm = s.lm ∧ ∀ k, k ≠ c → t.ctx k = s.ctx k
    let failsWith := fun e => ∃ t, exec (.enginit c) s = .next t ∧ Failed t e ∧ (t.ctx c).valid = false ∧ slotOnly t
    (¬ sizesOk → failsWith .invalidLength) ∧
    (sizesOk → pool < 1 → failsWith .insufficientPool) ∧
    (sizesOk → 1 ≤ pool → ¬ inside → exec (.enginit c) s = .fault .outOfBounds) ∧
    (sizesOk → 1 ≤ pool → inside → ¬ Written s base n → exec (.enginit c) s = .fault .uninitRead) ∧
    (sizesOk → 1 ≤ pool → inside → Written s base n → m % 2 = 0 → failsWith .badModulus) ∧
    (sizesOk → 1 ≤ pool → inside → Written s base n → m % 2 = 1 → 2 ^ bitSize ≤ m →
      exec (.enginit c) s = .fault .modulusTooWide) ∧
    (sizesOk → 1 ≤ pool → inside → Written s base n → m % 2 = 1 → m < 2 ^ bitSize →
      ∃ t, exec (.enginit c) s = .next t ∧ Done t n 0 ∧ slotOnly t ∧
        let x := t.ctx c
        x.valid = true ∧ x.modBits.toNat = bitSize ∧ x.modLen.toNat = n ∧ x.poolCap.toNat = pool ∧ x.poolUsed = 0 ∧
        x.modulus.length = s.cfg.maxLimbs ∧ (∀ v ∈ x.modulus.drop n, v = 0) ∧ ctxM s.cfg x = m ∧
        (m * x.k0.toNat + 1) % 2 ^ s.cfg.W = 0 ∧ x.k0.toNat < 2 ^ s.cfg.W ∧
        ctxRm s.cfg x = 2 ^ (s.cfg.W * n) % m ∧
        ctxR2m s.cfg x = ctxRm s.cfg x * ctxRm s.cfg x % m)

/-- ENGRD copies the modulus, Rm, R2m or k0 to LM and returns the limb count (R233). Its contract takes PoolExhausted
from R231 and 60_exceptions.md R383 (notes/assumptions/15.md). -/
def Obligations.EngrdCopiesAConstant : Prop :=
  ∀ (c : Slot) (s : State), OperandsFit s → CtxFits s.cfg (s.ctx c) → CtxOk s.cfg (s.ctx c) →
    (encode (.engrd c)).toNat = 0x22 + 256 * c.bit ∧
    let r := s.opnd 0
    let sel := s.opnd 1
    let x := s.ctx c
    let k := if sel = 3 then 1 else x.modLen.toNat
    let v := if sel = 0 then ctxM s.cfg x else if sel = 1 then ctxRm s.cfg x else if sel = 2 then ctxR2m s.cfg x
      else x.k0.toNat
    CompletesUnder ((sel ≤ 3, .badSelector) :: (r + k ≤ s.cfg.lmLimbs, .outOfBounds) :: Contract.context s c 0x22)
      (exec (.engrd c) s) fun t => t.memRead r k = some v ∧ Done t k 0 ∧ Frame s t [⟨r, k⟩]

/-- MADD and MSUB: the sum and the difference modulo m (R235, R236). -/
def Obligations.ModularAddAndSubtract : Prop :=
  ∀ (c : Slot) (s : State), CtxOk s.cfg (s.ctx c) →
    (encode (.madd c)).toNat = 0x28 + 256 * c.bit ∧ (encode (.msub c)).toNat = 0x29 + 256 * c.bit ∧
    let r := s.opnd 0
    let a := s.opnd 1
    let b := s.opnd 2
    let n := ctxLen (s.ctx c)
    let m := ctxM s.cfg (s.ctx c)
    let contract := fun opc => ((valAt s a n < m ∧ valAt s b n < m, .notReduced) ::
      (Contract.context s c opc ++ Contract.regions s .a1 [⟨a, n⟩, ⟨b, n⟩] [⟨r, n⟩] ++
        Contract.reads s [⟨a, n⟩, ⟨b, n⟩]) : Contract)
    CompletesUnder (contract 0x28) (exec (.madd c) s) (fun t =>
      t.memRead r n = some ((valAt s a n + valAt s b n) % m) ∧ Done t 0 0 ∧ Frame s t [⟨r, n⟩]) ∧
    CompletesUnder (contract 0x29) (exec (.msub c) s) (fun t =>
      t.memRead r n = some ((m + valAt s a n - valAt s b n) % m) ∧ Done t 0 0 ∧ Frame s t [⟨r, n⟩])

/-- MNEG, MMUL2 and MMUL3: -a, 2a and 3a modulo m; MDIV2: the reduced t with 2t ≡ a (R237 to R240). -/
def Obligations.ModularNegateHalveDoubleTriple : Prop :=
  ∀ (c : Slot) (s : State), CtxOk s.cfg (s.ctx c) →
    let r := s.opnd 0
    let a := s.opnd 1
    let n := ctxLen (s.ctx c)
    let m := ctxM s.cfg (s.ctx c)
    let av := valAt s a n
    let gives := fun (i : Instr) (opc : Nat) (ok : Nat → Prop) =>
      (encode i).toNat = opc + 256 * c.bit ∧
      CompletesUnder
        ((av < m, .notReduced) ::
          (Contract.context s c opc ++ Contract.regions s .a1 [⟨a, n⟩] [⟨r, n⟩] ++ Contract.reads s [⟨a, n⟩]))
        (exec i s) (fun t =>
        ∃ y, y < m ∧ ok y ∧ t.memRead r n = some y ∧ Done t 0 0 ∧ Frame s t [⟨r, n⟩])
    gives (.mneg c) 0x2A (fun y => (y + av) % m = 0) ∧
    gives (.mdiv2 c) 0x2B (fun y => 2 * y % m = av) ∧
    gives (.mmul2 c) 0x2C (fun y => y = 2 * av % m) ∧
    gives (.mmul3 c) 0x2D (fun y => y = 3 * av % m)

/-- MMUL and MSQR: the reduced y with y·R ≡ a·b, the Montgomery product (R242, R243). -/
def Obligations.MontgomeryProducts : Prop :=
  ∀ (c : Slot) (s : State), CtxOk s.cfg (s.ctx c) →
    (encode (.mmul c)).toNat = 0x2E + 256 * c.bit ∧ (encode (.msqr c)).toNat = 0x2F + 256 * c.bit ∧
    let r := s.opnd 0
    let a := s.opnd 1
    let b := s.opnd 2
    let n := ctxLen (s.ctx c)
    let m := ctxM s.cfg (s.ctx c)
    let bigR := ctxR s.cfg (s.ctx c)
    CompletesUnder
      ((valAt s a n < m ∧ valAt s b n < m, .notReduced) ::
        (Contract.context s c 0x2E ++ Contract.regions s .a1 [⟨a, n⟩, ⟨b, n⟩] [⟨r, n⟩] ++
          Contract.reads s [⟨a, n⟩, ⟨b, n⟩]))
      (exec (.mmul c) s) (fun t =>
      ∃ y, y < m ∧ y * bigR % m = valAt s a n * valAt s b n % m ∧ t.memRead r n = some y ∧ Done t 0 0 ∧
        Frame s t [⟨r, n⟩]) ∧
    CompletesUnder
      ((valAt s a n < m, .notReduced) ::
        (Contract.context s c 0x2F ++ Contract.regions s .a1 [⟨a, n⟩] [⟨r, n⟩] ++ Contract.reads s [⟨a, n⟩]))
      (exec (.msqr c) s) (fun t =>
      ∃ y, y < m ∧ y * bigR % m = valAt s a n * valAt s a n % m ∧ t.memRead r n = some y ∧ Done t 0 0 ∧
        Frame s t [⟨r, n⟩])

/-- MENC gives a·R mod m; MDEC gives the reduced y with y·R ≡ a; MRED does so for a double-length value below m·R
(R244, R245, R246). -/
def Obligations.MontgomeryEncodeDecodeReduce : Prop :=
  ∀ (c : Slot) (s : State), CtxOk s.cfg (s.ctx c) →
    (encode (.menc c)).toNat = 0x30 + 256 * c.bit ∧ (encode (.mdec c)).toNat = 0x31 + 256 * c.bit ∧
    (encode (.mred c)).toNat = 0x32 + 256 * c.bit ∧
    let r := s.opnd 0
    let a := s.opnd 1
    let n := ctxLen (s.ctx c)
    let m := ctxM s.cfg (s.ctx c)
    let bigR := ctxR s.cfg (s.ctx c)
    let contract := fun opc => ((valAt s a n < m, .notReduced) ::
      (Contract.context s c opc ++ Contract.regions s .a1 [⟨a, n⟩] [⟨r, n⟩] ++ Contract.reads s [⟨a, n⟩]) : Contract)
    CompletesUnder (contract 0x30) (exec (.menc c) s) (fun t =>
      t.memRead r n = some (valAt s a n * bigR % m) ∧ Done t 0 0 ∧ Frame s t [⟨r, n⟩]) ∧
    CompletesUnder (contract 0x31) (exec (.mdec c) s) (fun t =>
      ∃ y, y < m ∧ y * bigR % m = valAt s a n ∧ t.memRead r n = some y ∧ Done t 0 0 ∧ Frame s t [⟨r, n⟩]) ∧
    CompletesUnder
      ((valAt s a (2 * n) < m * bigR, .notReduced) ::
        (Contract.context s c 0x32 ++ Contract.regions s .none [⟨a, 2 * n⟩] [⟨r, n⟩] ++
          Contract.reads s [⟨a, 2 * n⟩]))
      (exec (.mred c) s) (fun t =>
      ∃ y, y < m ∧ y * bigR % m = valAt s a (2 * n) % m ∧ t.memRead r n = some y ∧ Done t 0 0 ∧
        Frame s t [⟨r, n⟩])

/-! ### Redundant radix (43_redundant.md) -/

/-- R2RED writes the digits of the value, zero-padded; RED2R writes the value of the digits (R281, R282). -/
def Obligations.RadixConvertersKeepTheValue : Prop :=
  ∀ (dg : DigitSize) (s : State), digitOk s.cfg.width dg = true →
    (encode (.r2red dg)).toNat = 0x40 + 1024 * dg.bit ∧ (encode (.red2r dg)).toNat = 0x41 + 1024 * dg.bit ∧
    let d := digitBits dg
    (let out := s.opnd 0
     let outLen := s.opnd 1
     let inp := s.opnd 2
     let bits := s.opnd 3
     let nIn := ceilDiv bits s.cfg.W
     CompletesUnder
      ((1 ≤ bits ∧ 1 ≤ outLen, .zeroLength) :: (bits ≤ outLen * d, .badLength) ::
        (valAt s inp nIn < 2 ^ bits, .excessBits) ::
        (Contract.regions s .none [⟨inp, nIn⟩] [⟨out, outLen⟩] ++ Contract.reads s [⟨inp, nIn⟩]))
      (exec (.r2red dg) s) fun t =>
      DigitsAt t d out outLen (valAt s inp nIn) ∧ Done t 0 0 ∧ Frame s t [⟨out, outLen⟩]) ∧
    (let out := s.opnd 0
     let inp := s.opnd 1
     let bits := s.opnd 2
     let nD := ceilDiv bits d
     let nOut := ceilDiv bits s.cfg.W
     CompletesUnder
      ((1 ≤ bits, .zeroLength) :: (Normalized s d inp nD, .digitOverflow) ::
        (dvalAt s d inp nD < 2 ^ bits, .excessBits) ::
        (Contract.regions s .none [⟨inp, nD⟩] [⟨out, nOut⟩] ++ Contract.reads s [⟨inp, nD⟩]))
      (exec (.red2r dg) s) fun t =>
      t.memRead out nOut = some (dvalAt s d inp nD) ∧ Done t 0 0 ∧ Frame s t [⟨out, nOut⟩])

/-- AMM and AMS: the output digits hold (A·B + Q·M) / Rd, below 2M, with no final subtraction; AMS has B = A (R283,
R284, R285). -/
def Obligations.AlmostMontgomeryProducts : Prop :=
  ∀ (dg : DigitSize) (s : State), digitOk s.cfg.width dg = true →
    (encode (.amm dg)).toNat = 0x42 + 1024 * dg.bit ∧ (encode (.ams dg)).toNat = 0x43 + 1024 * dg.bit ∧
    let d := digitBits dg
    let out := s.opnd 0
    let a := s.opnd 1
    (let b := s.opnd 2
     let m := s.opnd 3
     let len := s.opnd 5
     CompletesUnder
      (Contract.regions s .none [⟨a, len⟩, ⟨b, len⟩, ⟨m, len⟩] [⟨out, len⟩] ++
        Contract.amm s dg a b m (s.opnd 4) len)
      (exec (.amm dg) s) fun t =>
      ∃ y, ammValue d len (dvalAt s d a len) (dvalAt s d b len) (dvalAt s d m len) y ∧ DigitsAt t d out len y ∧
        Done t 0 0 ∧ Frame s t [⟨out, len⟩]) ∧
    (let m := s.opnd 2
     let len := s.opnd 4
     CompletesUnder
      (Contract.regions s .none [⟨a, len⟩, ⟨m, len⟩] [⟨out, len⟩] ++ Contract.amm s dg a a m (s.opnd 3) len)
      (exec (.ams dg) s) fun t =>
      ∃ y, ammValue d len (dvalAt s d a len) (dvalAt s d a len) (dvalAt s d m len) y ∧ DigitsAt t d out len y ∧
        Done t 0 0 ∧ Frame s t [⟨out, len⟩])

/-- AMMDUAL: two AMMs on the inputs as they stand at the start, with one digit size and one length (R286). -/
def Obligations.DualAlmostMontgomeryProducts : Prop :=
  ∀ (dg : DigitSize) (s : State), digitOk s.cfg.width dg = true →
    (encode (.ammdual dg)).toNat = 0x44 + 1024 * dg.bit ∧
    let d := digitBits dg
    let len := s.opnd 10
    let reg := fun i : Fin 16 => (⟨s.opnd i, len⟩ : Region)
    let val := fun i : Fin 16 => dvalAt s d (s.opnd i) len
    CompletesUnder
      (Contract.regions s .none [reg 1, reg 2, reg 3, reg 6, reg 7, reg 8] [reg 0, reg 5] ++
        Contract.amm s dg (s.opnd 1) (s.opnd 2) (s.opnd 3) (s.opnd 4) len ++
        Contract.amm s dg (s.opnd 6) (s.opnd 7) (s.opnd 8) (s.opnd 9) len)
      (exec (.ammdual dg) s) fun t =>
      ∃ y z, ammValue d len (val 1) (val 2) (val 3) y ∧ ammValue d len (val 6) (val 7) (val 8) z ∧
        DigitsAt t d (s.opnd 0) len y ∧ DigitsAt t d (s.opnd 5) len z ∧ Done t 0 0 ∧ Frame s t [reg 0, reg 5]

/-! ### Scramble table (44_scramble.md) -/

/-- SCRSIZE and EXPBUFSIZE give the table size and the scratch size, WINSIZE the window width of the source's table;
none changes anything else (R310, 45_exponentiation.md R330, R331). -/
def Obligations.SizeQueries : Prop :=
  ∀ (w : Win) (s : State), s.cfg.wf = true → OperandsFit s →
    (encode .winsize).toNat = 0x50 ∧ (encode (.scrsize w)).toNat = 0x48 + 4096 * w.toNat ∧
    (encode (.expbufsize w)).toNat = 0x51 + 4096 * w.toNat ∧
    let x := s.opnd 0
    let n := ceilDiv x s.cfg.W
    let gives := fun (i : Instr) (size : Nat) =>
      CompletesUnder [(1 ≤ x, .zeroLength), (size < 2 ^ s.cfg.W, .badLength)] (exec i s)
        (fun t => Done t size 0 ∧ Frame s t [])
    (∃ size, isTableSize s.cfg x w.toNat size ∧ gives (.scrsize w) size) ∧
    (∃ size, (w.toNat = 0 → size = 2 * n) ∧
      (w.toNat ≠ 0 → ∃ table, isTableSize s.cfg n w.toNat table ∧ size = table + 2 * n) ∧
      gives (.expbufsize w) size) ∧
    (∃ t k, exec .winsize s = .next t ∧ Done t k 0 ∧ Frame s t [] ∧
      (x ≤ 41 → k = 1) ∧ (41 < x → x ≤ 178 → k = 2) ∧ (178 < x → x ≤ 717 → k = 3) ∧
      (717 < x → x ≤ 2666 → k = 4) ∧ (2666 < x → x ≤ 4096 → k = 5) ∧ (4096 < x → k = 6))

/-- SCRPUT stores limb j of the value at LM[table + j·N + idx] and writes no other limb of the table (R311, R312). -/
def Obligations.ScrputStoresOneEntry : Prop :=
  ∀ (w : Win) (s : State), (encode (.scrput w)).toNat = 0x49 + 4096 * w.toNat ∧
    let bigN := 2 ^ w.toNat
    let table := s.opnd 0
    let idx := s.opnd 1
    let value := s.opnd 2
    let n := s.opnd 3
    CompletesUnder
      ((1 ≤ n, .zeroLength) :: (idx < bigN, .badIndex) ::
        (Contract.regions s .none [⟨value, n⟩] [⟨table, bigN * n⟩] ++ Contract.reads s [⟨value, n⟩]))
      (exec (.scrput w) s) fun t =>
      (∀ j, j < n → t.limbAt (table + j * bigN + idx) = s.limbAt (value + j)) ∧ Done t 0 0 ∧
      Frame s t ((List.range n).map (fun j => ⟨table + j * bigN + idx, 1⟩))

/-- SCRGET and SCRGETCT load entry idx; SCRGET needs only that entry written, SCRGETCT the whole table; SCRGETCT's
trace is the scan of every row and its duration no function of the index (R311, R313, R314). -/
def Obligations.ScrgetLoadsOneEntry : Prop :=
  ∀ (w : Win) (s : State),
    (encode (.scrget w)).toNat = 0x4A + 4096 * w.toNat ∧ (encode (.scrgetct w)).toNat = 0x4B + 4096 * w.toNat ∧
    let bigN := 2 ^ w.toNat
    let value := s.opnd 0
    let n := s.opnd 1
    let table := s.opnd 2
    let idx := s.opnd 3
    let c : Contract := (1 ≤ n, .zeroLength) :: (idx < bigN, .badIndex) ::
      Contract.regions s .none [⟨table, bigN * n⟩] [⟨value, n⟩]
    let loaded := fun t : State => ∀ j, j < n →
      (s.limbAt (table + j * bigN + idx)).isSome ∧ t.limbAt (value + j) = s.limbAt (table + j * bigN + idx)
    CompletesUnder ((∀ j, j < n → (s.limbAt (table + j * bigN + idx)).isSome, .uninitRead) :: c)
      (exec (.scrget w) s) (fun t => loaded t ∧ Done t 0 0 ∧ Frame s t [⟨value, n⟩]) ∧
    CompletesUnder (c ++ Contract.reads s [⟨table, bigN * n⟩]) (exec (.scrgetct w) s) (fun t =>
      loaded t ∧ Done t 0 0 ∧ Frame s t [⟨value, n⟩] ∧
      t.leak.trace = (List.range n).flatMap (fun j =>
        (List.range bigN).map (fun k => Access.read (table + j * bigN + k)) ++ [Access.write (value + j)]) ∧
      t.leak.duration = Config.scrgetctDuration s.cfg n w.toNat table value)

/-! ### Exponentiation (45_exponentiation.md) -/

/-- Every single exponentiation command, by whatever method and window, writes the value of R333 to Y, leaves its
scratch region written with unspecified values, and changes nothing else (R332 to R338): EXPBIN, EXPBINCT, EXPWIN and
EXPWINCT give identical results. -/
def Obligations.ExponentiationsGiveThePower : Prop :=
  ∀ (c : Slot) (dom : Domain) (w : Win) (s : State), 1 ≤ w.toNat → CtxOk s.cfg (s.ctx c) →
    let x := s.ctx c
    let n := ctxLen x
    let y := s.opnd 0
    let xb := s.opnd 1
    let eb := s.opnd 2
    let bitsE := s.opnd 3
    let scratch := s.opnd 4
    let ne := ceilDiv bitsE s.cfg.W
    let gives := fun (i : Instr) (opc : Nat) (win : Nat) =>
      let size := expBuf s.cfg n win
      (encode i).toNat = opc + 256 * c.bit + 512 * dom.bit + 4096 * win ∧
      CompletesUnder
        (Contract.context s c opc ++ Contract.regions s .a1 [⟨xb, n⟩, ⟨eb, ne⟩] [⟨y, n⟩, ⟨scratch, size⟩] ++
          Contract.exponent s x xb eb bitsE)
        (exec i s) (fun t =>
        ∃ v, isPower dom (ctxM s.cfg x) (ctxR s.cfg x) (valAt s xb n) (valAt s eb ne) v ∧
          t.memRead y n = some v ∧ Written t scratch size ∧ Done t 0 0 ∧ Frame s t [⟨y, n⟩, ⟨scratch, size⟩])
    gives (.expbin c dom) 0x52 0 ∧ gives (.expbinct c dom) 0x53 0 ∧
    gives (.expwin c dom w) 0x54 w.toNat ∧ gives (.expwinct c dom w) 0x55 w.toNat

/-- DUALEXPWINCT writes both powers, over context 0 and context 1 of one length (R339). -/
def Obligations.DualExponentiationGivesBothPowers : Prop :=
  ∀ (dom : Domain) (w : Win) (s : State), 1 ≤ w.toNat → CtxOk s.cfg s.ctx0 → CtxOk s.cfg s.ctx1 →
    (encode (.dualexpwinct dom w)).toNat = 0x56 + 512 * dom.bit + 4096 * w.toNat ∧
    let n := ctxLen s.ctx0
    let size := 2 * expBuf s.cfg n w.toNat
    let ne := fun bits => ceilDiv bits s.cfg.W
    CompletesUnder
      ((s.ctx0.modLen = s.ctx1.modLen, .lengthMismatch) ::
        (Contract.context s .c0 0x56 ++ Contract.context s .c1 0x56 ++
          Contract.regions s .none
            [⟨s.opnd 1, n⟩, ⟨s.opnd 2, ne (s.opnd 3)⟩, ⟨s.opnd 5, n⟩, ⟨s.opnd 6, ne (s.opnd 7)⟩]
            [⟨s.opnd 0, n⟩, ⟨s.opnd 4, n⟩, ⟨s.opnd 8, size⟩] ++
          Contract.exponent s s.ctx0 (s.opnd 1) (s.opnd 2) (s.opnd 3) ++
          Contract.exponent s s.ctx1 (s.opnd 5) (s.opnd 6) (s.opnd 7)))
      (exec (.dualexpwinct dom w) s) fun t =>
      ∃ v0 v1,
        isPower dom (ctxM s.cfg s.ctx0) (ctxR s.cfg s.ctx0) (valAt s (s.opnd 1) n)
          (valAt s (s.opnd 2) (ne (s.opnd 3))) v0 ∧
        isPower dom (ctxM s.cfg s.ctx1) (ctxR s.cfg s.ctx1) (valAt s (s.opnd 5) n)
          (valAt s (s.opnd 6) (ne (s.opnd 7))) v1 ∧
        t.memRead (s.opnd 0) n = some v0 ∧ t.memRead (s.opnd 4) n = some v1 ∧ Written t (s.opnd 8) size ∧
        Done t 0 0 ∧ Frame s t [⟨s.opnd 0, n⟩, ⟨s.opnd 4, n⟩, ⟨s.opnd 8, size⟩]

/-! ### Octet strings and NOP (46_octet_misc.md) -/

/-- OS2BN: R takes the value of the big-endian octet string, zero-extended, RES0 its logical length (R360). -/
def Obligations.OctetStringToLimbs : Prop :=
  (encode .os2bn).toNat = 0x60 ∧
  ∀ s : State, OperandsFit s →
    let r := s.opnd 0
    let n := s.opnd 1
    let src := s.opnd 2
    let len := s.opnd 3
    CompletesUnder
      [(r + n ≤ s.cfg.lmLimbs ∧ src + len ≤ s.cfg.lmLimbs * s.cfg.bpl, .outOfBounds),
        (∀ i, i < len → ¬ (r ≤ (src + i) / s.cfg.bpl ∧ (src + i) / s.cfg.bpl < r + n), .overlap),
        (1 ≤ n, .zeroLength), (len ≤ n * s.cfg.bpl, .badLength), (OctetsWritten s src len, .uninitRead)]
      (exec .os2bn s) fun t =>
      ∃ k, t.memRead r n = some (octetSum s src len) ∧ IsLength s.cfg.W (octetSum s src len) k ∧ Done t k 0 ∧
        Frame s t [⟨r, n⟩]

/-- BN2OS: the octets of the value, most significant first, zero-padded on the left, RES0 the minimal byte length; a
value that needs more than outLen octets is Err(TOO_SMALL) and nothing is written (R361). -/
def Obligations.LimbsToOctetString : Prop :=
  (encode .bn2os).toNat = 0x61 ∧
  ∀ s : State, OperandsFit s →
    let dst := s.opnd 0
    let outLen := s.opnd 1
    let a := s.opnd 2
    let n := s.opnd 3
    let v := valAt s a n
    let k := ceilDiv (Nat.size v) 8
    CompletesUnder
      [(a + n ≤ s.cfg.lmLimbs ∧ dst + outLen ≤ s.cfg.lmLimbs * s.cfg.bpl, .outOfBounds),
        (∀ i, i < outLen → ¬ (a ≤ (dst + i) / s.cfg.bpl ∧ (dst + i) / s.cfg.bpl < a + n), .overlap),
        (1 ≤ n, .zeroLength), (Written s a n, .uninitRead)]
      (exec .bn2os s) fun t =>
      Frame s { t with lm := s.lm } [] ∧
      (outLen < k → Failed t .tooSmall ∧ t.lm = s.lm) ∧
      (k ≤ outLen → Done t k 0 ∧
        (∀ i, i < outLen →
          Memory.byteAt t.lm (dst + i) = some (BitVec.ofNat 8 (v / 2 ^ (8 * (outLen - 1 - i))))) ∧
        ∀ b, ¬ (dst ≤ b ∧ b < dst + outLen) → Memory.byteAt t.lm b = Memory.byteAt s.lm b)

/-- NOP has no effect beyond STATUS, RES0 and RES1 (R362). -/
def Obligations.NopChangesNothingElse : Prop :=
  (encode .nop).toNat = 0 ∧
  ∀ s : State, ∃ t, exec .nop s = .next t ∧ Done t 0 0 ∧ Frame s t [] ∧ t.lm = s.lm

/-! ### Leakage (20_memory.md R82) -/

/-- The leakage of a constant-time command, trace and duration, is a function of the command, its public ARG values
and, for an exponentiation, MOD_BITS and MOD_LEN of its contexts: two runs that agree on these leak the same, whatever
LM, the context constants and the secret ARG values hold (R82, with the public ARGs of 40_bnu.md R154, R155,
44_scramble.md R314, 45_exponentiation.md R332). -/
def Obligations.ConstantTimeLeakage : Prop :=
  ∀ (s s' t t' : State) (c : Slot) (dom : Domain) (w : Win), s.cfg = s'.cfg →
    let samePublic := fun k : Nat => ∀ i : Fin 16, i.val < k → s.latched.get i = s'.latched.get i
    let sameSize := fun c : Slot => (s.ctx c).modBits = (s'.ctx c).modBits ∧ (s.ctx c).modLen = (s'.ctx c).modLen
    let leaksAlike := fun i : Instr => exec i s = .next t → exec i s' = .next t' → t.leak = t'.leak
    (samePublic 4 → leaksAlike .cmpct) ∧ (samePublic 4 → leaksAlike .maskcopy) ∧
    (samePublic 3 → leaksAlike (.scrgetct w)) ∧
    (samePublic 5 → sameSize c → leaksAlike (.expbinct c dom)) ∧
    (samePublic 5 → sameSize c → leaksAlike (.expwinct c dom w)) ∧
    (samePublic 9 → sameSize .c0 → sameSize .c1 → leaksAlike (.dualexpwinct dom w))
end

