-- ==== Sys2Proof/Laws/Arith.lean ====
section
/-! SUPPORT. What the integer functions compute: the modular inverse, the Montgomery factor and reduction, lengths. -/

namespace Sys2Proof.Machine

open Sys2Proof

/-- Extended Euclid finds the coefficients of the gcd, given more fuel than the second argument. -/
theorem egcd_spec (fuel a b : Nat) (h : b < fuel) :
    (a : Int) * (egcd fuel a b).1 + b * (egcd fuel a b).2 = Nat.gcd a b := by
  induction fuel generalizing a b with
  | zero => omega
  | succ f ih =>
    rw [egcd]
    split
    next hb => subst hb; simp
    next hb =>
      have hb' : 0 < b := Nat.pos_of_ne_zero hb
      have hr : a % b < f := by have := Nat.mod_lt a hb'; omega
      have key := ih b (a % b) hr
      have hg : Nat.gcd b (a % b) = Nat.gcd a b := by rw [Nat.gcd_comm, ← Nat.gcd_rec, Nat.gcd_comm]
      rw [hg] at key
      have hd : (a : Int) = b * ((a / b : Nat) : Int) + ((a % b : Nat) : Int) := by
        exact_mod_cast (Nat.div_add_mod a b).symm
      rw [← key]
      linear_combination ((egcd f b (a % b)).2) * hd

/-- The inverse lies in [0, m) (00_scope.md R12). -/
theorem invMod_lt {m : Nat} (x : Nat) (hm : 0 < m) : invMod x m < m := by
  have hm' : (0 : Int) < m := by exact_mod_cast hm
  have h1 := Int.emod_nonneg (egcd (m + 1) (x % m) m).1 (ne_of_gt hm')
  have h2 := Int.emod_lt_of_pos (egcd (m + 1) (x % m) m).1 hm'
  unfold invMod
  omega

/-- The inverse is one (00_scope.md R12). -/
theorem invMod_spec {x m : Nat} (hm : 0 < m) (h : Nat.gcd x m = 1) : x * invMod x m % m = 1 % m := by
  have key := egcd_spec (m + 1) (x % m) m (by omega)
  have hg : Nat.gcd (x % m) m = 1 := by rw [← Nat.gcd_rec, Nat.gcd_comm]; exact h
  rw [hg] at key
  have hm' : (0 : Int) < m := by exact_mod_cast hm
  set u := (egcd (m + 1) (x % m) m).1 with hu
  have hinv : ((invMod x m : Nat) : Int) = u % m := by
    unfold invMod
    rw [← hu]
    exact Int.toNat_of_nonneg (Int.emod_nonneg _ (ne_of_gt hm'))
  have : ((x * invMod x m : Nat) : Int) ≡ 1 [ZMOD m] := by
    push_cast
    rw [hinv]
    have h1 : (x : Int) ≡ ((x % m : Nat) : Int) [ZMOD m] := by
      push_cast; exact (Int.mod_modEq _ _).symm
    calc (x : Int) * (u % m) ≡ ((x % m : Nat) : Int) * u [ZMOD m] := h1.mul (Int.mod_modEq _ _)
      _ = 1 - m * (egcd (m + 1) (x % m) m).2 := by push_cast at key ⊢; linarith
      _ ≡ 1 [ZMOD m] := by
        apply Int.modEq_iff_dvd.mpr
        exact ⟨(egcd (m + 1) (x % m) m).2, by ring⟩
  have h2 : (x * invMod x m) ≡ 1 [MOD m] := by exact_mod_cast this
  exact h2

theorem gcd_two_pow_of_odd {x k : Nat} (h : x % 2 = 1) : Nat.gcd x (2 ^ k) = 1 :=
  Nat.Coprime.pow_right k ((Nat.coprime_two_right).mpr (Nat.odd_iff.mpr h))

/-- The Montgomery factor: x · negInv x q ≡ -1 (mod q) (42_montgomery.md R234). -/
theorem negInv_spec {x q : Nat} (hq : 1 < q) (h : Nat.gcd x q = 1) : (x * negInv x q + 1) % q = 0 := by
  have hg : Nat.gcd (x % q) q = 1 := by rw [← Nat.gcd_rec, Nat.gcd_comm]; exact h
  have hspec := invMod_spec (x := x % q) (by omega) hg
  have hlt := invMod_lt (m := q) (x % q) (by omega)
  set y := invMod (x % q) q with hy
  have hxy : x * y ≡ 1 [MOD q] := ((Nat.mod_modEq x q).symm.mul_right y).trans hspec
  have hn : negInv x q = (q - y) % q := rfl
  rw [hn]
  have h1 : x * ((q - y) % q) + 1 ≡ x * (q - y) + x * y [MOD q] :=
    ((Nat.mod_modEq _ _).mul_left x).add hxy.symm
  have h2 : x * (q - y) + x * y = x * q := by rw [← Nat.mul_add, Nat.sub_add_cancel hlt.le]
  rw [h2] at h1
  have h3 : x * q ≡ 0 [MOD q] := (Nat.modEq_zero_iff_dvd.mpr (Dvd.intro_left x rfl))
  exact h1.trans h3

theorem negInv_lt {q : Nat} (x : Nat) (hq : 0 < q) : negInv x q < q := Nat.mod_lt _ hq

/-- Montgomery reduction (42_montgomery.md R241): the result lies in [0, m) and is T · R⁻¹ modulo m. -/
theorem redc_spec {m R T : Nat} (hR : 1 < R) (hg : Nat.gcd m R = 1) (hT : T < m * R) :
    redc m R T < m ∧ redc m R T * R % m = T % m := by
  have hm : 0 < m := by
    rcases Nat.eq_zero_or_pos m with rfl | h
    · simp at hT
    · exact h
  have hRpos : 0 < R := by omega
  set Q := (R - T % R) * invMod m R % R with hQ
  have hQlt : Q < R := Nat.mod_lt _ hRpos
  have hinv := invMod_spec hRpos hg
  have hTR : T % R < R := Nat.mod_lt _ hRpos
  have hdiv : (T + Q * m) % R = 0 := by
    have e1 : Q * m ≡ (R - T % R) * (m * invMod m R) [MOD R] := by
      have : Q ≡ (R - T % R) * invMod m R [MOD R] := Nat.mod_modEq _ _
      calc Q * m ≡ (R - T % R) * invMod m R * m [MOD R] := this.mul_right m
        _ = (R - T % R) * (m * invMod m R) := by ring
    have e2 : Q * m ≡ (R - T % R) * 1 [MOD R] := e1.trans (Nat.ModEq.mul_left _ hinv)
    have e3 : T + Q * m ≡ T % R + (R - T % R) * 1 [MOD R] := (Nat.mod_modEq T R).symm.add e2
    have e4 : T % R + (R - T % R) * 1 = R := by omega
    rw [e4] at e3
    have : T + Q * m ≡ 0 [MOD R] := e3.trans (Nat.modEq_zero_iff_dvd.mpr dvd_rfl)
    exact this
  obtain ⟨t, ht⟩ : R ∣ T + Q * m := Nat.dvd_of_mod_eq_zero hdiv
  have htd : (T + Q * m) / R = t := by rw [ht]; exact Nat.mul_div_cancel_left t hRpos
  have hr : redc m R T = if m ≤ t then t - m else t := by
    unfold redc
    simp only [← hQ, htd]
  have htlt : t < 2 * m := by
    have h1 : Q * m ≤ (R - 1) * m := Nat.mul_le_mul_right m (by omega)
    have h2 : R * t < R * (2 * m) := by
      rw [← ht]
      have : (R - 1) * m + m = R * m := by
        rw [← Nat.succ_mul]; congr 1; omega
      have h3 : m * R = R * m := Nat.mul_comm _ _
      have h4 : R * (2 * m) = R * m + R * m := by ring
      omega
    exact Nat.lt_of_mul_lt_mul_left h2
  have htmod : t * R % m = T % m := by
    rw [Nat.mul_comm, ← ht]
    exact Nat.add_mul_mod_self_right T Q m
  rw [hr]
  split
  next h =>
    refine ⟨by omega, ?_⟩
    rw [← htmod]
    obtain ⟨u, rfl⟩ := Nat.exists_eq_add_of_le h
    rw [Nat.add_sub_cancel_left, Nat.add_mul, Nat.mul_comm m R, Nat.add_comm, Nat.add_mul_mod_self_right]
  next h => exact ⟨by omega, htmod⟩

/-- What the logical length counts (41_division.md R200). -/
theorem lenOf_spec {W v : Nat} (hW : 0 < W) :
    1 ≤ lenOf W v ∧ v < 2 ^ (W * lenOf W v) ∧ (v ≠ 0 → 2 ^ (W * (lenOf W v - 1)) ≤ v) := by
  unfold lenOf
  split
  next h => subst h; simp
  next h =>
    refine ⟨Nat.le_add_left 1 _, ?_, fun _ => ?_⟩
    · have h1 := Nat.lt_log2_self (n := v)
      refine h1.trans_le (Nat.pow_le_pow_right (by omega) ?_)
      exact Nat.lt_mul_div_succ (Nat.log2 v) hW
    · have h1 := Nat.log2_self_le h
      refine (Nat.pow_le_pow_right (by omega) ?_).trans h1
      rw [Nat.add_sub_cancel]
      exact Nat.mul_div_le _ _

theorem lenOf_le {W v n : Nat} (hW : 0 < W) (hn : 1 ≤ n) (h : v < 2 ^ (W * n)) : lenOf W v ≤ n := by
  obtain ⟨h1, _, h3⟩ := lenOf_spec (v := v) hW
  by_cases h0 : v = 0
  · simp [lenOf, h0, hn]
  · have := (Nat.pow_lt_pow_iff_right (a := 2) (by omega)).mp ((h3 h0).trans_lt h)
    have := Nat.lt_of_mul_lt_mul_left this
    omega

end Sys2Proof.Machine
end

