-- ==== Sys2Proof/Laws/State.lean ====
section
/-! SUPPORT. One lemma per field per update of State: what each named operation leaves of every field. -/

namespace Sys2Proof.Machine

open Sys2Proof

variable (s : State)

/-! ### setLimb -/

@[simp] theorem setLimb_cfg (a v : Nat) : (s.setLimb a v).cfg = s.cfg := rfl
@[simp] theorem setLimb_cmd (a v : Nat) : (s.setLimb a v).cmd = s.cmd := rfl
@[simp] theorem setLimb_status (a v : Nat) : (s.setLimb a v).status = s.status := rfl
@[simp] theorem setLimb_res0 (a v : Nat) : (s.setLimb a v).res0 = s.res0 := rfl
@[simp] theorem setLimb_res1 (a v : Nat) : (s.setLimb a v).res1 = s.res1 := rfl
@[simp] theorem setLimb_args (a v : Nat) : (s.setLimb a v).args = s.args := rfl
@[simp] theorem setLimb_ctx0 (a v : Nat) : (s.setLimb a v).ctx0 = s.ctx0 := rfl
@[simp] theorem setLimb_ctx1 (a v : Nat) : (s.setLimb a v).ctx1 = s.ctx1 := rfl
@[simp] theorem setLimb_phase (a v : Nat) : (s.setLimb a v).phase = s.phase := rfl
@[simp] theorem setLimb_lm (a v : Nat) : (s.setLimb a v).lm = Memory.writeBytes s.lm (a * s.cfg.bpl) (valBytes s.cfg.bpl v) := rfl
@[simp] theorem setLimb_leak (a v : Nat) : (s.setLimb a v).leak = s.leak := rfl
@[simp] theorem setLimb_fresh (a v : Nat) : (s.setLimb a v).fresh = s.fresh := rfl
@[simp] theorem setLimb_hostData (a v : Nat) : (s.setLimb a v).hostData = s.hostData := rfl
@[simp] theorem setLimb_schedule (a v : Nat) : (s.setLimb a v).schedule = s.schedule := rfl
@[simp] theorem setLimb_draws (a v : Nat) : (s.setLimb a v).draws = s.draws := rfl

/-! ### setLimbs and the region writes over it -/

/-- Storing limbs changes LM and nothing else. -/
theorem setLimbs_only_lm (st a : Nat) (l : List Nat) :
    State.setLimbs st s a l = { s with lm := (State.setLimbs st s a l).lm } := by
  induction l generalizing s a with
  | nil => rfl
  | cons x xs ih => rw [State.setLimbs, ih]; rfl

@[simp] theorem setLimbs_cfg (st a : Nat) (l : List Nat) : (State.setLimbs st s a l).cfg = s.cfg := by
  rw [setLimbs_only_lm]
@[simp] theorem setLimbs_cmd (st a : Nat) (l : List Nat) : (State.setLimbs st s a l).cmd = s.cmd := by
  rw [setLimbs_only_lm]
@[simp] theorem setLimbs_status (st a : Nat) (l : List Nat) : (State.setLimbs st s a l).status = s.status := by
  rw [setLimbs_only_lm]
@[simp] theorem setLimbs_res0 (st a : Nat) (l : List Nat) : (State.setLimbs st s a l).res0 = s.res0 := by
  rw [setLimbs_only_lm]
@[simp] theorem setLimbs_res1 (st a : Nat) (l : List Nat) : (State.setLimbs st s a l).res1 = s.res1 := by
  rw [setLimbs_only_lm]
@[simp] theorem setLimbs_args (st a : Nat) (l : List Nat) : (State.setLimbs st s a l).args = s.args := by
  rw [setLimbs_only_lm]
@[simp] theorem setLimbs_ctx0 (st a : Nat) (l : List Nat) : (State.setLimbs st s a l).ctx0 = s.ctx0 := by
  rw [setLimbs_only_lm]
@[simp] theorem setLimbs_ctx1 (st a : Nat) (l : List Nat) : (State.setLimbs st s a l).ctx1 = s.ctx1 := by
  rw [setLimbs_only_lm]
@[simp] theorem setLimbs_phase (st a : Nat) (l : List Nat) : (State.setLimbs st s a l).phase = s.phase := by
  rw [setLimbs_only_lm]
@[simp] theorem setLimbs_leak (st a : Nat) (l : List Nat) : (State.setLimbs st s a l).leak = s.leak := by
  rw [setLimbs_only_lm]
@[simp] theorem setLimbs_fresh (st a : Nat) (l : List Nat) : (State.setLimbs st s a l).fresh = s.fresh := by
  rw [setLimbs_only_lm]
@[simp] theorem setLimbs_hostData (st a : Nat) (l : List Nat) : (State.setLimbs st s a l).hostData = s.hostData := by
  rw [setLimbs_only_lm]
@[simp] theorem setLimbs_schedule (st a : Nat) (l : List Nat) : (State.setLimbs st s a l).schedule = s.schedule := by
  rw [setLimbs_only_lm]
@[simp] theorem setLimbs_draws (st a : Nat) (l : List Nat) : (State.setLimbs st s a l).draws = s.draws := by
  rw [setLimbs_only_lm]

/-! ### memWrite -/

@[simp] theorem memWrite_cfg (a n v : Nat) : (s.memWrite a n v).cfg = s.cfg := setLimbs_cfg _ _ _ _
@[simp] theorem memWrite_cmd (a n v : Nat) : (s.memWrite a n v).cmd = s.cmd := setLimbs_cmd _ _ _ _
@[simp] theorem memWrite_status (a n v : Nat) : (s.memWrite a n v).status = s.status := setLimbs_status _ _ _ _
@[simp] theorem memWrite_res0 (a n v : Nat) : (s.memWrite a n v).res0 = s.res0 := setLimbs_res0 _ _ _ _
@[simp] theorem memWrite_res1 (a n v : Nat) : (s.memWrite a n v).res1 = s.res1 := setLimbs_res1 _ _ _ _
@[simp] theorem memWrite_args (a n v : Nat) : (s.memWrite a n v).args = s.args := setLimbs_args _ _ _ _
@[simp] theorem memWrite_ctx0 (a n v : Nat) : (s.memWrite a n v).ctx0 = s.ctx0 := setLimbs_ctx0 _ _ _ _
@[simp] theorem memWrite_ctx1 (a n v : Nat) : (s.memWrite a n v).ctx1 = s.ctx1 := setLimbs_ctx1 _ _ _ _
@[simp] theorem memWrite_phase (a n v : Nat) : (s.memWrite a n v).phase = s.phase := setLimbs_phase _ _ _ _
@[simp] theorem memWrite_leak (a n v : Nat) : (s.memWrite a n v).leak = s.leak := setLimbs_leak _ _ _ _
@[simp] theorem memWrite_fresh (a n v : Nat) : (s.memWrite a n v).fresh = s.fresh := setLimbs_fresh _ _ _ _
@[simp] theorem memWrite_hostData (a n v : Nat) : (s.memWrite a n v).hostData = s.hostData := setLimbs_hostData _ _ _ _
@[simp] theorem memWrite_schedule (a n v : Nat) : (s.memWrite a n v).schedule = s.schedule := setLimbs_schedule _ _ _ _
@[simp] theorem memWrite_draws (a n v : Nat) : (s.memWrite a n v).draws = s.draws := setLimbs_draws _ _ _ _

/-! ### digWrite -/

@[simp] theorem digWrite_cfg (d a n v : Nat) : (s.digWrite d a n v).cfg = s.cfg := setLimbs_cfg _ _ _ _
@[simp] theorem digWrite_cmd (d a n v : Nat) : (s.digWrite d a n v).cmd = s.cmd := setLimbs_cmd _ _ _ _
@[simp] theorem digWrite_status (d a n v : Nat) : (s.digWrite d a n v).status = s.status := setLimbs_status _ _ _ _
@[simp] theorem digWrite_res0 (d a n v : Nat) : (s.digWrite d a n v).res0 = s.res0 := setLimbs_res0 _ _ _ _
@[simp] theorem digWrite_res1 (d a n v : Nat) : (s.digWrite d a n v).res1 = s.res1 := setLimbs_res1 _ _ _ _
@[simp] theorem digWrite_args (d a n v : Nat) : (s.digWrite d a n v).args = s.args := setLimbs_args _ _ _ _
@[simp] theorem digWrite_ctx0 (d a n v : Nat) : (s.digWrite d a n v).ctx0 = s.ctx0 := setLimbs_ctx0 _ _ _ _
@[simp] theorem digWrite_ctx1 (d a n v : Nat) : (s.digWrite d a n v).ctx1 = s.ctx1 := setLimbs_ctx1 _ _ _ _
@[simp] theorem digWrite_phase (d a n v : Nat) : (s.digWrite d a n v).phase = s.phase := setLimbs_phase _ _ _ _
@[simp] theorem digWrite_leak (d a n v : Nat) : (s.digWrite d a n v).leak = s.leak := setLimbs_leak _ _ _ _
@[simp] theorem digWrite_fresh (d a n v : Nat) : (s.digWrite d a n v).fresh = s.fresh := setLimbs_fresh _ _ _ _
@[simp] theorem digWrite_hostData (d a n v : Nat) : (s.digWrite d a n v).hostData = s.hostData := setLimbs_hostData _ _ _ _
@[simp] theorem digWrite_schedule (d a n v : Nat) : (s.digWrite d a n v).schedule = s.schedule := setLimbs_schedule _ _ _ _
@[simp] theorem digWrite_draws (d a n v : Nat) : (s.digWrite d a n v).draws = s.draws := setLimbs_draws _ _ _ _

/-! ### havoc -/

@[simp] theorem havoc_cfg (a n : Nat) : (s.havoc a n).cfg = s.cfg := setLimbs_cfg _ _ _ _
@[simp] theorem havoc_cmd (a n : Nat) : (s.havoc a n).cmd = s.cmd := setLimbs_cmd _ _ _ _
@[simp] theorem havoc_status (a n : Nat) : (s.havoc a n).status = s.status := setLimbs_status _ _ _ _
@[simp] theorem havoc_res0 (a n : Nat) : (s.havoc a n).res0 = s.res0 := setLimbs_res0 _ _ _ _
@[simp] theorem havoc_res1 (a n : Nat) : (s.havoc a n).res1 = s.res1 := setLimbs_res1 _ _ _ _
@[simp] theorem havoc_args (a n : Nat) : (s.havoc a n).args = s.args := setLimbs_args _ _ _ _
@[simp] theorem havoc_ctx0 (a n : Nat) : (s.havoc a n).ctx0 = s.ctx0 := setLimbs_ctx0 _ _ _ _
@[simp] theorem havoc_ctx1 (a n : Nat) : (s.havoc a n).ctx1 = s.ctx1 := setLimbs_ctx1 _ _ _ _
@[simp] theorem havoc_phase (a n : Nat) : (s.havoc a n).phase = s.phase := setLimbs_phase _ _ _ _
@[simp] theorem havoc_leak (a n : Nat) : (s.havoc a n).leak = s.leak := setLimbs_leak _ _ _ _
@[simp] theorem havoc_fresh (a n : Nat) : (s.havoc a n).fresh = s.fresh := setLimbs_fresh _ _ _ _
@[simp] theorem havoc_hostData (a n : Nat) : (s.havoc a n).hostData = s.hostData := setLimbs_hostData _ _ _ _
@[simp] theorem havoc_schedule (a n : Nat) : (s.havoc a n).schedule = s.schedule := setLimbs_schedule _ _ _ _
@[simp] theorem havoc_draws (a n : Nat) : (s.havoc a n).draws = s.draws := setLimbs_draws _ _ _ _

/-! ### octetsWrite -/

@[simp] theorem octetsWrite_cfg (b k v : Nat) : (s.octetsWrite b k v).cfg = s.cfg := rfl
@[simp] theorem octetsWrite_cmd (b k v : Nat) : (s.octetsWrite b k v).cmd = s.cmd := rfl
@[simp] theorem octetsWrite_status (b k v : Nat) : (s.octetsWrite b k v).status = s.status := rfl
@[simp] theorem octetsWrite_res0 (b k v : Nat) : (s.octetsWrite b k v).res0 = s.res0 := rfl
@[simp] theorem octetsWrite_res1 (b k v : Nat) : (s.octetsWrite b k v).res1 = s.res1 := rfl
@[simp] theorem octetsWrite_args (b k v : Nat) : (s.octetsWrite b k v).args = s.args := rfl
@[simp] theorem octetsWrite_ctx0 (b k v : Nat) : (s.octetsWrite b k v).ctx0 = s.ctx0 := rfl
@[simp] theorem octetsWrite_ctx1 (b k v : Nat) : (s.octetsWrite b k v).ctx1 = s.ctx1 := rfl
@[simp] theorem octetsWrite_phase (b k v : Nat) : (s.octetsWrite b k v).phase = s.phase := rfl
@[simp] theorem octetsWrite_lm (b k v : Nat) : (s.octetsWrite b k v).lm = Memory.writeBytes s.lm b (valBytes k v).reverse := rfl
@[simp] theorem octetsWrite_leak (b k v : Nat) : (s.octetsWrite b k v).leak = s.leak := rfl
@[simp] theorem octetsWrite_fresh (b k v : Nat) : (s.octetsWrite b k v).fresh = s.fresh := rfl
@[simp] theorem octetsWrite_hostData (b k v : Nat) : (s.octetsWrite b k v).hostData = s.hostData := rfl
@[simp] theorem octetsWrite_schedule (b k v : Nat) : (s.octetsWrite b k v).schedule = s.schedule := rfl
@[simp] theorem octetsWrite_draws (b k v : Nat) : (s.octetsWrite b k v).draws = s.draws := rfl

/-! ### setCtx -/

@[simp] theorem setCtx_cfg (c : Slot) (x : Ctx) : (s.setCtx c x).cfg = s.cfg := by cases c <;> rfl
@[simp] theorem setCtx_cmd (c : Slot) (x : Ctx) : (s.setCtx c x).cmd = s.cmd := by cases c <;> rfl
@[simp] theorem setCtx_status (c : Slot) (x : Ctx) : (s.setCtx c x).status = s.status := by cases c <;> rfl
@[simp] theorem setCtx_res0 (c : Slot) (x : Ctx) : (s.setCtx c x).res0 = s.res0 := by cases c <;> rfl
@[simp] theorem setCtx_res1 (c : Slot) (x : Ctx) : (s.setCtx c x).res1 = s.res1 := by cases c <;> rfl
@[simp] theorem setCtx_args (c : Slot) (x : Ctx) : (s.setCtx c x).args = s.args := by cases c <;> rfl
@[simp] theorem setCtx_phase (c : Slot) (x : Ctx) : (s.setCtx c x).phase = s.phase := by cases c <;> rfl
@[simp] theorem setCtx_lm (c : Slot) (x : Ctx) : (s.setCtx c x).lm = s.lm := by cases c <;> rfl
@[simp] theorem setCtx_leak (c : Slot) (x : Ctx) : (s.setCtx c x).leak = s.leak := by cases c <;> rfl
@[simp] theorem setCtx_fresh (c : Slot) (x : Ctx) : (s.setCtx c x).fresh = s.fresh := by cases c <;> rfl
@[simp] theorem setCtx_hostData (c : Slot) (x : Ctx) : (s.setCtx c x).hostData = s.hostData := by cases c <;> rfl
@[simp] theorem setCtx_schedule (c : Slot) (x : Ctx) : (s.setCtx c x).schedule = s.schedule := by cases c <;> rfl
@[simp] theorem setCtx_draws (c : Slot) (x : Ctx) : (s.setCtx c x).draws = s.draws := by cases c <;> rfl

@[simp] theorem setCtx_ctx_same (c : Slot) (x : Ctx) : (s.setCtx c x).ctx c = x := by cases c <;> rfl

theorem setCtx_ctx_other {c c' : Slot} (x : Ctx) (h : c' ≠ c) : (s.setCtx c x).ctx c' = s.ctx c' := by
  cases c <;> cases c' <;> first | rfl | exact absurd rfl h

@[simp] theorem setCtx_c0_ctx0 (x : Ctx) : (s.setCtx .c0 x).ctx0 = x := rfl
@[simp] theorem setCtx_c0_ctx1 (x : Ctx) : (s.setCtx .c0 x).ctx1 = s.ctx1 := rfl
@[simp] theorem setCtx_c1_ctx0 (x : Ctx) : (s.setCtx .c1 x).ctx0 = s.ctx0 := rfl
@[simp] theorem setCtx_c1_ctx1 (x : Ctx) : (s.setCtx .c1 x).ctx1 = x := rfl

/-! ### finish -/

@[simp] theorem finish_cfg (e : ErrCode) (r0 r1 : Nat) (l : Leak) : (s.finish e r0 r1 l).cfg = s.cfg := rfl
@[simp] theorem finish_cmd (e : ErrCode) (r0 r1 : Nat) (l : Leak) : (s.finish e r0 r1 l).cmd = s.cmd := rfl
@[simp] theorem finish_status (e : ErrCode) (r0 r1 : Nat) (l : Leak) : (s.finish e r0 r1 l).status = ⟨false, true, e⟩ := rfl
@[simp] theorem finish_res0 (e : ErrCode) (r0 r1 : Nat) (l : Leak) : (s.finish e r0 r1 l).res0 = wordOf s.cfg r0 := rfl
@[simp] theorem finish_res1 (e : ErrCode) (r0 r1 : Nat) (l : Leak) : (s.finish e r0 r1 l).res1 = wordOf s.cfg r1 := rfl
@[simp] theorem finish_args (e : ErrCode) (r0 r1 : Nat) (l : Leak) : (s.finish e r0 r1 l).args = s.args := rfl
@[simp] theorem finish_ctx0 (e : ErrCode) (r0 r1 : Nat) (l : Leak) : (s.finish e r0 r1 l).ctx0 = s.ctx0 := rfl
@[simp] theorem finish_ctx1 (e : ErrCode) (r0 r1 : Nat) (l : Leak) : (s.finish e r0 r1 l).ctx1 = s.ctx1 := rfl
@[simp] theorem finish_phase (e : ErrCode) (r0 r1 : Nat) (l : Leak) : (s.finish e r0 r1 l).phase = .idle := rfl
@[simp] theorem finish_lm (e : ErrCode) (r0 r1 : Nat) (l : Leak) : (s.finish e r0 r1 l).lm = s.lm := rfl
@[simp] theorem finish_leak (e : ErrCode) (r0 r1 : Nat) (l : Leak) : (s.finish e r0 r1 l).leak = l := rfl
@[simp] theorem finish_fresh (e : ErrCode) (r0 r1 : Nat) (l : Leak) : (s.finish e r0 r1 l).fresh = false := rfl
@[simp] theorem finish_hostData (e : ErrCode) (r0 r1 : Nat) (l : Leak) : (s.finish e r0 r1 l).hostData = s.hostData := rfl
@[simp] theorem finish_schedule (e : ErrCode) (r0 r1 : Nat) (l : Leak) : (s.finish e r0 r1 l).schedule = s.schedule := rfl
@[simp] theorem finish_draws (e : ErrCode) (r0 r1 : Nat) (l : Leak) : (s.finish e r0 r1 l).draws = s.draws + 1 := rfl

/-! ### complete -/

@[simp] theorem complete_cfg (r0 r1 : Nat) (l : Leak) : (s.complete r0 r1 l).cfg = s.cfg := rfl
@[simp] theorem complete_cmd (r0 r1 : Nat) (l : Leak) : (s.complete r0 r1 l).cmd = s.cmd := rfl
@[simp] theorem complete_status (r0 r1 : Nat) (l : Leak) : (s.complete r0 r1 l).status = ⟨false, true, .none⟩ := rfl
@[simp] theorem complete_res0 (r0 r1 : Nat) (l : Leak) : (s.complete r0 r1 l).res0 = wordOf s.cfg r0 := rfl
@[simp] theorem complete_res1 (r0 r1 : Nat) (l : Leak) : (s.complete r0 r1 l).res1 = wordOf s.cfg r1 := rfl
@[simp] theorem complete_args (r0 r1 : Nat) (l : Leak) : (s.complete r0 r1 l).args = s.args := rfl
@[simp] theorem complete_ctx0 (r0 r1 : Nat) (l : Leak) : (s.complete r0 r1 l).ctx0 = s.ctx0 := rfl
@[simp] theorem complete_ctx1 (r0 r1 : Nat) (l : Leak) : (s.complete r0 r1 l).ctx1 = s.ctx1 := rfl
@[simp] theorem complete_phase (r0 r1 : Nat) (l : Leak) : (s.complete r0 r1 l).phase = .idle := rfl
@[simp] theorem complete_lm (r0 r1 : Nat) (l : Leak) : (s.complete r0 r1 l).lm = s.lm := rfl
@[simp] theorem complete_leak (r0 r1 : Nat) (l : Leak) : (s.complete r0 r1 l).leak = l := rfl
@[simp] theorem complete_fresh (r0 r1 : Nat) (l : Leak) : (s.complete r0 r1 l).fresh = false := rfl
@[simp] theorem complete_hostData (r0 r1 : Nat) (l : Leak) : (s.complete r0 r1 l).hostData = s.hostData := rfl
@[simp] theorem complete_schedule (r0 r1 : Nat) (l : Leak) : (s.complete r0 r1 l).schedule = s.schedule := rfl
@[simp] theorem complete_draws (r0 r1 : Nat) (l : Leak) : (s.complete r0 r1 l).draws = s.draws + 1 := rfl

/-! ### completeErr -/

@[simp] theorem completeErr_cfg (e : ErrCode) (l : Leak) : (s.completeErr e l).cfg = s.cfg := rfl
@[simp] theorem completeErr_cmd (e : ErrCode) (l : Leak) : (s.completeErr e l).cmd = s.cmd := rfl
@[simp] theorem completeErr_status (e : ErrCode) (l : Leak) : (s.completeErr e l).status = ⟨false, true, e⟩ := rfl
@[simp] theorem completeErr_res0 (e : ErrCode) (l : Leak) : (s.completeErr e l).res0 = wordOf s.cfg 0 := rfl
@[simp] theorem completeErr_res1 (e : ErrCode) (l : Leak) : (s.completeErr e l).res1 = wordOf s.cfg 0 := rfl
@[simp] theorem completeErr_args (e : ErrCode) (l : Leak) : (s.completeErr e l).args = s.args := rfl
@[simp] theorem completeErr_ctx0 (e : ErrCode) (l : Leak) : (s.completeErr e l).ctx0 = s.ctx0 := rfl
@[simp] theorem completeErr_ctx1 (e : ErrCode) (l : Leak) : (s.completeErr e l).ctx1 = s.ctx1 := rfl
@[simp] theorem completeErr_phase (e : ErrCode) (l : Leak) : (s.completeErr e l).phase = .idle := rfl
@[simp] theorem completeErr_lm (e : ErrCode) (l : Leak) : (s.completeErr e l).lm = s.lm := rfl
@[simp] theorem completeErr_leak (e : ErrCode) (l : Leak) : (s.completeErr e l).leak = l := rfl
@[simp] theorem completeErr_fresh (e : ErrCode) (l : Leak) : (s.completeErr e l).fresh = false := rfl
@[simp] theorem completeErr_hostData (e : ErrCode) (l : Leak) : (s.completeErr e l).hostData = s.hostData := rfl
@[simp] theorem completeErr_schedule (e : ErrCode) (l : Leak) : (s.completeErr e l).schedule = s.schedule := rfl
@[simp] theorem completeErr_draws (e : ErrCode) (l : Leak) : (s.completeErr e l).draws = s.draws + 1 := rfl

/-! ### issue -/

@[simp] theorem issue_cfg (w : BitVec 32) : (s.issue w).cfg = s.cfg := rfl
@[simp] theorem issue_cmd (w : BitVec 32) : (s.issue w).cmd = w := rfl
@[simp] theorem issue_status (w : BitVec 32) : (s.issue w).status = ⟨true, false, .none⟩ := rfl
@[simp] theorem issue_res0 (w : BitVec 32) : (s.issue w).res0 = s.res0 := rfl
@[simp] theorem issue_res1 (w : BitVec 32) : (s.issue w).res1 = s.res1 := rfl
@[simp] theorem issue_args (w : BitVec 32) : (s.issue w).args = s.args := rfl
@[simp] theorem issue_ctx0 (w : BitVec 32) : (s.issue w).ctx0 = s.ctx0 := rfl
@[simp] theorem issue_ctx1 (w : BitVec 32) : (s.issue w).ctx1 = s.ctx1 := rfl
@[simp] theorem issue_phase (w : BitVec 32) : (s.issue w).phase = .pending w s.args := rfl
@[simp] theorem issue_lm (w : BitVec 32) : (s.issue w).lm = s.lm := rfl
@[simp] theorem issue_leak (w : BitVec 32) : (s.issue w).leak = s.leak := rfl
@[simp] theorem issue_fresh (w : BitVec 32) : (s.issue w).fresh = s.fresh := rfl
@[simp] theorem issue_hostData (w : BitVec 32) : (s.issue w).hostData = s.hostData := rfl
@[simp] theorem issue_schedule (w : BitVec 32) : (s.issue w).schedule = s.schedule := rfl
@[simp] theorem issue_draws (w : BitVec 32) : (s.issue w).draws = s.draws := rfl

/-! ### hostGets -/

@[simp] theorem hostGets_cfg (v : Word) : (s.hostGets v).cfg = s.cfg := rfl
@[simp] theorem hostGets_cmd (v : Word) : (s.hostGets v).cmd = s.cmd := rfl
@[simp] theorem hostGets_status (v : Word) : (s.hostGets v).status = s.status := rfl
@[simp] theorem hostGets_res0 (v : Word) : (s.hostGets v).res0 = s.res0 := rfl
@[simp] theorem hostGets_res1 (v : Word) : (s.hostGets v).res1 = s.res1 := rfl
@[simp] theorem hostGets_args (v : Word) : (s.hostGets v).args = s.args := rfl
@[simp] theorem hostGets_ctx0 (v : Word) : (s.hostGets v).ctx0 = s.ctx0 := rfl
@[simp] theorem hostGets_ctx1 (v : Word) : (s.hostGets v).ctx1 = s.ctx1 := rfl
@[simp] theorem hostGets_phase (v : Word) : (s.hostGets v).phase = s.phase := rfl
@[simp] theorem hostGets_lm (v : Word) : (s.hostGets v).lm = s.lm := rfl
@[simp] theorem hostGets_leak (v : Word) : (s.hostGets v).leak = s.leak := rfl
@[simp] theorem hostGets_fresh (v : Word) : (s.hostGets v).fresh = s.fresh := rfl
@[simp] theorem hostGets_hostData (v : Word) : (s.hostGets v).hostData = v := rfl
@[simp] theorem hostGets_schedule (v : Word) : (s.hostGets v).schedule = s.schedule := rfl
@[simp] theorem hostGets_draws (v : Word) : (s.hostGets v).draws = s.draws := rfl

/-! ### hostDraws -/

@[simp] theorem hostDraws_cfg : (s.hostDraws).cfg = s.cfg := rfl
@[simp] theorem hostDraws_cmd : (s.hostDraws).cmd = s.cmd := rfl
@[simp] theorem hostDraws_status : (s.hostDraws).status = s.status := rfl
@[simp] theorem hostDraws_res0 : (s.hostDraws).res0 = s.res0 := rfl
@[simp] theorem hostDraws_res1 : (s.hostDraws).res1 = s.res1 := rfl
@[simp] theorem hostDraws_args : (s.hostDraws).args = s.args := rfl
@[simp] theorem hostDraws_ctx0 : (s.hostDraws).ctx0 = s.ctx0 := rfl
@[simp] theorem hostDraws_ctx1 : (s.hostDraws).ctx1 = s.ctx1 := rfl
@[simp] theorem hostDraws_phase : (s.hostDraws).phase = s.phase := rfl
@[simp] theorem hostDraws_lm : (s.hostDraws).lm = s.lm := rfl
@[simp] theorem hostDraws_leak : (s.hostDraws).leak = s.leak := rfl
@[simp] theorem hostDraws_fresh : (s.hostDraws).fresh = s.fresh := rfl
@[simp] theorem hostDraws_hostData : (s.hostDraws).hostData = drawWord s.cfg s.draws 0 := rfl
@[simp] theorem hostDraws_schedule : (s.hostDraws).schedule = s.schedule := rfl
@[simp] theorem hostDraws_draws : (s.hostDraws).draws = s.draws + 1 := rfl

/-! ### enterFaulted -/

@[simp] theorem enterFaulted_cfg (r : Fault) : (s.enterFaulted r).cfg = s.cfg := rfl
@[simp] theorem enterFaulted_phase (r : Fault) : (s.enterFaulted r).phase = .faulted r := rfl
@[simp] theorem enterFaulted_lm (r : Fault) : (s.enterFaulted r).lm = [] := rfl
@[simp] theorem enterFaulted_fresh (r : Fault) : (s.enterFaulted r).fresh = false := rfl
@[simp] theorem enterFaulted_hostData (r : Fault) : (s.enterFaulted r).hostData = s.hostData := rfl
@[simp] theorem enterFaulted_schedule (r : Fault) : (s.enterFaulted r).schedule = s.schedule := rfl
@[simp] theorem enterFaulted_draws (r : Fault) : (s.enterFaulted r).draws = s.draws + 1 := rfl

/-! ### applyReset -/

@[simp] theorem applyReset_cfg : (s.applyReset).cfg = s.cfg := rfl
@[simp] theorem applyReset_cmd : (s.applyReset).cmd = (State.resetOf s.cfg).cmd := rfl
@[simp] theorem applyReset_status : (s.applyReset).status = (State.resetOf s.cfg).status := rfl
@[simp] theorem applyReset_res0 : (s.applyReset).res0 = (State.resetOf s.cfg).res0 := rfl
@[simp] theorem applyReset_res1 : (s.applyReset).res1 = (State.resetOf s.cfg).res1 := rfl
@[simp] theorem applyReset_args : (s.applyReset).args = (State.resetOf s.cfg).args := rfl
@[simp] theorem applyReset_ctx0 : (s.applyReset).ctx0 = (State.resetOf s.cfg).ctx0 := rfl
@[simp] theorem applyReset_ctx1 : (s.applyReset).ctx1 = (State.resetOf s.cfg).ctx1 := rfl
@[simp] theorem applyReset_phase : (s.applyReset).phase = (State.resetOf s.cfg).phase := rfl
@[simp] theorem applyReset_lm : (s.applyReset).lm = (State.resetOf s.cfg).lm := rfl
@[simp] theorem applyReset_leak : (s.applyReset).leak = (State.resetOf s.cfg).leak := rfl
@[simp] theorem applyReset_fresh : (s.applyReset).fresh = (State.resetOf s.cfg).fresh := rfl
@[simp] theorem applyReset_hostData : (s.applyReset).hostData = s.hostData := rfl
@[simp] theorem applyReset_schedule : (s.applyReset).schedule = s.schedule := rfl
@[simp] theorem applyReset_draws : (s.applyReset).draws = s.draws := rfl

/-! ### The contexts under every update that leaves them -/

@[simp] theorem ctx_setLimbs (st a : Nat) (l : List Nat) (c : Slot) : (State.setLimbs st s a l).ctx c = s.ctx c := by
  cases c <;> simp [State.ctx]
@[simp] theorem ctx_memWrite (a n v : Nat) (c : Slot) : (s.memWrite a n v).ctx c = s.ctx c := ctx_setLimbs _ _ _ _ c
@[simp] theorem ctx_digWrite (d a n v : Nat) (c : Slot) : (s.digWrite d a n v).ctx c = s.ctx c := ctx_setLimbs _ _ _ _ c
@[simp] theorem ctx_havoc (a n : Nat) (c : Slot) : (s.havoc a n).ctx c = s.ctx c := ctx_setLimbs _ _ _ _ c
@[simp] theorem ctx_octetsWrite (b k v : Nat) (c : Slot) : (s.octetsWrite b k v).ctx c = s.ctx c := by cases c <;> rfl
@[simp] theorem ctx_finish (e : ErrCode) (r0 r1 : Nat) (l : Leak) (c : Slot) :
    (s.finish e r0 r1 l).ctx c = s.ctx c := by cases c <;> rfl
@[simp] theorem ctx_complete (r0 r1 : Nat) (l : Leak) (c : Slot) : (s.complete r0 r1 l).ctx c = s.ctx c := by
  cases c <;> rfl
@[simp] theorem ctx_completeErr (e : ErrCode) (l : Leak) (c : Slot) : (s.completeErr e l).ctx c = s.ctx c := by
  cases c <;> rfl

/-! ### Reading LM looks at LM and the limb width only -/

theorem limbAt_congr {s t : State} (hl : t.lm = s.lm) (hc : t.cfg = s.cfg) (a : Nat) : t.limbAt a = s.limbAt a := by
  simp [State.limbAt, hl, hc]

theorem limbsAt_congr {s t : State} (hl : t.lm = s.lm) (hc : t.cfg = s.cfg) (st a n : Nat) :
    t.limbsAt st a n = s.limbsAt st a n := by
  induction n generalizing a with
  | zero => rfl
  | succ n ih => rw [State.limbsAt, State.limbsAt, limbAt_congr hl hc, ih]

theorem memRead_congr {s t : State} (hl : t.lm = s.lm) (hc : t.cfg = s.cfg) (a n : Nat) :
    t.memRead a n = s.memRead a n := by
  simp [State.memRead, limbsAt_congr hl hc, hc]

@[simp] theorem limbsAt_finish (e : ErrCode) (r0 r1 : Nat) (l : Leak) (st a n : Nat) :
    (s.finish e r0 r1 l).limbsAt st a n = s.limbsAt st a n := by apply limbsAt_congr <;> simp
@[simp] theorem limbsAt_complete (r0 r1 : Nat) (l : Leak) (st a n : Nat) :
    (s.complete r0 r1 l).limbsAt st a n = s.limbsAt st a n := by apply limbsAt_congr <;> simp
@[simp] theorem memRead_finish (e : ErrCode) (r0 r1 : Nat) (l : Leak) (a n : Nat) :
    (s.finish e r0 r1 l).memRead a n = s.memRead a n := by apply memRead_congr <;> simp
@[simp] theorem memRead_complete (r0 r1 : Nat) (l : Leak) (a n : Nat) :
    (s.complete r0 r1 l).memRead a n = s.memRead a n := by apply memRead_congr <;> simp

end Sys2Proof.Machine
end

