-- ==== Sys2Proof/Laws/Checks.lean ====
section
/-! SUPPORT. One lemma for each check a meaning is written with: when it answers a next state, and when it faults. -/

namespace Sys2Proof.Machine

open Sys2Proof

variable {s t : State} {r : Fault} {k : Out}

@[simp] theorem guardUB_next_iff {p : Prop} [Decidable p] : guardUB p r k = .next t ↔ p ∧ k = .next t := by
  unfold guardUB; split <;> simp [*]

@[simp] theorem guardUB_refused_iff {p : Prop} [Decidable p] {x : Refusal} :
    guardUB p r k = .refused x ↔ p ∧ k = .refused x := by
  unfold guardUB; split <;> simp [*]

theorem guardUB_of {p : Prop} [Decidable p] (h : p) : guardUB p r k = k := if_pos h

theorem guardUB_of_not {p : Prop} [Decidable p] (h : ¬ p) : guardUB p r k = .fault r := if_neg h

@[simp] theorem needUB_next_iff {α : Type} {o : Option α} {f : α → Out} :
    needUB o r f = .next t ↔ ∃ v, o = some v ∧ f v = .next t := by
  cases o <;> simp [needUB]

@[simp] theorem needUB_refused_iff {α : Type} {o : Option α} {f : α → Out} {x : Refusal} :
    needUB o r f = .refused x ↔ ∃ v, o = some v ∧ f v = .refused x := by
  cases o <;> simp [needUB]

@[simp] theorem needUB_some {α : Type} (v : α) (f : α → Out) : needUB (some v) r f = f v := rfl

theorem checkRegions_next_iff {cls : AliasClass} {ins outs : List Region} :
    checkRegions s cls ins outs k = .next t ↔
      (∀ q ∈ ins ++ outs, q.inBounds s.cfg = true) ∧ aliasOk cls ins outs = true ∧ k = .next t := by
  rw [checkRegions, guardUB_next_iff, guardUB_next_iff, List.all_eq_true]

theorem withVal_next_iff {a n : Nat} {f : Nat → Out} :
    withVal s a n f = .next t ↔ ∃ v, s.memRead a n = some v ∧ f v = .next t := by
  simp [withVal]

theorem withLimbs_next_iff {st a n : Nat} {f : List Nat → Out} :
    withLimbs s st a n f = .next t ↔ ∃ l, s.limbsAt st a n = some l ∧ f l = .next t := by
  simp [withLimbs]

theorem withDigits_next_iff {d a n : Nat} {f : Nat → Out} :
    withDigits s d a n f = .next t ↔
      ∃ l, s.limbsAt 1 a n = some l ∧ (∀ x ∈ l, x < 2 ^ d) ∧ f (radixVal d l) = .next t := by
  simp [withDigits, withLimbs_next_iff]

theorem withCtx_next_iff {c : Slot} {opc : Nat} {f : Ctx → Out} :
    withCtx s c opc f = .next t ↔
      (s.ctx c).valid = true ∧ poolNeedOf s.cfg opc ≤ (s.ctx c).poolCap.toNat ∧ f (s.ctx c) = .next t := by
  simp [withCtx]

end Sys2Proof.Machine
end

