-- ==== Sys2Proof/Laws/Memory.lean ====
section
/-! SUPPORT. What the operations over LM's bytes do: read after write, the frame of a write, and the canonical form. -/

namespace Sys2Proof.Machine

open Sys2Proof

/-! ### One byte -/

@[simp] theorem byteAt_nil (b : Nat) : Memory.byteAt [] b = none := rfl

theorem byteAt_setByte_same (m : Memory) (b : Nat) (v : Byte) :
    Memory.byteAt (Memory.setByte m b v) b = some v := by
  induction m with
  | nil => simp [Memory.setByte, Memory.byteAt]
  | cons p m ih =>
    obtain ⟨a, x⟩ := p
    by_cases h1 : b < a
    · simp [Memory.setByte, Memory.byteAt, h1]
    · by_cases h2 : b = a
      · simp [Memory.setByte, Memory.byteAt, h2]
      · simp [Memory.setByte, Memory.byteAt, h1, h2, Ne.symm h2, ih]

theorem byteAt_setByte_ne (m : Memory) {b c : Nat} (v : Byte) (h : c ≠ b) :
    Memory.byteAt (Memory.setByte m b v) c = Memory.byteAt m c := by
  induction m with
  | nil => simp [Memory.setByte, Memory.byteAt, h.symm]
  | cons p m ih =>
    obtain ⟨a, x⟩ := p
    by_cases h1 : b < a
    · simp [Memory.setByte, Memory.byteAt, h1, h.symm]
    · by_cases h2 : b = a
      · subst h2
        simp [Memory.setByte, Memory.byteAt, h.symm]
      · simp [Memory.setByte, Memory.byteAt, h1, h2, ih]

theorem mem_setByte {m : Memory} {b : Nat} {v : Byte} {p : Host.Cell} (h : p ∈ Memory.setByte m b v) :
    p = (b, v) ∨ p ∈ m := by
  induction m with
  | nil => simpa [Memory.setByte] using h
  | cons q m ih =>
    obtain ⟨a, x⟩ := q
    by_cases h1 : b < a
    · simpa [Memory.setByte, h1] using h
    · by_cases h2 : b = a
      · subst h2
        simp only [Memory.setByte, lt_irrefl, if_false, if_true, List.mem_cons] at h
        exact h.imp id (List.mem_cons_of_mem _)
      · simp only [Memory.setByte, h1, h2, if_false, List.mem_cons] at h
        rcases h with h | h
        · exact .inr (by simp [h])
        · exact (ih h).imp id (List.mem_cons_of_mem _)

/-- A byte store keeps the canonical form. -/
theorem setByte_wf {m : Memory} (h : Memory.wf m) (b : Nat) (v : Byte) : Memory.wf (Memory.setByte m b v) := by
  induction m with
  | nil => simp [Memory.setByte, Memory.wf]
  | cons p m ih =>
    obtain ⟨a, x⟩ := p
    obtain ⟨ha, hm⟩ := List.pairwise_cons.mp h
    by_cases h1 : b < a
    · simp only [Memory.setByte, h1, if_true]
      refine List.pairwise_cons.mpr ⟨fun q hq => ?_, h⟩
      rcases List.mem_cons.mp hq with rfl | hq
      · exact h1
      · exact h1.trans (ha q hq)
    · by_cases h2 : b = a
      · subst h2
        simp only [Memory.setByte, lt_irrefl, if_false, if_true]
        exact List.pairwise_cons.mpr ⟨ha, hm⟩
      · simp only [Memory.setByte, h1, h2, if_false]
        refine List.pairwise_cons.mpr ⟨fun q hq => ?_, ih hm⟩
        rcases mem_setByte hq with rfl | hq
        · exact lt_of_le_of_ne (Nat.le_of_not_lt h1) (Ne.symm h2)
        · exact ha q hq

/-! ### Several bytes -/

theorem byteAt_writeBytes_outside (m : Memory) (b : Nat) (l : List Byte) {c : Nat}
    (h : c < b ∨ b + l.length ≤ c) : Memory.byteAt (Memory.writeBytes m b l) c = Memory.byteAt m c := by
  induction l generalizing m b with
  | nil => rfl
  | cons x xs ih =>
    simp only [List.length_cons] at h
    rw [Memory.writeBytes, ih _ _ (by omega), byteAt_setByte_ne _ _ (by omega)]

theorem byteAt_writeBytes_inside (m : Memory) (b : Nat) (l : List Byte) {i : Nat} (h : i < l.length) :
    Memory.byteAt (Memory.writeBytes m b l) (b + i) = some l[i] := by
  induction l generalizing m b i with
  | nil => simp at h
  | cons x xs ih =>
    cases i with
    | zero =>
      rw [Memory.writeBytes, byteAt_writeBytes_outside _ _ _ (by omega)]
      simpa using byteAt_setByte_same m b x
    | succ i =>
      simp only [List.length_cons] at h
      have := ih (Memory.setByte m b x) (b + 1) (i := i) (by omega)
      rw [Memory.writeBytes, show b + (i + 1) = b + 1 + i by omega, this]
      simp

/-- Storing bytes keeps the canonical form. -/
theorem writeBytes_wf {m : Memory} (h : Memory.wf m) (b : Nat) (l : List Byte) :
    Memory.wf (Memory.writeBytes m b l) := by
  induction l generalizing m b with
  | nil => exact h
  | cons x xs ih => exact ih (setByte_wf h b x) (b + 1)

theorem mem_writeBytes {m : Memory} {b : Nat} {l : List Byte} {p : Host.Cell}
    (h : p ∈ Memory.writeBytes m b l) : (b ≤ p.1 ∧ p.1 < b + l.length) ∨ p ∈ m := by
  induction l generalizing m b with
  | nil => exact .inr h
  | cons x xs ih =>
    simp only [List.length_cons]
    rcases ih h with h | h
    · exact .inl (by omega)
    · rcases mem_setByte h with rfl | h
      · exact .inl (by simp)
      · exact .inr h

theorem readBytes_congr {m m' : Memory} {b k : Nat}
    (h : ∀ i, i < k → Memory.byteAt m (b + i) = Memory.byteAt m' (b + i)) :
    Memory.readBytes m b k = Memory.readBytes m' b k := by
  induction k generalizing b with
  | zero => rfl
  | succ k ih =>
    have h0 := h 0 (by omega)
    have hk := ih (b := b + 1) (fun i hi => by
      have := h (i + 1) (by omega)
      rwa [show b + (i + 1) = b + 1 + i by omega] at this)
    simp only [Nat.add_zero] at h0
    rw [Memory.readBytes, Memory.readBytes, h0, hk]

theorem readBytes_eq_of {m : Memory} {b : Nat} (l : List Byte)
    (h : ∀ i, (hi : i < l.length) → Memory.byteAt m (b + i) = some l[i]) :
    Memory.readBytes m b l.length = some l := by
  induction l generalizing b with
  | nil => rfl
  | cons x xs ih =>
    have h0 := h 0 (by simp)
    have hk := ih (b := b + 1) (fun i hi => by
      have := h (i + 1) (by simpa using hi)
      rw [show b + (i + 1) = b + 1 + i by omega] at this
      simpa using this)
    simp only [Nat.add_zero, List.getElem_cons_zero] at h0
    rw [List.length_cons, Memory.readBytes, h0, hk]

/-- Reading back what was just stored. -/
theorem readBytes_writeBytes_same (m : Memory) (b : Nat) (l : List Byte) :
    Memory.readBytes (Memory.writeBytes m b l) b l.length = some l :=
  readBytes_eq_of l (fun _ hi => byteAt_writeBytes_inside m b l hi)

/-- A store leaves every disjoint read alone. -/
theorem readBytes_writeBytes_disjoint (m : Memory) {b c k : Nat} (l : List Byte)
    (h : c + k ≤ b ∨ b + l.length ≤ c) :
    Memory.readBytes (Memory.writeBytes m b l) c k = Memory.readBytes m c k :=
  readBytes_congr (fun i hi => byteAt_writeBytes_outside m b l (by omega))

theorem readBytes_length {m : Memory} {b k : Nat} {l : List Byte} (h : Memory.readBytes m b k = some l) :
    l.length = k := by
  induction k generalizing b l with
  | zero => simp only [Memory.readBytes, Option.some.injEq] at h; simp [← h]
  | succ k ih =>
    rw [Memory.readBytes] at h
    split at h
    next x xs _ hxs => simp only [Option.some.injEq] at h; simp [← h, ih hxs]
    next => simp at h

/-- A read succeeds exactly when every byte is written (20_memory.md R74). -/
theorem readBytes_isSome_iff {m : Memory} {b k : Nat} :
    (Memory.readBytes m b k).isSome ↔ ∀ i, i < k → (Memory.byteAt m (b + i)).isSome := by
  induction k generalizing b with
  | zero => simp [Memory.readBytes]
  | succ k ih =>
    have hs := ih (b := b + 1)
    rw [Memory.readBytes]
    constructor
    · intro h i hi
      split at h
      next x xs hx hxs =>
        cases i with
        | zero => simp [hx]
        | succ i =>
          rw [show b + (i + 1) = b + 1 + i by omega]
          exact hs.mp (by simp [hxs]) i (by omega)
      next => simp at h
    · intro h
      obtain ⟨x, hx⟩ := Option.isSome_iff_exists.mp (h 0 (by omega))
      obtain ⟨xs, hxs⟩ := Option.isSome_iff_exists.mp (hs.mpr (fun i hi => by
        have := h (i + 1) (by omega)
        rwa [show b + (i + 1) = b + 1 + i by omega] at this))
      simp only [Nat.add_zero] at hx
      simp [hx, hxs]

end Sys2Proof.Machine
end

