-- ==== Sys2Proof/Laws/Radix.lean ====
section
/-! SUPPORT. Positional values: a value and its digits determine each other (00_scope.md R11). -/

namespace Sys2Proof.Machine

open Sys2Proof

@[simp] theorem radixDigits_length (k n v : Nat) : (radixDigits k n v).length = n := by
  induction n generalizing v with
  | zero => rfl
  | succ n ih => simp [radixDigits, ih]

theorem radixDigits_lt {k n v x : Nat} (h : x ∈ radixDigits k n v) : x < 2 ^ k := by
  induction n generalizing v with
  | zero => simp [radixDigits] at h
  | succ n ih =>
    rcases List.mem_cons.mp h with rfl | h
    · exact Nat.mod_lt _ (by positivity)
    · exact ih h

/-- The digits of a value have that value, modulo what they can hold. -/
theorem radixVal_radixDigits (k n v : Nat) : radixVal k (radixDigits k n v) = v % 2 ^ (k * n) := by
  induction n generalizing v with
  | zero => simp [radixDigits, radixVal, Nat.mod_one]
  | succ n ih =>
    rw [radixDigits, radixVal, ih, Nat.mul_succ, Nat.add_comm (k * n) k, Nat.pow_add, Nat.mod_mul]

theorem radixVal_lt {k : Nat} {l : List Nat} (h : ∀ x ∈ l, x < 2 ^ k) : radixVal k l < 2 ^ (k * l.length) := by
  induction l with
  | nil => simp [radixVal]
  | cons x xs ih =>
    have hx := h x (by simp)
    have hxs := ih (fun y hy => h y (by simp [hy]))
    rw [radixVal, List.length_cons, Nat.mul_succ, Nat.add_comm (k * _) k, Nat.pow_add]
    have : 2 ^ k * (radixVal k xs + 1) ≤ 2 ^ k * 2 ^ (k * xs.length) := Nat.mul_le_mul_left _ hxs
    rw [Nat.mul_add, Nat.mul_one] at this
    omega

theorem radixDigits_radixVal {k : Nat} {l : List Nat} (h : ∀ x ∈ l, x < 2 ^ k) :
    radixDigits k l.length (radixVal k l) = l := by
  induction l with
  | nil => rfl
  | cons x xs ih =>
    have hx := h x (by simp)
    have hp : 0 < 2 ^ k := by positivity
    rw [List.length_cons, radixDigits, radixVal, Nat.add_mul_mod_self_left, Nat.mod_eq_of_lt hx,
      Nat.add_mul_div_left _ _ hp, Nat.div_eq_of_lt hx, Nat.zero_add, ih (fun y hy => h y (by simp [hy]))]

/-- Digit i of the digits of a value (00_scope.md R11, `limb`). -/
theorem radixDigits_getElem {k n v i : Nat} (h : i < (radixDigits k n v).length) :
    (radixDigits k n v)[i] = v / 2 ^ (k * i) % 2 ^ k := by
  induction n generalizing v i with
  | zero => simp [radixDigits] at h
  | succ n ih =>
    cases i with
    | zero => simp [radixDigits]
    | succ i =>
      have hi : i < (radixDigits k n (v / 2 ^ k)).length := by simpa [radixDigits] using h
      simp only [radixDigits, List.getElem_cons_succ]
      rw [ih hi, Nat.div_div_eq_div_mul, ← Nat.pow_add]
      congr 3
      ring

theorem radixVal_append (k : Nat) (l r : List Nat) :
    radixVal k (l ++ r) = radixVal k l + 2 ^ (k * l.length) * radixVal k r := by
  induction l with
  | nil => simp [radixVal]
  | cons x xs ih =>
    rw [List.cons_append, radixVal, radixVal, ih, List.length_cons, Nat.mul_succ, Nat.pow_add]
    ring

@[simp] theorem radixVal_replicate_zero (k n : Nat) : radixVal k (List.replicate n 0) = 0 := by
  induction n with
  | zero => rfl
  | succ n ih => simp [List.replicate_succ, radixVal, ih]

@[simp] theorem valBytes_length (k v : Nat) : (valBytes k v).length = k := by simp [valBytes]

/-- The bytes of a value have that value, modulo what they can hold (20_memory.md R72). -/
theorem bytesVal_valBytes (k v : Nat) : bytesVal (valBytes k v) = v % 2 ^ (8 * k) := by
  rw [bytesVal, valBytes, List.map_map, ← radixVal_radixDigits]
  congr 1
  refine (List.map_congr_left fun x hx => ?_).trans (List.map_id _)
  have := radixDigits_lt hx
  simp only [Function.comp_apply, BitVec.toNat_ofNat, id_eq]
  exact Nat.mod_eq_of_lt this

theorem bytesVal_lt (l : List Byte) : bytesVal l < 2 ^ (8 * l.length) := by
  have := radixVal_lt (k := 8) (l := l.map BitVec.toNat) (fun x hx => by
    obtain ⟨b, _, rfl⟩ := List.mem_map.mp hx
    exact b.isLt)
  simpa [bytesVal] using this

end Sys2Proof.Machine
end

