-- ==== Sys2Proof/Laws/Limbs.lean ====
section
/-! SUPPORT. What the limb and region operations do: read after write, the frame of a write by byte, and the canonical
form of LM (20_memory.md R70 to R74). -/

namespace Sys2Proof.Machine

open Sys2Proof

theorem bpl_pos (c : Config) : 0 < c.bpl := by cases h : c.width <;> simp [Config.bpl, LimbWidth.bytes, h]

/-- W = 8 · (W/8): a limb is a whole number of bytes (20_memory.md R72). -/
theorem W_eq_bpl (c : Config) : c.W = 8 * c.bpl := by
  cases h : c.width <;> simp [Config.W, Config.bpl, LimbWidth.bits, LimbWidth.bytes, h]

theorem W_pos (c : Config) : 0 < c.W := by rw [W_eq_bpl]; have := bpl_pos c; omega

theorem W_le (c : Config) : c.W ≤ 64 := by cases h : c.width <;> simp [Config.W, LimbWidth.bits, h]

theorem wordOf_toNat (c : Config) (v : Nat) : (wordOf c v).toNat = v % 2 ^ c.W := by
  rw [wordOf, BitVec.toNat_ofNat]
  exact Nat.mod_eq_of_lt ((Nat.mod_lt _ (by positivity)).trans_le (Nat.pow_le_pow_right (by omega) (W_le c)))

/-- A word register takes a W-bit value unchanged. -/
theorem wordOf_toNat_of_lt {c : Config} {v : Nat} (h : v < 2 ^ c.W) : (wordOf c v).toNat = v := by
  rw [wordOf_toNat, Nat.mod_eq_of_lt h]

theorem drawWord_lt (c : Config) (k i : Nat) : (drawWord c k i).toNat < 2 ^ c.W := by
  rw [drawWord, wordOf_toNat]
  exact Nat.mod_lt _ (by positivity)

@[simp] theorem drawWords_length (c : Config) (k i n : Nat) : (drawWords c k i n).length = n := by simp [drawWords]

/-! ### One limb -/

theorem limbAt_lt {s : State} {a v : Nat} (h : s.limbAt a = some v) : v < 2 ^ s.cfg.W := by
  obtain ⟨l, hl, rfl⟩ := Option.map_eq_some_iff.mp h
  have := bytesVal_lt l
  rwa [readBytes_length hl, ← W_eq_bpl] at this

theorem limbAt_setLimb_same (s : State) (a v : Nat) : (s.setLimb a v).limbAt a = some (v % 2 ^ s.cfg.W) := by
  have h := readBytes_writeBytes_same s.lm (a * s.cfg.bpl) (valBytes s.cfg.bpl v)
  rw [valBytes_length] at h
  simp [State.limbAt, h, bytesVal_valBytes, W_eq_bpl]

theorem mul_sep {a b k : Nat} (h : a < b) : a * k + k ≤ b * k := by
  calc a * k + k = (a + 1) * k := by ring
    _ ≤ b * k := Nat.mul_le_mul_right k h

theorem limbAt_setLimb_ne (s : State) {a c : Nat} (v : Nat) (h : c ≠ a) : (s.setLimb a v).limbAt c = s.limbAt c := by
  simp only [State.limbAt, setLimb_lm, setLimb_cfg]
  rw [readBytes_writeBytes_disjoint]
  rw [valBytes_length]
  rcases Nat.lt_or_gt_of_ne h with h | h
  · exact .inl (mul_sep h)
  · exact .inr (mul_sep h)

theorem byteAt_setLimb_outside (s : State) {a b : Nat} (v : Nat)
    (h : ¬ (a * s.cfg.bpl ≤ b ∧ b < (a + 1) * s.cfg.bpl)) :
    Memory.byteAt (s.setLimb a v).lm b = Memory.byteAt s.lm b := by
  rw [setLimb_lm, byteAt_writeBytes_outside]
  rw [valBytes_length]
  have : (a + 1) * s.cfg.bpl = a * s.cfg.bpl + s.cfg.bpl := by ring
  omega

theorem setLimb_wf {s : State} (h : Memory.wf s.lm) (a v : Nat) : Memory.wf (s.setLimb a v).lm := writeBytes_wf h _ _

theorem mem_setLimb {s : State} {a v : Nat} {p : Host.Cell} (h : p ∈ (s.setLimb a v).lm) :
    (a * s.cfg.bpl ≤ p.1 ∧ p.1 < (a + 1) * s.cfg.bpl) ∨ p ∈ s.lm := by
  rcases mem_writeBytes h with h | h
  · rw [valBytes_length] at h
    have : (a + 1) * s.cfg.bpl = a * s.cfg.bpl + s.cfg.bpl := by ring
    exact .inl (by omega)
  · exact .inr h

/-! ### Limbs at a stride -/

theorem limbsAt_length {s : State} {st a n : Nat} {l : List Nat} (h : s.limbsAt st a n = some l) : l.length = n := by
  induction n generalizing a l with
  | zero => simp only [State.limbsAt, Option.some.injEq] at h; simp [← h]
  | succ n ih =>
    rw [State.limbsAt] at h
    split at h
    next x xs _ hxs => simp only [Option.some.injEq] at h; simp [← h, ih hxs]
    next => simp at h

theorem limbsAt_lt {s : State} {st a n x : Nat} {l : List Nat} (h : s.limbsAt st a n = some l) (hx : x ∈ l) :
    x < 2 ^ s.cfg.W := by
  induction n generalizing a l with
  | zero => simp only [State.limbsAt, Option.some.injEq] at h; simp [← h] at hx
  | succ n ih =>
    rw [State.limbsAt] at h
    split at h
    next y ys hy hys =>
      simp only [Option.some.injEq] at h
      rw [← h] at hx
      rcases List.mem_cons.mp hx with rfl | hx
      · exact limbAt_lt hy
      · exact ih hys hx
    next => simp at h

theorem limbAt_setLimbs_outside (s : State) (st a : Nat) (l : List Nat) {c : Nat}
    (h : ∀ j, j < l.length → c ≠ a + j * st) : (State.setLimbs st s a l).limbAt c = s.limbAt c := by
  induction l generalizing s a with
  | nil => rfl
  | cons x xs ih =>
    rw [State.setLimbs, ih]
    · exact limbAt_setLimb_ne s x (by simpa using h 0 (by simp))
    · intro j hj
      have := h (j + 1) (by simpa using hj)
      rw [show a + st + j * st = a + (j + 1) * st by ring]
      exact this

/-- The frame of a store: every byte outside the stored limbs reads as before. -/
theorem byteAt_setLimbs_outside (s : State) (st a : Nat) (l : List Nat) {b : Nat}
    (h : ∀ j, j < l.length → ¬ ((a + j * st) * s.cfg.bpl ≤ b ∧ b < (a + j * st + 1) * s.cfg.bpl)) :
    Memory.byteAt (State.setLimbs st s a l).lm b = Memory.byteAt s.lm b := by
  induction l generalizing s a with
  | nil => rfl
  | cons x xs ih =>
    rw [State.setLimbs, ih]
    · exact byteAt_setLimb_outside s x (by simpa using h 0 (by simp))
    · intro j hj
      have := h (j + 1) (by simpa using hj)
      rw [show a + st + j * st = a + (j + 1) * st by ring]
      simpa using this

theorem limbsAt_of_limbAt {s : State} {st a : Nat} (l : List Nat)
    (h : ∀ j, (hj : j < l.length) → s.limbAt (a + j * st) = some l[j]) : s.limbsAt st a l.length = some l := by
  induction l generalizing a with
  | nil => rfl
  | cons x xs ih =>
    have h0 := h 0 (by simp)
    have hk := ih (a := a + st) (fun j hj => by
      have := h (j + 1) (by simpa using hj)
      rw [show a + (j + 1) * st = a + st + j * st by ring] at this
      simpa using this)
    simp only [Nat.zero_mul, Nat.add_zero, List.getElem_cons_zero] at h0
    rw [List.length_cons, State.limbsAt, h0, hk]

theorem limbAt_of_limbsAt {s : State} {st a n j : Nat} {l : List Nat} (h : s.limbsAt st a n = some l)
    (hj : j < l.length) : s.limbAt (a + j * st) = some l[j] := by
  induction n generalizing a l j with
  | zero => simp only [State.limbsAt, Option.some.injEq] at h; simp [← h] at hj
  | succ n ih =>
    rw [State.limbsAt] at h
    split at h
    next x xs hx hxs =>
      simp only [Option.some.injEq] at h
      subst h
      cases j with
      | zero => simpa using hx
      | succ j =>
        rw [show a + (j + 1) * st = a + st + j * st by ring]
        simpa using ih hxs (by simpa using hj)
    next => simp at h

theorem limbsAt_congr_limbAt {s t : State} {st a n : Nat}
    (h : ∀ j, j < n → t.limbAt (a + j * st) = s.limbAt (a + j * st)) : t.limbsAt st a n = s.limbsAt st a n := by
  induction n generalizing a with
  | zero => rfl
  | succ n ih =>
    have h0 := h 0 (by omega)
    have hk := ih (a := a + st) (fun j hj => by
      have := h (j + 1) (by omega)
      rwa [show a + (j + 1) * st = a + st + j * st by ring] at this)
    simp only [Nat.zero_mul, Nat.add_zero] at h0
    rw [State.limbsAt, State.limbsAt, h0, hk]

theorem limbAt_setLimbs_inside (s : State) {st : Nat} (hst : 0 < st) (a : Nat) (l : List Nat) {j : Nat}
    (hj : j < l.length) : (State.setLimbs st s a l).limbAt (a + j * st) = some (l[j] % 2 ^ s.cfg.W) := by
  induction l generalizing s a j with
  | nil => simp at hj
  | cons x xs ih =>
    cases j with
    | zero =>
      rw [State.setLimbs, limbAt_setLimbs_outside]
      · simpa using limbAt_setLimb_same s a x
      · intro i _ h
        have : 0 < st + i * st := by positivity
        omega
    | succ j =>
      have := ih (s.setLimb a x) (a + st) (j := j) (by simpa using hj)
      rw [State.setLimbs, show a + (j + 1) * st = a + st + j * st by ring, this]
      simp

/-- Reading back the limbs just stored. -/
theorem limbsAt_setLimbs_same (s : State) {st : Nat} (hst : 0 < st) (a : Nat) (l : List Nat) :
    (State.setLimbs st s a l).limbsAt st a l.length = some (l.map (· % 2 ^ s.cfg.W)) := by
  have := limbsAt_of_limbAt (s := State.setLimbs st s a l) (st := st) (a := a) (l.map (· % 2 ^ s.cfg.W))
    (fun j hj => by
      rw [List.length_map] at hj
      rw [limbAt_setLimbs_inside s hst a l hj]
      simp)
  simpa using this

theorem setLimbs_wf {s : State} (h : Memory.wf s.lm) (st a : Nat) (l : List Nat) :
    Memory.wf (State.setLimbs st s a l).lm := by
  induction l generalizing s a with
  | nil => exact h
  | cons x xs ih => exact ih (setLimb_wf h a x) (a + st)

theorem mem_setLimbs {s : State} {st a : Nat} {l : List Nat} {p : Host.Cell}
    (h : p ∈ (State.setLimbs st s a l).lm) :
    (∃ j, j < l.length ∧ (a + j * st) * s.cfg.bpl ≤ p.1 ∧ p.1 < (a + j * st + 1) * s.cfg.bpl) ∨ p ∈ s.lm := by
  induction l generalizing s a with
  | nil => exact .inr h
  | cons x xs ih =>
    rcases ih h with ⟨j, hj, hp⟩ | h
    · refine .inl ⟨j + 1, by simpa using hj, ?_⟩
      rw [show a + (j + 1) * st = a + st + j * st by ring]
      simpa using hp
    · rcases mem_setLimb h with h | h
      · exact .inl ⟨0, by simp, by simpa using h⟩
      · exact .inr h

/-! ### Regions -/

theorem memRead_lt {s : State} {a n v : Nat} (h : s.memRead a n = some v) : v < 2 ^ (s.cfg.W * n) := by
  obtain ⟨l, hl, rfl⟩ := Option.map_eq_some_iff.mp h
  have := radixVal_lt (k := s.cfg.W) (l := l) (fun x hx => limbsAt_lt hl hx)
  rwa [limbsAt_length hl] at this

theorem memRead_isSome {s : State} {a n : Nat} : (s.memRead a n).isSome = (s.limbsAt 1 a n).isSome := by
  simp [State.memRead]

/-- A region reads as what was just stored into it. -/
theorem memRead_memWrite_same (s : State) (a n v : Nat) :
    (s.memWrite a n v).memRead a n = some (v % 2 ^ (s.cfg.W * n)) := by
  have h := limbsAt_setLimbs_same s (st := 1) (by omega) a (radixDigits s.cfg.W n v)
  rw [radixDigits_length] at h
  have hm : (radixDigits s.cfg.W n v).map (· % 2 ^ s.cfg.W) = radixDigits s.cfg.W n v :=
    (List.map_congr_left fun x hx => Nat.mod_eq_of_lt (radixDigits_lt hx)).trans (List.map_id _)
  rw [hm] at h
  simp only [State.memRead, memWrite_cfg]
  rw [show (s.memWrite a n v).limbsAt 1 a n = some (radixDigits s.cfg.W n v) from h]
  simp [radixVal_radixDigits]

/-- Digits just stored read back, a digit fitting a limb. -/
theorem limbsAt_digWrite_same (s : State) {d : Nat} (hd : d ≤ s.cfg.W) (a n v : Nat) :
    (s.digWrite d a n v).limbsAt 1 a n = some (radixDigits d n v) := by
  have h := limbsAt_setLimbs_same s (st := 1) (by omega) a (radixDigits d n v)
  rw [radixDigits_length] at h
  have hm : (radixDigits d n v).map (· % 2 ^ s.cfg.W) = radixDigits d n v :=
    (List.map_congr_left fun x hx => Nat.mod_eq_of_lt
      ((radixDigits_lt hx).trans_le (Nat.pow_le_pow_right (by omega) hd))).trans (List.map_id _)
  rw [hm] at h
  exact h

theorem limbsAt_setLimbs_disjoint (s : State) (st a : Nat) (l : List Nat) {c n : Nat}
    (h : ∀ i j, i < n → j < l.length → c + i ≠ a + j * st) :
    (State.setLimbs st s a l).limbsAt 1 c n = s.limbsAt 1 c n :=
  limbsAt_congr_limbAt (fun i hi => limbAt_setLimbs_outside s st a l (fun j hj => by
    simpa using h i j hi hj))

/-- A store into a region leaves every disjoint region's value alone. -/
theorem memRead_setLimbs_disjoint (s : State) (a : Nat) (l : List Nat) {c n : Nat}
    (h : Region.disjoint ⟨c, n⟩ ⟨a, l.length⟩ = true) :
    (State.setLimbs 1 s a l).memRead c n = s.memRead c n := by
  simp only [State.memRead, setLimbs_cfg]
  rw [limbsAt_setLimbs_disjoint]
  intro i j hi hj
  simp only [Region.disjoint, Bool.or_eq_true, decide_eq_true_eq] at h
  omega

theorem memRead_memWrite_disjoint (s : State) {a n c k : Nat} (v : Nat)
    (h : Region.disjoint ⟨c, k⟩ ⟨a, n⟩ = true) : (s.memWrite a n v).memRead c k = s.memRead c k :=
  memRead_setLimbs_disjoint s a _ (by simpa using h)

theorem memRead_havoc_disjoint (s : State) {a n c k : Nat} (h : Region.disjoint ⟨c, k⟩ ⟨a, n⟩ = true) :
    (s.havoc a n).memRead c k = s.memRead c k :=
  memRead_setLimbs_disjoint s a _ (by simpa using h)

/-- After Havoc every limb of the region is written (00_scope.md R12). -/
theorem memRead_havoc_isSome (s : State) (a n : Nat) : ((s.havoc a n).memRead a n).isSome := by
  have h := limbsAt_setLimbs_same s (st := 1) (by omega) a ((drawWords s.cfg s.draws 0 n).map BitVec.toNat)
  rw [List.length_map, drawWords_length] at h
  rw [memRead_isSome, show (s.havoc a n).limbsAt 1 a n = _ from h]
  rfl

theorem memWrite_wf {s : State} (h : Memory.wf s.lm) (a n v : Nat) : Memory.wf (s.memWrite a n v).lm :=
  setLimbs_wf h _ _ _

theorem digWrite_wf {s : State} (h : Memory.wf s.lm) (d a n v : Nat) : Memory.wf (s.digWrite d a n v).lm :=
  setLimbs_wf h _ _ _

theorem havoc_wf {s : State} (h : Memory.wf s.lm) (a n : Nat) : Memory.wf (s.havoc a n).lm := setLimbs_wf h _ _ _

theorem octetsWrite_wf {s : State} (h : Memory.wf s.lm) (b k v : Nat) : Memory.wf (s.octetsWrite b k v).lm :=
  writeBytes_wf h _ _

/-- The byte frame of a store at stride 1. -/
theorem byteAt_setLimbs_one_outside (s : State) (a : Nat) (l : List Nat) {b : Nat}
    (h : ¬ (a * s.cfg.bpl ≤ b ∧ b < (a + l.length) * s.cfg.bpl)) :
    Memory.byteAt (State.setLimbs 1 s a l).lm b = Memory.byteAt s.lm b := by
  apply byteAt_setLimbs_outside
  rintro j hj ⟨h1, h2⟩
  rw [Nat.mul_one] at h1 h2
  refine h ⟨le_trans (Nat.mul_le_mul_right _ (Nat.le_add_right a j)) h1, lt_of_lt_of_le h2 ?_⟩
  exact Nat.mul_le_mul_right _ (by omega)

end Sys2Proof.Machine
end

