-- ==== Sys2Proof/Laws/Commands.lean ====
section
/-! SUPPORT. What a command can do, said once: `exec_completion` gives every next state `exec` can answer, so that a
rule over all commands needs no case analysis of its own. -/

namespace Sys2Proof.Machine

open Sys2Proof

/-- The states a command reaches from `s` by stores that lie inside LM. -/
inductive Stored (s : State) : State → Prop
  | refl : Stored s s
  | limbs {u : State} (st a : Nat) (l : List Nat) (h : ∀ j, j < l.length → a + j * st < s.cfg.lmLimbs) :
      Stored s u → Stored s (State.setLimbs st u a l)
  | octets (b k v : Nat) (h : b + k ≤ s.cfg.lmLimbs * s.cfg.bpl) : Stored s (s.octetsWrite b k v)

/-- Every way a command completes. -/
inductive Completion (i : Instr) (s : State) : State → Prop
  | stores {u : State} (r0 r1 : Nat) (l : Leak) : Stored s u → Completion i s (u.finish .none r0 r1 l)
  | built (c : Slot) (m : Nat) (l : Leak) : i = .enginit c →
      1 ≤ s.opnd 1 → s.opnd 1 ≤ s.cfg.maxModBits → 1 ≤ s.opnd 2 → m % 2 = 1 → m < 2 ^ s.opnd 1 →
      m < 2 ^ (s.cfg.W * ceilDiv (s.opnd 1) s.cfg.W) →
      Completion i s ((s.setCtx c (newCtx s c m (ceilDiv (s.opnd 1) s.cfg.W) (s.opnd 1) (s.opnd 2))).finish .none
        (ceilDiv (s.opnd 1) s.cfg.W) 0 l)
  | failed (c : Slot) (e : ErrCode) (l : Leak) : i = .enginit c →
      Completion i s ((s.setCtx c (freeCtx s.cfg false (slotIndex c) s.draws)).finish e 0 0 l)
  | tooSmall (l : Leak) : i = .bn2os → Completion i s (s.finish .tooSmall 0 0 l)

/-- The outcome is a next state that meets `P`, or a fault; it is never refused. -/
def Ends (o : Out) (P : State → Prop) : Prop := (∀ t, o = .next t → P t) ∧ ∀ x, o ≠ .refused x

variable {s : State} {P : State → Prop} {r : Fault} {k : Out}

theorem Ends.next {t : State} (h : P t) : Ends (.next t) P :=
  ⟨fun _ ht => Host.Outcome.next.inj ht ▸ h, fun _ hx => (by cases hx)⟩

theorem Ends.guard {p : Prop} [Decidable p] (h : p → Ends k P) : Ends (guardUB p r k) P := by
  unfold guardUB
  split
  next hp => exact h hp
  next => exact ⟨fun _ ht => (by cases ht), fun _ hx => (by cases hx)⟩

theorem Ends.need {α : Type} {o : Option α} {f : α → Out} (h : ∀ v, o = some v → Ends (f v) P) :
    Ends (needUB o r f) P := by
  cases o with
  | none => exact ⟨fun _ ht => (by simp [needUB] at ht), fun _ hx => (by simp [needUB] at hx)⟩
  | some v => exact h v rfl

theorem Ends.regions {cls : AliasClass} {ins outs : List Region}
    (h : (∀ q ∈ outs, q.base + q.count ≤ s.cfg.lmLimbs) → Ends k P) : Ends (checkRegions s cls ins outs k) P :=
  Ends.guard fun hb => Ends.guard fun _ => h fun q hq => by
    have := List.all_eq_true.mp hb q (List.mem_append_right _ hq)
    simpa [Region.inBounds] using this

theorem Ends.val {a n : Nat} {f : Nat → Out} (h : ∀ v, s.memRead a n = some v → Ends (f v) P) :
    Ends (withVal s a n f) P := Ends.need h

theorem Ends.limbs {st a n : Nat} {f : List Nat → Out} (h : ∀ l, s.limbsAt st a n = some l → Ends (f l) P) :
    Ends (withLimbs s st a n f) P := Ends.need h

theorem Ends.digits {d a n : Nat} {f : Nat → Out} (h : ∀ v, Ends (f v) P) : Ends (withDigits s d a n f) P :=
  Ends.need fun _ _ => Ends.guard fun _ => h _

theorem Ends.context {c : Slot} {opc : Nat} {f : Ctx → Out} (h : Ends (f (s.ctx c)) P) :
    Ends (withCtx s c opc f) P := Ends.guard fun _ => Ends.guard fun _ => h

theorem Ends.divisor {b nb : Nat} (h : Ends k P) : Ends (divisorCheck s b nb k) P :=
  Ends.need fun _ _ => Ends.guard fun _ => h

theorem Ends.amm {dg : DigitSize} {a b m k0 len : Nat} {f : Nat → Out} (h : ∀ v, Ends (f v) P) :
    Ends (withAmm s dg a b m k0 len f) P :=
  Ends.guard fun _ => Ends.guard fun _ => Ends.digits fun _ => Ends.digits fun _ => Ends.digits fun _ =>
    Ends.guard fun _ => Ends.guard fun _ => Ends.guard fun _ => Ends.guard fun _ => h _

theorem Ends.expOperands {x : Ctx} {xb eb bits : Nat} {f : Nat → Nat → Out} (h : ∀ v w, Ends (f v w) P) :
    Ends (withExpOperands s x xb eb bits f) P :=
  Ends.guard fun _ => Ends.val fun _ _ => Ends.val fun _ _ => Ends.guard fun _ => Ends.guard fun _ => h _ _

/-! ### The bounds of a command's outputs -/

theorem bound1 {a c n : Nat} {l : List Region} (h : ∀ q ∈ (⟨a, c⟩ : Region) :: l, q.base + q.count ≤ n) : a + c ≤ n :=
  h _ List.mem_cons_self

theorem bound2 {r : Region} {a c n : Nat} {l : List Region}
    (h : ∀ q ∈ r :: (⟨a, c⟩ : Region) :: l, q.base + q.count ≤ n) : a + c ≤ n :=
  h _ (List.mem_cons_of_mem _ List.mem_cons_self)

theorem bound3 {r q : Region} {a c n : Nat} {l : List Region}
    (h : ∀ p ∈ r :: q :: (⟨a, c⟩ : Region) :: l, p.base + p.count ≤ n) : a + c ≤ n :=
  h _ (List.mem_cons_of_mem _ (List.mem_cons_of_mem _ List.mem_cons_self))

/-! ### Stores -/

theorem Stored.memWrite {u : State} (h : Stored s u) {a n : Nat} (v : Nat) (hb : a + n ≤ s.cfg.lmLimbs) :
    Stored s (u.memWrite a n v) :=
  Stored.limbs 1 a _ (fun j hj => by rw [radixDigits_length] at hj; omega) h

theorem Stored.digWrite {u : State} (h : Stored s u) (d : Nat) {a n : Nat} (v : Nat) (hb : a + n ≤ s.cfg.lmLimbs) :
    Stored s (u.digWrite d a n v) :=
  Stored.limbs 1 a _ (fun j hj => by rw [radixDigits_length] at hj; omega) h

theorem Stored.havoc {u : State} (h : Stored s u) {a n : Nat} (hb : a + n ≤ s.cfg.lmLimbs) :
    Stored s (u.havoc a n) :=
  Stored.limbs 1 a _ (fun j hj => by rw [List.length_map, drawWords_length] at hj; omega) h

/-- Stores change LM and nothing else. -/
theorem Stored.only_lm {u : State} (h : Stored s u) : u = { s with lm := u.lm } := by
  induction h with
  | refl => rfl
  | limbs st a l _ _ ih => rw [setLimbs_only_lm, ih]
  | octets => rfl

theorem Stored.wf {u : State} (h : Stored s u) (hw : Memory.wf s.lm) : Memory.wf u.lm := by
  induction h with
  | refl => exact hw
  | limbs st a l _ _ ih => exact setLimbs_wf ih _ _ _
  | octets => exact octetsWrite_wf hw _ _ _

/-- Stores leave nothing outside LM_LIMBS limbs (20_memory.md R75). -/
theorem Stored.bounded {u : State} (h : Stored s u) (hb : ∀ p ∈ s.lm, p.1 < s.cfg.lmLimbs * s.cfg.bpl) :
    ∀ p ∈ u.lm, p.1 < s.cfg.lmLimbs * s.cfg.bpl := by
  induction h with
  | refl => exact hb
  | @limbs u st a l hl hu ih =>
    intro p hp
    have hc : u.cfg = s.cfg := by rw [hu.only_lm]
    rcases mem_setLimbs hp with ⟨j, hj, _, h2⟩ | hp
    · rw [hc] at h2
      exact h2.trans_le (Nat.mul_le_mul_right _ (hl j hj))
    · exact ih p hp
  | octets b k v hbk =>
    intro p hp
    rcases mem_writeBytes hp with ⟨_, h2⟩ | hp
    · rw [List.length_reverse, valBytes_length] at h2
      exact h2.trans_le hbk
    · exact hb p hp

/-! ### Every command -/

section
variable {i : Instr}

theorem ends_stores {u : State} {r0 r1 : Nat} {l : Leak} (h : Stored s u) :
    Ends (.next (u.finish .none r0 r1 l)) (Completion i s) := Ends.next (.stores r0 r1 l h)

theorem ends_bnuBinary (f g : Nat → Nat → Nat → Nat) : Ends (bnuBinary s f g) (Completion i s) :=
  Ends.regions fun hb => Ends.guard fun _ => Ends.val fun _ _ => Ends.val fun _ _ =>
    ends_stores (Stored.refl.memWrite _ (bound1 hb))

theorem ends_bnuDigit (f g : Nat → Nat → Nat → Nat) : Ends (bnuDigit s f g) (Completion i s) :=
  Ends.regions fun hb => Ends.guard fun _ => Ends.val fun _ _ => ends_stores (Stored.refl.memWrite _ (bound1 hb))

theorem ends_methodBinary (c : Slot) (opc : Nat) (f : Ctx → Nat → Nat → Nat) :
    Ends (methodBinary s c opc f) (Completion i s) := by
  unfold methodBinary
  exact Ends.context (Ends.regions fun hb => Ends.val fun _ _ => Ends.val fun _ _ => Ends.guard fun _ =>
    ends_stores (Stored.refl.memWrite _ (bound1 hb)))

theorem ends_methodUnary (c : Slot) (opc : Nat) (f : Ctx → Nat → Nat) :
    Ends (methodUnary s c opc f) (Completion i s) := by
  unfold methodUnary
  exact Ends.context (Ends.regions fun hb => Ends.val fun _ _ => Ends.guard fun _ =>
    ends_stores (Stored.refl.memWrite _ (bound1 hb)))

theorem ends_expSingle (c : Slot) (opc w : Nat) (y : Ctx → Nat → Nat → Nat → Nat) (fin : State → State)
    (hf : ∀ t, ∃ l, fin t = t.finish .none 0 0 l) : Ends (expSingle s c opc w y fin) (Completion i s) := by
  unfold expSingle
  refine Ends.context (Ends.regions fun hb => Ends.expOperands fun x e => ?_)
  obtain ⟨l, hl⟩ := hf (((s.memWrite (s.opnd 0) (ctxLen (s.ctx c)) (y (s.ctx c) x e (s.opnd 3))).havoc (s.opnd 4)
    (expBuf s.cfg (ctxLen (s.ctx c)) w)))
  rw [hl]
  exact ends_stores ((Stored.refl.memWrite _ (bound1 hb)).havoc (bound2 hb))

theorem ends_enginitError (c : Slot) (e : ErrCode) : Ends (enginitError s c e) (Completion (.enginit c) s) :=
  Ends.next (.failed c e _ rfl)

theorem ends_execEnginit (c : Slot) : Ends (execEnginit c s) (Completion (.enginit c) s) := by
  unfold execEnginit
  dsimp only
  split
  next => exact ends_enginitError c _
  next h1 =>
    split
    next => exact ends_enginitError c _
    next h2 =>
      refine Ends.guard fun _ => Ends.val fun m hm => ?_
      split
      next => exact ends_enginitError c _
      next h3 =>
        exact Ends.guard fun h4 => Ends.next (.built c m _ rfl (by omega) (by omega) (by omega)
            (by omega) h4 (memRead_lt hm))

theorem ends_execBn2os : Ends (execBn2os s) (Completion .bn2os s) := by
  refine Ends.guard fun h1 => Ends.guard fun _ => Ends.guard fun _ => Ends.val fun _ _ => ?_
  split
  next => exact Ends.next (.tooSmall _ rfl)
  next => exact ends_stores (.octets _ _ _ (by simpa [bytesInBounds] using h1.1))

theorem ends_execModinv : Ends (execModinv s) (Completion i s) := by
  refine Ends.regions fun hb => Ends.guard fun _ => Ends.val fun _ _ => Ends.val fun _ _ => Ends.guard fun _ => ?_
  split
  next => exact ends_stores (Stored.refl.memWrite _ (bound1 hb))
  next => exact ends_stores (Stored.refl.havoc (bound1 hb))

theorem ends_execMaskcopy : Ends (execMaskcopy s) (Completion i s) :=
  Ends.regions fun hb => Ends.guard fun _ => Ends.limbs fun xs hx => Ends.limbs fun ys _ =>
    ends_stores (Stored.limbs 1 _ _ (fun j hj => by
      have := hb _ (List.mem_singleton.mpr rfl)
      have hl := limbsAt_length hx
      simp only [List.length_zipWith] at hj
      dsimp only at this
      omega) .refl)

theorem ends_execScrput (w : Win) : Ends (execScrput w s) (Completion i s) :=
  Ends.regions fun hb => Ends.guard fun _ => Ends.guard fun hi => Ends.limbs fun xs hx =>
    ends_stores (Stored.limbs _ _ _ (fun j hj => by
      have h := hb _ (List.mem_singleton.mpr rfl)
      rw [limbsAt_length hx] at hj
      dsimp only at h
      have : (j + 1) * 2 ^ w.toNat ≤ 2 ^ w.toNat * s.opnd 3 := by
        rw [Nat.mul_comm]; exact Nat.mul_le_mul_left _ hj
      rw [Nat.succ_mul] at this
      omega) .refl)

theorem ends_execScrget (w : Win) : Ends (execScrget w s) (Completion i s) :=
  Ends.regions fun hb => Ends.guard fun _ => Ends.guard fun _ => Ends.limbs fun xs hx =>
    ends_stores (Stored.limbs 1 _ _ (fun j hj => by
      have h := hb _ (List.mem_singleton.mpr rfl)
      rw [limbsAt_length hx] at hj
      dsimp only at h
      omega) .refl)

theorem scanTable_length (W idx bigN n : Nat) (l : List Nat) : (scanTable W idx bigN n l).length = n := by
  induction n generalizing l with
  | zero => rfl
  | succ n ih => simp [scanTable, ih]

theorem ends_execScrgetct (w : Win) : Ends (execScrgetct w s) (Completion i s) :=
  Ends.regions fun hb => Ends.guard fun _ => Ends.guard fun _ => Ends.limbs fun _ _ =>
    ends_stores (Stored.limbs 1 _ _ (fun j hj => by
      have h := hb _ (List.mem_singleton.mpr rfl)
      rw [scanTable_length] at hj
      dsimp only at h
      omega) .refl)

/-- Every command ends in a fault or completes as `Completion` says; none is refused. -/
theorem exec_completion (i : Instr) (s : State) : Ends (exec i s) (Completion i s) := by
  cases i with
  | nop => exact ends_stores .refl
  | add =>
    unfold exec execAdd
    exact ends_bnuBinary _ _
  | sub =>
    unfold exec execSub
    exact ends_bnuBinary _ _
  | inc =>
    unfold exec execInc
    exact ends_bnuDigit _ _
  | dec =>
    unfold exec execDec
    exact ends_bnuDigit _ _
  | muld =>
    unfold exec execMuld
    exact ends_bnuDigit _ _
  | submuld =>
    exact Ends.regions fun hb => Ends.guard fun _ => Ends.val fun _ _ => Ends.val fun _ _ =>
      ends_stores (Stored.refl.memWrite _ (bound1 hb))
  | mul =>
    exact Ends.regions fun hb => Ends.guard fun _ => Ends.val fun _ _ => Ends.val fun _ _ =>
      ends_stores (Stored.refl.memWrite _ (bound1 hb))
  | sqr | lsr =>
    exact Ends.regions fun hb => Ends.guard fun _ => Ends.val fun _ _ =>
      ends_stores (Stored.refl.memWrite _ (bound1 hb))
  | nlz | ntz | gcd | winsize => exact ends_stores .refl
  | fix => exact Ends.regions fun _ => Ends.guard fun _ => Ends.val fun _ _ => ends_stores .refl
  | cmp | cmpct =>
    exact Ends.regions fun _ => Ends.guard fun _ => Ends.val fun _ _ => Ends.val fun _ _ => ends_stores .refl
  | maskcopy => exact ends_execMaskcopy
  | div =>
    exact Ends.regions fun hb => Ends.guard fun _ => Ends.guard fun _ => Ends.divisor (Ends.val fun _ _ =>
      Ends.val fun _ _ => ends_stores ((Stored.refl.memWrite _ (bound1 hb)).memWrite _ (bound2 hb)))
  | mod =>
    exact Ends.regions fun hb => Ends.guard fun _ => Ends.divisor (Ends.val fun _ _ => Ends.val fun _ _ =>
      ends_stores (Stored.refl.memWrite _ (bound1 hb)))
  | modinv => exact ends_execModinv
  | montfactor => exact Ends.guard fun _ => ends_stores .refl
  | enginit c => exact ends_execEnginit c
  | engrd c =>
    unfold exec execEngrd
    exact Ends.context (Ends.guard fun _ => Ends.regions fun hb =>
      ends_stores (Stored.refl.memWrite _ (bound1 hb)))
  | madd c =>
    unfold exec execMadd
    exact ends_methodBinary _ _ _
  | msub c =>
    unfold exec execMsub
    exact ends_methodBinary _ _ _
  | mmul c =>
    unfold exec execMmul
    exact ends_methodBinary _ _ _
  | mneg c =>
    unfold exec execMneg
    exact ends_methodUnary _ _ _
  | mdiv2 c =>
    unfold exec execMdiv2
    exact ends_methodUnary _ _ _
  | mmul2 c =>
    unfold exec execMmul2
    exact ends_methodUnary _ _ _
  | mmul3 c =>
    unfold exec execMmul3
    exact ends_methodUnary _ _ _
  | msqr c =>
    unfold exec execMsqr
    exact ends_methodUnary _ _ _
  | menc c =>
    unfold exec execMenc
    exact ends_methodUnary _ _ _
  | mdec c =>
    unfold exec execMdec
    exact ends_methodUnary _ _ _
  | mred c =>
    unfold exec execMred
    exact Ends.context (Ends.regions fun hb => Ends.val fun _ _ => Ends.guard fun _ =>
      ends_stores (Stored.refl.memWrite _ (bound1 hb)))
  | r2red d =>
    exact Ends.regions fun hb => Ends.guard fun _ => Ends.guard fun _ => Ends.val fun _ _ => Ends.guard fun _ =>
      ends_stores (Stored.refl.digWrite _ _ (bound1 hb))
  | red2r d =>
    exact Ends.regions fun hb => Ends.guard fun _ => Ends.digits fun _ => Ends.guard fun _ =>
      ends_stores (Stored.refl.memWrite _ (bound1 hb))
  | amm d =>
    unfold exec execAmm
    exact Ends.regions fun hb => Ends.amm fun _ => ends_stores (Stored.refl.digWrite _ _ (bound1 hb))
  | ams d =>
    unfold exec execAms
    exact Ends.regions fun hb => Ends.amm fun _ => ends_stores (Stored.refl.digWrite _ _ (bound1 hb))
  | ammdual d =>
    unfold exec execAmmdual
    exact Ends.regions fun hb => Ends.amm fun _ => Ends.amm fun _ =>
      ends_stores ((Stored.refl.digWrite _ _ (bound1 hb)).digWrite _ _ (bound2 hb))
  | scrsize w => exact Ends.guard fun _ => Ends.guard fun _ => ends_stores .refl
  | expbufsize w => exact Ends.guard fun _ => Ends.guard fun _ => ends_stores .refl
  | scrput w => exact ends_execScrput w
  | scrget w => exact ends_execScrget w
  | scrgetct w => exact ends_execScrgetct w
  | expbin c dom =>
    unfold exec execExpbin
    exact ends_expSingle c _ _ _ _ fun t => ⟨_, rfl⟩
  | expbinct c dom =>
    unfold exec execExpbinct
    exact ends_expSingle c _ _ _ _ fun t => ⟨_, rfl⟩
  | expwin c dom w =>
    unfold exec execExpwin
    exact ends_expSingle c _ _ _ _ fun t => ⟨_, rfl⟩
  | expwinct c dom w =>
    unfold exec execExpwinct
    exact ends_expSingle c _ _ _ _ fun t => ⟨_, rfl⟩
  | dualexpwinct dom w =>
    unfold exec execDualexpwinct
    exact Ends.context (Ends.context (Ends.guard fun _ => Ends.regions fun hb => Ends.expOperands fun _ _ =>
      Ends.expOperands fun _ _ => ends_stores (((Stored.refl.memWrite _ (bound1 hb)).memWrite _
        (bound2 hb)).havoc (bound3 hb))))
  | os2bn =>
    exact Ends.guard fun h1 => Ends.guard fun _ => Ends.guard fun _ => Ends.guard fun _ => Ends.need fun _ _ =>
      ends_stores (Stored.refl.memWrite _ (by simpa [Region.inBounds] using h1.2))
  | bn2os => exact ends_execBn2os

end

end Sys2Proof.Machine
end

