-- ==== Sys2Proof/Laws/Completes.lean ====
section
/-! SUPPORT. `CompletesUnder` and `Frame`, each check and each store once: a command's contract is read off its meaning
check by check, `CompletesWhen` carrying the conditions met so far. -/

namespace Sys2Proof.Machine

open Sys2Proof

variable {s : State} {c : Contract} {k : Out} {post : State → Prop} {p q : Prop}

/-! ### Contracts, check by check -/

/-- The contract names the reason `r` whenever `p` fails. -/
def Contract.Names (c : Contract) (p : Prop) (r : Fault) : Prop := ¬ p → ∃ q ∈ c, ¬ q.1 ∧ q.2 = r

/-- `CompletesUnder` with the conditions still to be checked: the outcome completes exactly when `q` holds, and a fault
is one the contract names. -/
def CompletesWhen (c : Contract) (q : Prop) (o : Out) (post : State → Prop) : Prop :=
  (q → ∃ t, o = .next t ∧ post t) ∧ (¬ q → ∃ p ∈ c, ¬ p.1 ∧ o = .fault p.2)

/-- A meaning whose checks are those of the contract completes under it. -/
theorem CompletesUnder.of {o : Out} (h : c.Holds ↔ q) (hq : CompletesWhen c q o post) : CompletesUnder c o post :=
  ⟨fun hc => hq.1 (h.mp hc), fun hc => hq.2 (mt h.mpr hc)⟩

theorem CompletesWhen.congr {o : Out} (h : p ↔ q) (hq : CompletesWhen c q o post) : CompletesWhen c p o post :=
  ⟨fun hp => hq.1 (h.mp hp), fun hp => hq.2 (mt h.mpr hp)⟩

theorem CompletesWhen.next {t : State} (h : post t) : CompletesWhen c True (.next t) post :=
  ⟨fun _ => ⟨t, rfl, h⟩, fun hf => absurd trivial hf⟩

theorem CompletesWhen.guard {r : Fault} [Decidable p] (hn : c.Names p r) (h : p → CompletesWhen c q k post) :
    CompletesWhen c (p ∧ q) (guardUB p r k) post := by
  by_cases hp : p
  · rw [guardUB_of hp]
    exact ⟨fun hq => (h hp).1 hq.2, fun hq => (h hp).2 (fun hq' => hq ⟨hp, hq'⟩)⟩
  · rw [guardUB_of_not hp]
    obtain ⟨x, h1, h2, rfl⟩ := hn hp
    exact ⟨fun hq => absurd hq.1 hp, fun _ => ⟨x, h1, h2, rfl⟩⟩

theorem CompletesWhen.need {α : Type} {o : Option α} {r : Fault} {f : α → Out} {Q : α → Prop}
    (hn : c.Names o.isSome r) (h : ∀ v, o = some v → CompletesWhen c (Q v) (f v) post) :
    CompletesWhen c (∃ v, o = some v ∧ Q v) (needUB o r f) post := by
  cases o with
  | none =>
    obtain ⟨x, h1, h2, rfl⟩ := hn (by simp)
    exact ⟨fun hq => absurd hq (by simp), fun _ => ⟨x, h1, h2, rfl⟩⟩
  | some v =>
    refine ⟨fun ⟨v', hv, hq⟩ => ?_, fun hn => (h v rfl).2 (fun hq => hn ⟨v, rfl, hq⟩)⟩
    cases hv
    exact (h v rfl).1 hq

/-- The bounds and alias conditions of 20_memory.md R75 and R77. -/
def RegionsOk (s : State) (cls : AliasClass) (ins outs : List Region) : Prop :=
  (∀ q ∈ ins ++ outs, q.base + q.count ≤ s.cfg.lmLimbs) ∧ aliasOk cls ins outs = true

@[simp] theorem regions_holds {cls : AliasClass} {ins outs : List Region} :
    (Contract.regions s cls ins outs).Holds ↔ RegionsOk s cls ins outs := by
  simp [Contract.regions, Contract.Holds, RegionsOk]

theorem regionsOk_iff {cls : AliasClass} {ins outs : List Region} :
    RegionsOk s cls ins outs ↔
      (ins ++ outs).all (fun r => r.inBounds s.cfg) = true ∧ aliasOk cls ins outs = true := by
  simp [RegionsOk, Region.inBounds, List.all_eq_true, or_imp, forall_and]

/-- Region checks whose conditions the contract names, in whatever words. -/
theorem CompletesWhen.regionsOf {cls : AliasClass} {ins outs : List Region}
    (hb : c.Names (∀ q ∈ ins ++ outs, q.base + q.count ≤ s.cfg.lmLimbs) .outOfBounds)
    (ha : c.Names (aliasOk cls ins outs = true) .overlap)
    (h : RegionsOk s cls ins outs → CompletesWhen c q k post) :
    CompletesWhen c (RegionsOk s cls ins outs ∧ q) (checkRegions s cls ins outs k) post := by
  rw [checkRegions]
  refine CompletesWhen.congr (q := _ ∧ _ ∧ q) ?_ (CompletesWhen.guard (fun hp => hb (mt (fun h => ?_) hp)) fun h1 =>
    CompletesWhen.guard ha fun h2 => h ?_)
  · rw [regionsOk_iff, and_assoc]
  · simpa [List.all_eq_true, Region.inBounds, or_imp, forall_and] using h
  · rw [regionsOk_iff]; exact ⟨h1, h2⟩

/-- The contract lists the region conditions of `Contract.regions`. -/
theorem CompletesWhen.regions {cls : AliasClass} {ins outs : List Region}
    (hc : Contract.regions s cls ins outs ⊆ c)
    (h : RegionsOk s cls ins outs → CompletesWhen c q k post) :
    CompletesWhen c (RegionsOk s cls ins outs ∧ q) (checkRegions s cls ins outs k) post :=
  CompletesWhen.regionsOf (fun hp => ⟨_, hc (List.mem_cons_self), hp, rfl⟩)
    (fun hp => ⟨_, hc (List.mem_cons_of_mem _ List.mem_cons_self), hp, rfl⟩) h

theorem valAt_of {a n v : Nat} (h : s.memRead a n = some v) : valAt s a n = v := by rw [valAt, h]; rfl

theorem written_of {a n v : Nat} (h : s.memRead a n = some v) : Written s a n := by rw [Written, h]; rfl

theorem memRead_of_written {a n : Nat} (h : Written s a n) : s.memRead a n = some (valAt s a n) := by
  obtain ⟨v, hv⟩ := Option.isSome_iff_exists.mp h
  rw [valAt_of hv, hv]

theorem written_iff_limbs {a n : Nat} : Written s a n ↔ (s.limbsAt 1 a n).isSome := by
  rw [Written, State.memRead, Option.isSome_map]

theorem valAt_lt (s : State) (a n : Nat) : valAt s a n < 2 ^ (s.cfg.W * n) := by
  unfold valAt
  cases h : s.memRead a n with
  | none => exact Nat.two_pow_pos _
  | some v => exact memRead_lt h

theorem CompletesWhen.val {a n : Nat} {f : Nat → Out} (hn : c.Names (Written s a n) .uninitRead)
    (h : Written s a n → CompletesWhen c q (f (valAt s a n)) post) :
    CompletesWhen c (Written s a n ∧ q) (withVal s a n f) post := by
  refine CompletesWhen.congr ?_ (CompletesWhen.need (Q := fun _ => q) hn fun v hv => ?_)
  · rw [Written, Option.isSome_iff_exists]; exact ⟨fun ⟨⟨v, hv⟩, hq⟩ => ⟨v, hv, hq⟩, fun ⟨v, hv, hq⟩ => ⟨⟨v, hv⟩, hq⟩⟩
  · have := h (written_of hv); rwa [valAt_of hv] at this

theorem CompletesWhen.limbs {st a n : Nat} {f : List Nat → Out} {Q : List Nat → Prop}
    (hn : c.Names (s.limbsAt st a n).isSome .uninitRead)
    (h : ∀ l, s.limbsAt st a n = some l → CompletesWhen c (Q l) (f l) post) :
    CompletesWhen c (∃ l, s.limbsAt st a n = some l ∧ Q l) (withLimbs s st a n f) post := CompletesWhen.need hn h

theorem DigitsAt.unique {d a n v w : Nat} (h : DigitsAt s d a n v) (h' : DigitsAt s d a n w) : v = w := by
  obtain ⟨l, h1, _, rfl⟩ := h
  obtain ⟨l', h1', _, rfl⟩ := h'
  rw [h1] at h1'
  cases h1'
  rfl

theorem DigitsAt.lt {d a n v : Nat} (h : DigitsAt s d a n v) : v < 2 ^ (d * n) := by
  obtain ⟨l, h1, h2, rfl⟩ := h
  have := radixVal_lt h2
  rwa [limbsAt_length h1] at this

/-- A written region of normalized digits holds its `dvalAt`. -/
theorem digitsAt_dvalAt {d a n : Nat} (hw : Written s a n) (hd : Normalized s d a n) :
    DigitsAt s d a n (dvalAt s d a n) := by
  obtain ⟨l, hl⟩ := Option.isSome_iff_exists.mp (written_iff_limbs.mp hw)
  exact ⟨l, hl, hd l hl, by rw [dvalAt, hl]; rfl⟩

theorem CompletesWhen.digits {d a n : Nat} {f : Nat → Out} (hw : c.Names (Written s a n) .uninitRead)
    (hd : c.Names (Normalized s d a n) .digitOverflow)
    (h : Written s a n → Normalized s d a n → CompletesWhen c q (f (dvalAt s d a n)) post) :
    CompletesWhen c (Written s a n ∧ Normalized s d a n ∧ q) (withDigits s d a n f) post := by
  have key : ∀ l, s.limbsAt 1 a n = some l → ((l.all fun x => decide (x < 2 ^ d)) = true ↔ Normalized s d a n) := by
    intro l hl
    simp only [List.all_eq_true, decide_eq_true_eq, Normalized, hl, Option.some.injEq, forall_eq']
  refine CompletesWhen.congr ?_ (CompletesWhen.limbs (Q := fun l => (l.all fun x => decide (x < 2 ^ d)) = true ∧ q)
    (fun hp => hw (mt written_iff_limbs.mp hp)) fun l hl =>
    CompletesWhen.guard (fun hp => hd (mt (key l hl).mpr hp)) fun hp => ?_)
  · rw [written_iff_limbs, Option.isSome_iff_exists]
    constructor
    · rintro ⟨⟨l, hl⟩, hn, hq⟩; exact ⟨l, hl, (key l hl).mpr hn, hq⟩
    · rintro ⟨l, hl, hn, hq⟩; exact ⟨⟨l, hl⟩, (key l hl).mp hn, hq⟩
  · have := h (written_iff_limbs.mpr (by rw [hl]; rfl)) ((key l hl).mp hp)
    rwa [dvalAt, hl] at this

/-- The context is constructed and its pool suffices for the opcode (42_montgomery.md R230, R231). -/
def CtxReady (s : State) (c : Slot) (opc : Nat) : Prop :=
  (s.ctx c).valid = true ∧ poolNeedOf s.cfg opc ≤ (s.ctx c).poolCap.toNat

@[simp] theorem context_holds {x : Slot} {opc : Nat} : (Contract.context s x opc).Holds ↔ CtxReady s x opc := by
  simp [Contract.context, Contract.Holds, CtxReady]

theorem CompletesWhen.context {x : Slot} {opc : Nat} {f : Ctx → Out} (hc : Contract.context s x opc ⊆ c)
    (h : CtxReady s x opc → CompletesWhen c q (f (s.ctx x)) post) :
    CompletesWhen c (CtxReady s x opc ∧ q) (withCtx s x opc f) post := by
  refine CompletesWhen.congr (q := _ ∧ _ ∧ q) ?_ (CompletesWhen.guard (fun hp => ⟨_, hc List.mem_cons_self, hp, rfl⟩)
    fun h1 => CompletesWhen.guard (fun hp => ⟨_, hc (List.mem_cons_of_mem _ List.mem_cons_self), hp, rfl⟩)
      fun h2 => h ⟨h1, h2⟩)
  rw [CtxReady, and_assoc]

@[simp] theorem Contract.holds_nil : Contract.Holds [] := fun _ h => nomatch h
@[simp] theorem Contract.holds_cons {x : Prop × Fault} {l : Contract} :
    Contract.Holds (x :: l) ↔ x.1 ∧ Contract.Holds l := List.forall_mem_cons
@[simp] theorem Contract.holds_append {l m : Contract} :
    Contract.Holds (l ++ m) ↔ Contract.Holds l ∧ Contract.Holds m := List.forall_mem_append
theorem reads_holds {l : List Region} :
    (Contract.reads s l).Holds ↔ ∀ q ∈ l, Written s q.base q.count := by
  simp [Contract.reads, Contract.Holds]

/-! What a contract names, piece by piece. -/

theorem Contract.Names.of_mem {r : Fault} {P : Prop} (h : (P, r) ∈ c) (hp : P → p) : c.Names p r :=
  fun hn => ⟨_, h, mt hp hn, rfl⟩

theorem Contract.names_reads {a n : Nat} {l : List Region} (hc : Contract.reads s l ⊆ c) (h : ⟨a, n⟩ ∈ l) :
    c.Names (Written s a n) .uninitRead :=
  Contract.Names.of_mem (hc List.mem_cons_self) fun hw => hw _ h

/-! ### Results -/

theorem done_complete {t : State} {r0 r1 : Nat} {l : Leak} (h0 : r0 < 2 ^ t.cfg.W) (h1 : r1 < 2 ^ t.cfg.W) :
    Done (t.complete r0 r1 l) r0 r1 := ⟨rfl, rfl, wordOf_toNat_of_lt h0, wordOf_toNat_of_lt h1⟩

theorem done_complete_zero (t : State) (l : Leak) : Done (t.complete 0 0 l) 0 0 :=
  done_complete (Nat.two_pow_pos _) (Nat.two_pow_pos _)

theorem failed_completeErr (t : State) (e : ErrCode) (l : Leak) : Failed (t.completeErr e l) e :=
  ⟨rfl, rfl, by simp [wordOf], by simp [wordOf]⟩

/-! ### Frames -/

theorem keepsLmOutside_refl (s : State) (regions : List Region) : KeepsLmOutside s s regions := fun _ _ => rfl

theorem KeepsLmOutside.trans {s t u : State} {l m : List Region} (h : KeepsLmOutside s t l) (hc : t.cfg = s.cfg)
    (h' : KeepsLmOutside t u m) : KeepsLmOutside s u (l ++ m) := by
  intro b hb
  rw [h' b (fun q hq => by rw [hc]; exact hb q (List.mem_append_right _ hq))]
  exact h b (fun q hq => hb q (List.mem_append_left _ hq))

theorem keepsLmOutside_setLimbs (s : State) (a : Nat) (l : List Nat) {n : Nat} (hn : l.length = n) :
    KeepsLmOutside s (State.setLimbs 1 s a l) [⟨a, n⟩] := by
  intro b hb
  exact byteAt_setLimbs_one_outside s a l (by rw [hn]; exact hb _ (List.mem_singleton.mpr rfl))

theorem keepsLmOutside_memWrite (s : State) (a n v : Nat) : KeepsLmOutside s (s.memWrite a n v) [⟨a, n⟩] :=
  keepsLmOutside_setLimbs s a _ (radixDigits_length _ _ _)

theorem keepsLmOutside_digWrite (s : State) (d a n v : Nat) : KeepsLmOutside s (s.digWrite d a n v) [⟨a, n⟩] :=
  keepsLmOutside_setLimbs s a _ (radixDigits_length _ _ _)

theorem keepsLmOutside_havoc (s : State) (a n : Nat) : KeepsLmOutside s (s.havoc a n) [⟨a, n⟩] :=
  keepsLmOutside_setLimbs s a _ (by simp)

/-- Storing limbs changes LM only, so a store's frame is its LM frame. -/
theorem frame_finish_setLimbs {s : State} {st a : Nat} {l : List Nat} {regions : List Region}
    (h : KeepsLmOutside s (State.setLimbs st s a l) regions) (e : ErrCode) (r0 r1 : Nat) (lk : Leak) :
    Frame s ((State.setLimbs st s a l).finish e r0 r1 lk) regions :=
  ⟨⟨by simp, by simp, by simp, by simp, by simp⟩, by simp, by simp, h⟩

theorem frame_finish (s : State) (e : ErrCode) (r0 r1 : Nat) (lk : Leak) : Frame s (s.finish e r0 r1 lk) [] :=
  ⟨⟨rfl, rfl, rfl, rfl, rfl⟩, rfl, rfl, fun _ _ => rfl⟩

theorem frame_memWrite_complete (s : State) (a n v r0 r1 : Nat) (l : Leak) :
    Frame s ((s.memWrite a n v).complete r0 r1 l) [⟨a, n⟩] :=
  frame_finish_setLimbs (keepsLmOutside_memWrite s a n v) _ _ _ _

theorem frame_digWrite_complete (s : State) (d a n v r0 r1 : Nat) (l : Leak) :
    Frame s ((s.digWrite d a n v).complete r0 r1 l) [⟨a, n⟩] :=
  frame_finish_setLimbs (keepsLmOutside_digWrite s d a n v) _ _ _ _

theorem frame_havoc_complete (s : State) (a n r0 r1 : Nat) (l : Leak) :
    Frame s ((s.havoc a n).complete r0 r1 l) [⟨a, n⟩] :=
  frame_finish_setLimbs (keepsLmOutside_havoc s a n) _ _ _ _

theorem frame_complete (s : State) (r0 r1 : Nat) (l : Leak) : Frame s (s.complete r0 r1 l) [] :=
  frame_finish s _ _ _ _

end Sys2Proof.Machine
end

