-- ==== Sys2Proof/Laws/Results.lean ====
section
/-! SUPPORT. The values the limb-arithmetic commands return: wrapped differences, borrows, bit counts, logical
lengths, selections and access traces. -/

namespace Sys2Proof.Machine

open Sys2Proof

theorem one_lt_two_pow_W (c : Config) : 1 < 2 ^ c.W := Nat.one_lt_two_pow (by have := W_pos c; omega)

theorem two_pow_le_of_one_le {W n : Nat} (hn : 1 ≤ n) : 2 ^ W ≤ 2 ^ (W * n) := Nat.pow_le_pow_right (by omega)
    (by nlinarith)

theorem mul_lt_two_pow_add {a b W m n : Nat} (h : a < 2 ^ (W * m)) (h' : b < 2 ^ (W * n)) :
    a * b < 2 ^ (W * (m + n)) := by
  rw [Nat.mul_add, Nat.pow_add]; exact Nat.mul_lt_mul'' h h'

/-- The wrapped difference, without integers (40_bnu.md R142). -/
theorem subWrap_eq (W n a b : Nat) (hb : b < 2 ^ (W * n)) : subWrap W n a b = (2 ^ (W * n) + a - b) % 2 ^
    (W * n) := by
  have : ((a : Int) - b).emod ((2 ^ (W * n) : Nat) : Int) = (((2 ^ (W * n) + a - b) % 2 ^ (W * n) : Nat) : Int) := by
    rw [Int.natCast_emod, Nat.cast_sub (by omega), Nat.cast_add]
    have : ((2 ^ (W * n) : Nat) : Int) + a - b = ((a : Int) - b) + ((2 ^ (W * n) : Nat) : Int) * 1 := by ring
    rw [this, Int.add_mul_emod_self_left]
    rfl
  rw [subWrap, this, Int.toNat_natCast]

/-- What rn and the borrow limb of r - p satisfy (40_bnu.md R146). -/
theorem borrowLimb_spec (W n r p : Nat) (hr : r < 2 ^ (W * n)) (B : Nat) (hp : p < 2 ^ (W * n) * B) :
    r + borrowLimb W n r p * 2 ^ (W * n) = subWrap W n r p + p ∧ borrowLimb W n r p ≤ B ∧
        subWrap W n r p < 2 ^ (W * n) := by
  set M := 2 ^ (W * n) with hM
  have hMpos : (0 : Int) < (M : Int) := by exact_mod_cast (Nat.two_pow_pos _)
  have e1 : ((subWrap W n r p : Nat) : Int) = ((r : Int) - p) % (M : Int) := by
    rw [subWrap, Int.toNat_of_nonneg]; rfl
    exact Int.emod_nonneg _ hMpos.ne'
  have e2 : ((r : Int) - p) = (M : Int) * (((r : Int) - p) / M) + ((r : Int) - p) % M :=
      (Int.mul_ediv_add_emod _ _).symm
  set D := ((r : Int) - p) / (M : Int) with hD
  have e3 : (((subWrap W n r p : Nat) : Int) - ((r : Int) - p)) / (M : Int) = -D := by
    rw [e1]
    have : ((r : Int) - p) % (M : Int) - ((r : Int) - p) = M * (-D) := by linarith
    rw [this, Int.mul_ediv_cancel_left _ hMpos.ne']
  have hDle : D ≤ 0 := by
    by_contra h
    have : (1 : Int) ≤ D := by omega
    have h0 := Int.emod_nonneg ((r : Int) - p) hMpos.ne'
    have : (M : Int) * 1 ≤ M * D := by nlinarith
    have hr' : (r : Int) < M := by exact_mod_cast hr
    have : (0 : Int) ≤ p := by positivity
    linarith
  have hDge : -(B : Int) ≤ D := by
    by_contra h
    have h1 : D ≤ -(B : Int) - 1 := by omega
    have h0 := Int.emod_lt_of_pos ((r : Int) - p) hMpos
    have h2 : (M : Int) * D ≤ M * (-(B : Int) - 1) := by nlinarith
    have hp' : (p : Int) < M * B := by exact_mod_cast hp
    have : (0 : Int) ≤ r := by positivity
    nlinarith
  have e4 : ((borrowLimb W n r p : Nat) : Int) = -D := by
    rw [borrowLimb]
    rw [show ((2 ^ (W * n) : Nat) : Int) = (M : Int) from rfl, e3, Int.toNat_of_nonneg (by omega)]
  refine ⟨?_, ?_, ?_⟩
  · have : ((r + borrowLimb W n r p * M : Nat) : Int) = ((subWrap W n r p + p : Nat) : Int) := by
      push_cast
      rw [e4, e1]
      linarith
    exact_mod_cast this
  · have : ((borrowLimb W n r p : Nat) : Int) ≤ B := by rw [e4]; omega
    exact_mod_cast this
  · have : ((subWrap W n r p : Nat) : Int) < M := by rw [e1]; exact Int.emod_lt_of_pos _ hMpos
    exact_mod_cast this

/-- The count of trailing zeros (40_bnu.md R150). -/
theorem trailingZeros_spec (k x : Nat) (hx : x < 2 ^ k) (h0 : x ≠ 0) : 2 ^ trailingZeros k x ∣ x ∧
    ¬ 2 ^ (trailingZeros k x + 1) ∣ x := by
  induction k generalizing x with
  | zero => omega
  | succ k ih =>
    unfold trailingZeros
    split
    next h => simp; omega
    next h =>
      obtain ⟨y, rfl⟩ : 2 ∣ x := by omega
      have := ih y (by rw [Nat.pow_succ] at hx; omega) (by omega)
      rw [Nat.mul_div_cancel_left _ (by omega : 0 < 2)]
      rw [Nat.add_comm 1, Nat.pow_succ, Nat.mul_comm _ 2, Nat.mul_dvd_mul_iff_left (by omega)]
      rw [Nat.pow_succ (n := 2) (m := trailingZeros k y + 1), Nat.mul_comm (2 ^ (trailingZeros k y + 1)) 2,
          Nat.mul_dvd_mul_iff_left (by omega)]
      exact this

theorem trailingZeros_le (k x : Nat) : trailingZeros k x ≤ k := by
  induction k generalizing x with
  | zero => simp [trailingZeros]
  | succ k ih => unfold trailingZeros; split <;> [omega; have := ih (x/2)]; omega

/-- The trace of CMPCT, as a list over the indices from the top down (40_bnu.md R154). -/
theorem cmpctTrace_eq (a na b nb k : Nat) : cmpctTrace a na b nb k = (List.range k).reverse.flatMap (fun i =>
        (if i < na then [Access.read (a + i)] else []) ++ (if i < nb then [Access.read (b + i)] else [])) := by
  induction k with
  | zero => rfl
  | succ k ih => simp [cmpctTrace, ih, List.range_succ]

/-- The trace of MASKCOPY, as a list over the indices (40_bnu.md R155). -/
theorem maskcopyTrace_eq (r a b j k : Nat) : maskcopyTrace r a b j k = (List.range k).flatMap (fun i =>
    [Access.read (a + (j + i)), .read (b + (j+i)), .write (r + (j+i))]) := by
  induction k generalizing j with
  | zero => rfl
  | succ k ih => simp [maskcopyTrace, ih, List.range_succ_eq_map, List.flatMap_map, Nat.add_assoc, Nat.add_comm 1]

theorem selectLimb_lt {W m x y : Nat} (hx : x < 2 ^ W) (hy : y < 2 ^ W) : selectLimb W m x y < 2 ^ W := by
  unfold selectLimb
  exact Nat.or_lt_two_pow (Nat.and_le_left.trans_lt hx) (Nat.and_le_left.trans_lt hy)

theorem written_iff_limbsAt {s : State} {a n : Nat} : Written s a n ↔ ∃ l, s.limbsAt 1 a n = some l := by
  rw [Written, memRead_isSome, Option.isSome_iff_exists]

/-- The logical length is the one R200 asks for (41_division.md). -/
theorem isLength_lenOf {c : Config} (v : Nat) : IsLength c.W v (lenOf c.W v) := by
  obtain ⟨a, b, d⟩ := lenOf_spec (v := v) (W_pos c)
  exact ⟨a, b, d, fun h => by simp [lenOf, h]⟩

theorem limbAt_of_written {s : State} {a n j : Nat} (h : Written s a n) (hj : j < n) :
    ∃ x, s.limbAt (a + j) = some x := by
  obtain ⟨l, hl⟩ := written_iff_limbsAt.mp h
  have := limbAt_of_limbsAt hl (j := j) (by rw [limbsAt_length hl]; exact hj)
  rw [Nat.mul_one] at this; exact ⟨_, this⟩

/-- A region whose top limb is not 0 has a positive value (41_division.md R201). -/
theorem valAt_pos_of_top {s : State} {a n x : Nat} (hn : 1 ≤ n) (h : Written s a n) (hx : s.limbAt
    (a + n - 1) = some x) (h0 : x ≠ 0) : 0 < valAt s a n := by
  obtain ⟨l, hl⟩ := written_iff_limbsAt.mp h
  have hlen := limbsAt_length hl
  have ht := limbAt_of_limbsAt hl (j := n - 1) (by omega)
  rw [Nat.mul_one, show a + (n - 1) = a + n - 1 by omega, hx] at ht
  have hv : valAt s a n = radixVal s.cfg.W l := by rw [valAt, State.memRead, hl]; rfl
  rw [hv]
  injection ht with ht
  have : l = l.take (n-1) ++ [x] := by
    rw [ht]; rw [List.take_append_getElem]; rw [List.take_of_length_le (by omega)]
  rw [this, radixVal_append]
  have : 0 < 2 ^ (s.cfg.W * (l.take (n-1)).length) := Nat.two_pow_pos _
  simp only [radixVal, Nat.mul_zero, Nat.add_zero]
  have := Nat.mul_pos this (Nat.pos_of_ne_zero h0)
  omega

/-- The divisor check reads one limb of the divisor's region (41_division.md R201, R202). -/
theorem CompletesWhen.divisor {s : State} {c : Contract} {b nb : Nat} {k : Out} {post : State → Prop} {q : Prop}
    (hnb : 1 ≤ nb) (hw : c.Names (Written s b nb) .uninitRead)
    (hd : c.Names (s.limbAt (b + nb - 1) ≠ some 0) .divisorNotNormalized)
    (h : ∀ x, s.limbAt (b + nb - 1) = some x → x ≠ 0 → CompletesWhen c q k post) :
    CompletesWhen c ((∃ x, s.limbAt (b + nb - 1) = some x ∧ x ≠ 0) ∧ q) (divisorCheck s b nb k) post := by
  refine CompletesWhen.congr ?_ (CompletesWhen.need (Q := fun x => x ≠ 0 ∧ q) (fun hp => hw (mt (fun hw => ?_) hp))
    fun v hv => CompletesWhen.guard (fun h0 => hd (by simp_all)) fun h0 => h v hv h0)
  · constructor
    · rintro ⟨⟨x, a, b⟩, c⟩; exact ⟨x, a, b, c⟩
    · rintro ⟨x, a, b, c⟩; exact ⟨⟨x, a, b⟩, c⟩
  · obtain ⟨x, hx⟩ := limbAt_of_written hw (j := nb - 1) (by omega)
    rw [show b + (nb - 1) = b + nb - 1 by omega] at hx
    rw [hx]; rfl

theorem region_disjoint_symm {r q : Region} : r.disjoint q = true → q.disjoint r = true := by
  simp only [Region.disjoint, Bool.or_eq_true, decide_eq_true_eq]; omega

/-- Class NONE: outputs are pairwise disjoint and disjoint from every input (20_memory.md R77). -/
theorem aliasOk_none_disjoint {ins outs : List Region} (h : aliasOk .none ins outs = true) :
    pairwiseDisjoint outs = true ∧ ∀ o ∈ outs, ∀ i ∈ ins, o.disjoint i = true := by
  simp only [aliasOk, Bool.and_eq_true, outputsDisjoint, Region.disjointAll, List.all_eq_true] at h
  exact h

end Sys2Proof.Machine
end

