-- ==== Sys2Proof/Laws/Context.lean ====
section
/-! SUPPORT. A context: how it holds its constants, and what a valid one gives the methods. -/

namespace Sys2Proof.Machine

open Sys2Proof

theorem radixDigits_take (k n m v : Nat) (h : n ≤ m) : (radixDigits k m v).take n = radixDigits k n v := by
  induction n generalizing m v with
  | zero => simp [radixDigits]
  | succ n ih =>
    cases m with
    | zero => omega
    | succ m => simp [radixDigits, ih m _ (by omega)]

theorem radixDigits_zero (k n : Nat) : radixDigits k n 0 = List.replicate n 0 := by
  induction n with
  | zero => rfl
  | succ n ih => simp [radixDigits, ih, List.replicate_succ]

/-- Above the digits a value needs, every digit is 0. -/
theorem radixDigits_drop (k n m v : Nat) (h : v < 2 ^ (k * n)) : ∀ x ∈ (radixDigits k m v).drop n, x = 0 := by
  induction n generalizing m v with
  | zero =>
    have : v = 0 := by simpa using h
    intro x hx
    rw [this, radixDigits_zero, List.drop_zero] at hx
    exact (List.mem_replicate.mp hx).2
  | succ n ih =>
    cases m with
    | zero => simp [radixDigits]
    | succ m =>
      simp only [radixDigits, List.drop_succ_cons]
      refine ih m _ ?_
      apply Nat.div_lt_of_lt_mul
      rwa [← Nat.pow_add, show k + k * n = k * (n + 1) by ring]

theorem map_ofNat_toNat {k : Nat} (hk : k ≤ 64) {l : List Nat} (h : ∀ x ∈ l, x < 2 ^ k) :
    (l.map (BitVec.ofNat 64)).map BitVec.toNat = l := by
  rw [List.map_map]
  refine (List.map_congr_left fun x hx => ?_).trans (List.map_id _)
  simp only [Function.comp, BitVec.toNat_ofNat, id]
  exact Nat.mod_eq_of_lt ((h x hx).trans_le (Nat.pow_le_pow_right (by omega) hk))

/-- A context array reads as the value put into it (42_montgomery.md R232). -/
theorem ctxVal_ctxLimbs (c : Config) (x : Ctx) (v : Nat) (hn : ctxLen x ≤ c.maxLimbs) (hv : v < 2 ^
    (c.W * ctxLen x)) :
    ctxVal c x (ctxLimbs c v) = v := by
  unfold ctxVal ctxLimbs
  rw [← List.map_take, radixDigits_take _ _ _ _ hn, map_ofNat_toNat (W_le c) (fun y hy =>
      radixDigits_lt hy), radixVal_radixDigits,
    Nat.mod_eq_of_lt hv]

theorem ceilDiv_le_maxLimbs {c : Config} {b : Nat} (h : b ≤ c.maxModBits) : ceilDiv b c.W ≤ c.maxLimbs := by
  unfold ceilDiv Config.maxLimbs; exact Nat.div_le_div_right (by omega)

theorem ceilDiv_le_self {W b : Nat} (hW : 1 ≤ W) : ceilDiv b W ≤ b := by
  unfold ceilDiv
  rcases Nat.eq_zero_or_pos b with rfl | h
  · rw [Nat.div_eq_of_lt (by omega)]
  · apply Nat.div_le_of_le_mul
    obtain ⟨u, rfl⟩ := Nat.exists_eq_add_of_le' hW
    obtain ⟨v, rfl⟩ := Nat.exists_eq_add_of_le' h
    ring_nf; have := Nat.zero_le (u*v); omega

/-- The modulus of a valid context fits MOD_LEN limbs (10_state.md R36). -/
theorem ctxM_lt {c : Config} {x : Ctx} (h : CtxOk c x) (hv : x.valid = true) : ctxM c x < 2 ^ (c.W * ctxLen x) := by
  obtain ⟨h1, h2, h3, -, -, -, -, h4, h5, -⟩ := h hv
  refine h5.trans_le (Nat.pow_le_pow_right (by omega) ?_)
  have : x.modBits.toNat ≤ c.W * ceilDiv x.modBits.toNat c.W := by
    unfold ceilDiv
    have := Nat.lt_mul_div_succ (x.modBits.toNat + c.W - 1) (W_pos c)
    have hW := W_pos c
    rw [Nat.mul_add] at this
    omega
  rw [ctxLen, h3]; exact this

/-- What Montgomery reduction needs of a valid context: m and R coprime, 1 < R, m < R. -/
theorem ctx_montgomery {s : State} {c : Slot} (hok : CtxOk s.cfg (s.ctx c)) (hv : (s.ctx c).valid = true) :
    Nat.gcd (ctxM s.cfg (s.ctx c)) (ctxR s.cfg (s.ctx c)) = 1 ∧ 1 < ctxR s.cfg (s.ctx c) ∧
        ctxM s.cfg (s.ctx c) < ctxR s.cfg (s.ctx c) := by
  obtain ⟨h1, h2, h3, -, -, -, -, h4, h5, h6, h7, h8, -⟩ := hok hv
  refine ⟨gcd_two_pow_of_odd h4, ?_, ctxM_lt hok hv⟩
  have : 1 ≤ ctxLen (s.ctx c) := by
    rw [ctxLen, h3]; unfold ceilDiv; apply (Nat.one_le_div_iff (W_pos _)).mpr; omega
  unfold ctxR
  apply Nat.one_lt_two_pow
  have := Nat.mul_pos (W_pos s.cfg) this
  omega

/-- REDC over a valid context (42_montgomery.md R241). -/
theorem redc_ctx {s : State} {c : Slot} (hok : CtxOk s.cfg (s.ctx c)) (hv : (s.ctx c).valid = true) {T : Nat}
    (hT : T < ctxM s.cfg (s.ctx c) * ctxR s.cfg (s.ctx c)) :
    redc (ctxM s.cfg (s.ctx c)) (ctxR s.cfg (s.ctx c)) T < ctxM s.cfg (s.ctx c) ∧
    redc (ctxM s.cfg (s.ctx c)) (ctxR s.cfg (s.ctx c)) T * ctxR s.cfg (s.ctx c) % ctxM s.cfg
        (s.ctx c) = T % ctxM s.cfg (s.ctx c) ∧
    redc (ctxM s.cfg (s.ctx c)) (ctxR s.cfg (s.ctx c)) T % 2 ^ (s.cfg.W * ctxLen (s.ctx c)) = redc (ctxM s.cfg
        (s.ctx c)) (ctxR s.cfg (s.ctx c)) T := by
  obtain ⟨a, b, d⟩ := ctx_montgomery hok hv
  obtain ⟨e, f⟩ := redc_spec b a hT
  exact ⟨e, f, Nat.mod_eq_of_lt (e.trans d)⟩

theorem eq_of_mul_mod_eq {m R a b : Nat} (hg : Nat.gcd m R = 1) (ha : a < m) (hb : b < m)
    (h : a * R % m = b * R % m) : a = b := by
  have : a ≡ b [MOD m] := Nat.ModEq.cancel_right_of_coprime hg h
  exact Nat.ModEq.eq_of_lt_of_lt this ha hb

/-- Encoding multiplies by R modulo m (42_montgomery.md R244). -/
theorem redc_encode {m R r2 x : Nat} (hR : 1 < R) (hg : Nat.gcd m R = 1) (hmR : m < R) (hr2 : r2 = R * R % m)
    (hx : x < m) : redc m R (x * r2) = x * R % m := by
  have hpos : 0 < m := by omega
  have hr2' : r2 < m := hr2 ▸ Nat.mod_lt _ hpos
  obtain ⟨a, b⟩ := redc_spec (T := x * r2) hR hg (Nat.mul_lt_mul'' hx (hr2'.trans hmR))
  apply eq_of_mul_mod_eq hg a (Nat.mod_lt _ hpos)
  rw [b, hr2, Nat.mod_mul_mod, Nat.mul_mod_mod, Nat.mul_assoc]

end Sys2Proof.Machine
end

