-- ==== Sys2Proof/Laws/Exponent.lean ====
section
/-! SUPPORT. The exponentiation methods: each computes the power, in the Montgomery domain. -/

namespace Sys2Proof.Machine

open Sys2Proof

/-- `v` is the Montgomery form of `x`: reduced, and x·R modulo m (45_exponentiation.md R333). -/
def Represents (m R v x : Nat) : Prop := v < m ∧ v ≡ x * R [MOD m]

section
variable {m R : Nat} (hR : 1 < R) (hg : Nat.gcd m R = 1) (hmR : m < R)
include hR hg hmR

theorem represents_mmulf {a b x y : Nat} (ha : Represents m R a x) (hb : Represents m R b y) :
    Represents m R (mmulf m R a b) (x * y) := by
  obtain ⟨h1, h2⟩ := redc_spec hR hg (Nat.mul_lt_mul'' ha.1 (hb.1.trans hmR))
  refine ⟨h1, ?_⟩
  have : mmulf m R a b * R ≡ x * y * R * R [MOD m] := by
    calc mmulf m R a b * R ≡ a * b [MOD m] := h2
      _ ≡ (x * R) * (y * R) [MOD m] := ha.2.mul hb.2
      _ = x * y * R * R := by ring
  exact Nat.ModEq.cancel_right_of_coprime hg this

theorem represents_binLoop {x y e xv : Nat} (hx : Represents m R xv x) (k acc : Nat) (ha : Represents m R acc y) :
    Represents m R (binLoop m R xv e k acc) (y ^ 2 ^ k * x ^ (e % 2 ^ k)) := by
  induction k generalizing acc y with
  | zero => simpa [binLoop, Nat.mod_one] using ha
  | succ k ih =>
    rw [binLoop]
    have hsq := represents_mmulf hR hg hmR ha ha
    have he : e % 2 ^ (k + 1) = e % 2 ^ k + 2 ^ k * (e / 2 ^ k % 2) := by rw [Nat.pow_succ, Nat.mod_mul]
    by_cases hb : e.testBit k
    · have h1 : e / 2 ^ k % 2 = 1 := by rwa [Nat.testBit_eq_decide_div_mod_eq, decide_eq_true_eq] at hb
      rw [if_pos hb]
      have := ih _ (represents_mmulf hR hg hmR hsq hx)
      convert this using 1
      rw [he, h1]; ring
    · have h0 : e / 2 ^ k % 2 = 0 := by
        rw [Nat.testBit_eq_decide_div_mod_eq, decide_eq_true_eq] at hb; omega
      rw [if_neg hb]
      have := ih _ hsq
      convert this using 1
      rw [he, h0]; ring

theorem represents_binCtLoop {x y e xv rm : Nat} (hx : Represents m R xv x) (hrm : Represents m R rm 1)
    (k acc : Nat) (ha : Represents m R acc y) :
    Represents m R (binCtLoop m R rm xv e k acc) (y ^ 2 ^ k * x ^ (e % 2 ^ k)) := by
  induction k generalizing acc y with
  | zero => simpa [binCtLoop, Nat.mod_one] using ha
  | succ k ih =>
    rw [binCtLoop]
    have hsq := represents_mmulf hR hg hmR ha ha
    have he : e % 2 ^ (k + 1) = e % 2 ^ k + 2 ^ k * (e / 2 ^ k % 2) := by rw [Nat.pow_succ, Nat.mod_mul]
    by_cases hb : e.testBit k
    · have h1 : e / 2 ^ k % 2 = 1 := by rwa [Nat.testBit_eq_decide_div_mod_eq, decide_eq_true_eq] at hb
      rw [if_pos hb]
      have := ih _ (represents_mmulf hR hg hmR hsq hx)
      convert this using 1
      rw [he, h1]; ring
    · have h0 : e / 2 ^ k % 2 = 0 := by
        rw [Nat.testBit_eq_decide_div_mod_eq, decide_eq_true_eq] at hb; omega
      rw [if_neg hb]
      have := ih _ (represents_mmulf hR hg hmR hsq hrm)
      convert this using 1
      rw [he, h0]; ring

theorem represents_sqrTimes {y : Nat} (k acc : Nat) (ha : Represents m R acc y) : Represents m R
    (sqrTimes m R k acc) (y ^ 2 ^ k) := by
  induction k generalizing acc y with
  | zero => simpa [sqrTimes] using ha
  | succ k ih =>
    rw [sqrTimes]
    have := ih _ (represents_mmulf hR hg hmR ha ha)
    convert this using 1
    rw [Nat.pow_succ]; ring

theorem represents_powTable {x xv : Nat} (hx : Represents m R xv x) (n cur c : Nat) (hc : Represents m R cur c)
    (v : Nat) (hv : v < n) :
    Represents m R ((powTable m R xv n cur).getD v 0) (c * x ^ v) := by
  induction n generalizing cur c v with
  | zero => omega
  | succ n ih =>
    rw [powTable]
    cases v with
    | zero => simpa using hc
    | succ v =>
      have := ih _ _ (represents_mmulf hR hg hmR hc hx) v (by omega)
      rw [List.getD_cons_succ]
      convert this using 1
      ring

theorem represents_winLoop {x y e : Nat} {tbl : List Nat} {w : Nat} (ht : ∀ v < 2 ^ w,
    Represents m R (tbl.getD v 0) (x ^ v)) (j acc : Nat) (ha : Represents m R acc y) :
    Represents m R (winLoop m R tbl w e j acc) (y ^ 2 ^ (w * j) * x ^ (e % 2 ^ (w * j))) := by
  induction j generalizing acc y with
  | zero => simpa [winLoop, Nat.mod_one] using ha
  | succ j ih =>
    rw [winLoop]
    have hsq := represents_sqrTimes hR hg hmR w acc ha
    have he : e % 2 ^ (w * (j + 1)) = e % 2 ^ (w * j) + 2 ^ (w * j) * (e / 2 ^ (w * j) % 2 ^ w) :=
        by rw [Nat.mul_succ, Nat.pow_add, Nat.mod_mul]
    have hy : y ^ 2 ^ (w * (j + 1)) = (y ^ 2 ^ w) ^ 2 ^ (w * j) := by rw [← Nat.pow_mul, ← Nat.pow_add]; congr 2; ring
    have hlt := Nat.mod_lt (e / 2 ^ (w * j)) (Nat.two_pow_pos w)
    by_cases h0 : e / 2 ^ (w * j) % 2 ^ w = 0
    · rw [if_pos h0]
      have := ih _ hsq
      rw [he, h0, hy]; simpa using this
    · rw [if_neg h0]
      have := ih _ (represents_mmulf hR hg hmR hsq (ht _ hlt))
      convert this using 1
      rw [he, hy, Nat.pow_add, Nat.mul_pow, ← Nat.pow_mul x, Nat.mul_comm (2 ^ (w * j))]; ring

theorem represents_winCtLoop {x y e : Nat} {tbl : List Nat} {w : Nat} (ht : ∀ v < 2 ^ w,
    Represents m R (tbl.getD v 0) (x ^ v)) (j acc : Nat) (ha : Represents m R acc y) :
    Represents m R (winCtLoop m R tbl w e j acc) (y ^ 2 ^ (w * j) * x ^ (e % 2 ^ (w * j))) := by
  induction j generalizing acc y with
  | zero => simpa [winCtLoop, Nat.mod_one] using ha
  | succ j ih =>
    rw [winCtLoop]
    have hsq := represents_sqrTimes hR hg hmR w acc ha
    have he : e % 2 ^ (w * (j + 1)) = e % 2 ^ (w * j) + 2 ^ (w * j) * (e / 2 ^ (w * j) % 2 ^ w) :=
        by rw [Nat.mul_succ, Nat.pow_add, Nat.mod_mul]
    have hy : y ^ 2 ^ (w * (j + 1)) = (y ^ 2 ^ w) ^ 2 ^ (w * j) := by rw [← Nat.pow_mul, ← Nat.pow_add]; congr 2; ring
    have hlt := Nat.mod_lt (e / 2 ^ (w * j)) (Nat.two_pow_pos w)
    have := ih _ (represents_mmulf hR hg hmR hsq (ht _ hlt))
    convert this using 1
    rw [he, hy, Nat.pow_add, Nat.mul_pow, ← Nat.pow_mul x, Nat.mul_comm (2 ^ (w * j))]; ring

omit hR hg hmR in
theorem represents_one : 0 < m → Represents m R (R % m) 1 := fun h => ⟨Nat.mod_lt _ h,
    by rw [Nat.one_mul]; exact Nat.mod_modEq _ _⟩

omit hR hg hmR in
theorem lt_two_pow_ceilDiv {w b e : Nat} (hw : 1 ≤ w) (he : e < 2 ^ b) : e < 2 ^ (w * ceilDiv b w) := by
  refine he.trans_le (Nat.pow_le_pow_right (by omega) ?_)
  unfold ceilDiv
  have := Nat.lt_mul_div_succ (b + w - 1) (show 0 < w by omega)
  rw [Nat.mul_add] at this
  omega

theorem represents_powBin {x xv e b : Nat} (hm : 0 < m) (hx : Represents m R xv x) (he : e < 2 ^ b) :
    Represents m R (powBin m R (R % m) xv e b) (x ^ e) := by
  have h1 := represents_one (R := R) hm
  unfold powBin
  split
  next h => subst h; simpa using h1
  next h =>
    split
    next h0 =>
      refine ⟨hm, ?_⟩
      have : x * R ≡ 0 * R [MOD m] := by have := hx.2; rw [h0] at this; rw [Nat.zero_mul]; exact this.symm
      have hx0 : x ≡ 0 [MOD m] := Nat.ModEq.cancel_right_of_coprime hg this
      have := (hx0.pow e).mul_right R
      rw [Nat.zero_pow (by omega), Nat.zero_mul] at this
      exact this.symm
    next h0 =>
      have := represents_binLoop hR hg hmR (e := e) hx b _ h1
      rwa [Nat.one_pow, Nat.one_mul, Nat.mod_eq_of_lt he] at this

theorem represents_powBinCt {x xv e b : Nat} (hm : 0 < m) (hx : Represents m R xv x) (he : e < 2 ^ b) :
    Represents m R (powBinCt m R (R % m) xv e b) (x ^ e) := by
  have h1 := represents_one (R := R) hm
  have := represents_binCtLoop hR hg hmR (e := e) hx h1 b _ h1
  rwa [Nat.one_pow, Nat.one_mul, Nat.mod_eq_of_lt he] at this

theorem represents_fullTable {x xv w : Nat} (hm : 0 < m) (hx : Represents m R xv x) : ∀ v < 2 ^ w,
    Represents m R ((powTable m R xv (2 ^ w) (R % m)).getD v 0) (x ^ v) := by
  intro v hv
  have := represents_powTable hR hg hmR hx (2 ^ w) _ _ (represents_one hm) v hv
  rwa [Nat.one_mul] at this

theorem represents_powWin {x xv e b w : Nat} (hm : 0 < m) (hw : 1 ≤ w) (hx : Represents m R xv x)
    (he : e < 2 ^ b) : Represents m R (powWin m R (R % m) xv e b w) (x ^ e) := by
  have := represents_winLoop hR hg hmR (e := e) (w := w) (represents_fullTable hR hg hmR hm hx)
      (ceilDiv b w) _ (represents_one hm)
  rwa [Nat.one_pow, Nat.one_mul, Nat.mod_eq_of_lt (lt_two_pow_ceilDiv hw he)] at this

theorem represents_powWinCt {x xv e b w : Nat} (hm : 0 < m) (hw : 1 ≤ w) (hx : Represents m R xv x)
    (he : e < 2 ^ b) : Represents m R (powWinCt m R (R % m) xv e b w) (x ^ e) := by
  have := represents_winCtLoop hR hg hmR (e := e) (w := w) (represents_fullTable hR hg hmR hm hx)
      (ceilDiv b w) _ (represents_one hm)
  rwa [Nat.one_pow, Nat.one_mul, Nat.mod_eq_of_lt (lt_two_pow_ceilDiv hw he)] at this

/-- Whatever the method, encode, run and decode give the power of R333 (45_exponentiation.md). -/
theorem expResult_isPower (dom : Domain) {xv e r2 : Nat} (pow : Nat → Nat → Nat → Nat) (hr2 : r2 = R * R % m)
    (hxv : xv < m)
    (hp : ∀ x v, Represents m R v x → Represents m R (pow m R v) (x ^ e)) :
    isPower dom m R xv e (decodeResult dom m R (pow m R (encodeBase dom m R r2 xv))) ∧
        decodeResult dom m R (pow m R (encodeBase dom m R r2 xv)) < m := by
  have hm : 0 < m := by omega
  cases dom with
  | montgomery =>
    simp only [encodeBase, decodeResult, isPower]
    obtain ⟨h1, h2⟩ := redc_spec (T := xv) hR hg (by nlinarith)
    rw [Nat.mod_eq_of_lt hxv] at h2
    have := hp (redc m R xv) xv ⟨hxv, (congrArg (· % m) h2.symm).trans (Nat.mod_modEq _ _)⟩
    refine ⟨⟨redc m R xv, h1, h2, ?_⟩, this.1⟩
    have h3 := this.2
    unfold Nat.ModEq at h3
    rwa [Nat.mod_eq_of_lt this.1] at h3
  | regular =>
    simp only [encodeBase, decodeResult, isPower]
    have he := redc_encode (x := xv) hR hg hmR hr2 hxv
    have hx : Represents m R (mmulf m R xv r2) xv := by
      rw [mmulf, he]
      exact ⟨Nat.mod_lt _ hm, Nat.mod_modEq _ _⟩
    have := hp _ _ hx
    obtain ⟨h1, h2⟩ := redc_spec (T := pow m R (mmulf m R xv r2)) hR hg (by nlinarith [this.1])
    refine ⟨?_, h1⟩
    apply eq_of_mul_mod_eq hg h1 (Nat.mod_lt _ hm)
    rw [h2, Nat.mod_mul_mod]; exact this.2

end

/-- The checks of one exponentiation's operands (45_exponentiation.md R332). -/
theorem CompletesWhen.expOperands {s : State} {c : Contract} {x : Ctx} {xb eb b : Nat} {k : Nat → Nat → Out}
    {post : State → Prop} {q : Prop} (hc : Contract.exponent s x xb eb b ⊆ c)
    (h : (Contract.exponent s x xb eb b).Holds →
      CompletesWhen c q (k (valAt s xb (ctxLen x)) (valAt s eb (ceilDiv b s.cfg.W))) post) :
    CompletesWhen c ((Contract.exponent s x xb eb b).Holds ∧ q) (withExpOperands s x xb eb b k) post := by
  unfold withExpOperands
  have n : ∀ (p : Prop) (r : Fault) (P : Prop), (P, r) ∈ Contract.exponent s x xb eb b → (P → p) → c.Names p r :=
    fun p r P hm hp => Contract.Names.of_mem (hc hm) hp
  refine CompletesWhen.congr ?_ (CompletesWhen.guard (n _ _ _ (by simp [Contract.exponent]) id) fun h1 =>
    CompletesWhen.val (n _ _ (Written s xb (ctxLen x) ∧ Written s eb (ceilDiv b s.cfg.W))
      (by simp [Contract.exponent]) And.left) fun h2 =>
    CompletesWhen.val (n _ _ (Written s xb (ctxLen x) ∧ Written s eb (ceilDiv b s.cfg.W))
      (by simp [Contract.exponent]) And.right) fun h3 =>
    CompletesWhen.guard (n _ _ (valAt s xb (ctxLen x) < ctxM s.cfg x) (by simp [Contract.exponent]) id) fun h4 =>
    CompletesWhen.guard (n _ _ (valAt s eb (ceilDiv b s.cfg.W) < 2 ^ b) (by simp [Contract.exponent]) id) fun h5 =>
    h (by simp [Contract.exponent, h1, h2, h3, h4, h5]))
  simp [Contract.exponent, and_assoc]

end Sys2Proof.Machine
end

