-- ==== Sys2Proof/Laws/Octet.lean ====
section
/-! SUPPORT. Octet strings: their value, the limbs that hold them, the minimal length. -/

namespace Sys2Proof.Machine

open Sys2Proof

theorem octetSum_eq (s : State) (b len : Nat) (l : List Byte) (h : Memory.readBytes s.lm b len = some l) :
    octetSum s b len = bytesVal l.reverse := by
  have hlen := readBytes_length h
  have hget : ∀ i, (hi : i < l.length) → Memory.byteAt s.lm (b + i) = some l[i] := by
    clear hlen
    induction len generalizing b l with
    | zero => simp only [Memory.readBytes, Option.some.injEq] at h; subst h; intro i hi; simp at hi
    | succ n ih =>
      simp only [Memory.readBytes] at h
      split at h
      next x xs h0 h1 =>
        injection h with h; subst h
        intro i hi
        cases i with
        | zero => simpa using h0
        | succ i => rw [show b + (i + 1) = b + 1 + i by omega]; exact ih (b + 1) xs h1 i (by simpa using hi)
      next => cases h
  have key : ∀ k, k ≤ l.length → (List.range k).foldl (fun v i => v * 256 + ((Memory.byteAt s.lm
      (b + i)).getD 0).toNat) 0 = bytesVal (l.take k).reverse := by
    intro k hk
    induction k with
    | zero => simp [bytesVal, radixVal]
    | succ k ih =>
      rw [List.range_succ, List.foldl_append, ih (by omega)]
      simp only [List.foldl_cons, List.foldl_nil]
      rw [hget k (by omega), List.take_succ_eq_append_getElem (by omega)]
      simp only [Option.getD_some, List.reverse_append, List.reverse_cons, List.reverse_nil, List.nil_append,
          List.cons_append, bytesVal, List.map_cons, radixVal]
      omega
  have := key l.length le_rfl
  rw [List.take_length] at this
  rw [octetSum, ← hlen]; exact this

/-- A byte region shares no limb with a limb region exactly when no octet of it lies there (20_memory.md R77). -/
theorem limbCover_disjoint_iff (c : Config) (b len r n : Nat) (hn : 1 ≤ n) :
    Region.disjoint (limbCover c b len) ⟨r, n⟩ = true ↔ ∀ i, i < len → ¬ (r ≤ (b + i) / c.bpl ∧
        (b + i) / c.bpl < r + n) := by
  unfold limbCover
  have hb := bpl_pos c
  split
  next h => subst h; simp [Region.disjoint]
  next h =>
    simp only [Region.disjoint, Bool.or_eq_true, decide_eq_true_eq]
    have mono : ∀ x y, x ≤ y → x / c.bpl ≤ y / c.bpl := fun x y h => Nat.div_le_div_right h
    have m1 := mono b (b + len - 1) (by omega)
    constructor
    · intro h i hi
      have := mono b (b + i) (by omega)
      have := mono (b + i) (b + len - 1) (by omega)
      omega
    · intro hh
      by_contra hc
      -- some limb L in both
      have hL : ∃ L, r ≤ L ∧ L < r + n ∧ b / c.bpl ≤ L ∧ L ≤ (b + len - 1) / c.bpl := ⟨max r (b / c.bpl),
          by omega, by omega, by omega, by omega⟩
      obtain ⟨L, l1, l2, l3, l4⟩ := hL
      rcases Nat.eq_or_lt_of_le l3 with h0 | h0
      · have := hh 0 (by omega); simp at this; omega
      · have e : b < L * c.bpl := (Nat.div_lt_iff_lt_mul hb).mp h0
        have e2 : L * c.bpl ≤ b + len - 1 := (Nat.le_div_iff_mul_le hb).mp l4
        have := hh (L * c.bpl - b) (by omega)
        rw [show b + (L * c.bpl - b) = L * c.bpl by omega, Nat.mul_div_cancel _ hb] at this
        exact this ⟨l1, l2⟩

/-- The minimal byte length (46_octet_misc.md R361). -/
theorem minBytes_eq_size (v : Nat) : minBytes v = ceilDiv (Nat.size v) 8 := by
  unfold minBytes ceilDiv
  split
  next h => subst h; simp
  next h =>
    have : Nat.size v = Nat.log2 v + 1 := by
      apply le_antisymm
      · rw [Nat.size_le]; exact Nat.lt_log2_self
      · have := (Nat.lt_size (m := Nat.log2 v) (n := v)).mpr (Nat.log2_self_le h); omega
    rw [this]; omega

end Sys2Proof.Machine
end

