-- ==== Sys2Proof/Laws/PerInstr.lean ====
section
/-! SUPPORT. Families of one lemma per constructor of `Instr`. RowSelects: the encoding of a command belongs to the
command's own row of spec/opcode_table.json (30_encoding.md R109). -/

namespace Sys2Proof.Laws.RowSelects

open Sys2Proof

def Statement (i : Instr) : Prop := encode i &&& i.row.mask = i.row.pattern

theorem nop : Statement .nop := by unfold Statement; decide
theorem add : Statement .add := by unfold Statement; decide
theorem sub : Statement .sub := by unfold Statement; decide
theorem inc : Statement .inc := by unfold Statement; decide
theorem dec : Statement .dec := by unfold Statement; decide
theorem muld : Statement .muld := by unfold Statement; decide
theorem submuld : Statement .submuld := by unfold Statement; decide
theorem mul : Statement .mul := by unfold Statement; decide
theorem sqr : Statement .sqr := by unfold Statement; decide
theorem nlz : Statement .nlz := by unfold Statement; decide
theorem ntz : Statement .ntz := by unfold Statement; decide
theorem lsr : Statement .lsr := by unfold Statement; decide
theorem cmp : Statement .cmp := by unfold Statement; decide
theorem cmpct : Statement .cmpct := by unfold Statement; decide
theorem fix : Statement .fix := by unfold Statement; decide
theorem maskcopy : Statement .maskcopy := by unfold Statement; decide
theorem div : Statement .div := by unfold Statement; decide
theorem mod : Statement .mod := by unfold Statement; decide
theorem gcd : Statement .gcd := by unfold Statement; decide
theorem modinv : Statement .modinv := by unfold Statement; decide
theorem montfactor : Statement .montfactor := by unfold Statement; decide
theorem enginit (c : Slot) : Statement (.enginit c) := by cases c <;> (unfold Statement; decide)
theorem engrd (c : Slot) : Statement (.engrd c) := by cases c <;> (unfold Statement; decide)
theorem madd (c : Slot) : Statement (.madd c) := by cases c <;> (unfold Statement; decide)
theorem msub (c : Slot) : Statement (.msub c) := by cases c <;> (unfold Statement; decide)
theorem mneg (c : Slot) : Statement (.mneg c) := by cases c <;> (unfold Statement; decide)
theorem mdiv2 (c : Slot) : Statement (.mdiv2 c) := by cases c <;> (unfold Statement; decide)
theorem mmul2 (c : Slot) : Statement (.mmul2 c) := by cases c <;> (unfold Statement; decide)
theorem mmul3 (c : Slot) : Statement (.mmul3 c) := by cases c <;> (unfold Statement; decide)
theorem mmul (c : Slot) : Statement (.mmul c) := by cases c <;> (unfold Statement; decide)
theorem msqr (c : Slot) : Statement (.msqr c) := by cases c <;> (unfold Statement; decide)
theorem menc (c : Slot) : Statement (.menc c) := by cases c <;> (unfold Statement; decide)
theorem mdec (c : Slot) : Statement (.mdec c) := by cases c <;> (unfold Statement; decide)
theorem mred (c : Slot) : Statement (.mred c) := by cases c <;> (unfold Statement; decide)
theorem r2red (d : DigitSize) : Statement (.r2red d) := by cases d <;> (unfold Statement; decide)
theorem red2r (d : DigitSize) : Statement (.red2r d) := by cases d <;> (unfold Statement; decide)
theorem amm (d : DigitSize) : Statement (.amm d) := by cases d <;> (unfold Statement; decide)
theorem ams (d : DigitSize) : Statement (.ams d) := by cases d <;> (unfold Statement; decide)
theorem ammdual (d : DigitSize) : Statement (.ammdual d) := by cases d <;> (unfold Statement; decide)
theorem scrsize (w : Win) : Statement (.scrsize w) := by unfold Statement; revert w; decide
theorem scrput (w : Win) : Statement (.scrput w) := by unfold Statement; revert w; decide
theorem scrget (w : Win) : Statement (.scrget w) := by unfold Statement; revert w; decide
theorem scrgetct (w : Win) : Statement (.scrgetct w) := by unfold Statement; revert w; decide
theorem winsize : Statement .winsize := by unfold Statement; decide
theorem expbufsize (w : Win) : Statement (.expbufsize w) := by unfold Statement; revert w; decide
theorem expbin (c : Slot) (dom : Domain) : Statement (.expbin c dom) := by cases c <;> cases dom <;> (unfold Statement; decide)
theorem expbinct (c : Slot) (dom : Domain) : Statement (.expbinct c dom) := by cases c <;> cases dom <;> (unfold Statement; decide)
theorem expwin (c : Slot) (dom : Domain) (w : Win) : Statement (.expwin c dom w) := by
  unfold Statement; revert w; cases c <;> cases dom <;> decide
theorem expwinct (c : Slot) (dom : Domain) (w : Win) : Statement (.expwinct c dom w) := by
  unfold Statement; revert w; cases c <;> cases dom <;> decide
theorem dualexpwinct (dom : Domain) (w : Win) : Statement (.dualexpwinct dom w) := by unfold Statement; revert w; cases dom <;> decide
theorem os2bn : Statement .os2bn := by unfold Statement; decide
theorem bn2os : Statement .bn2os := by unfold Statement; decide

end Sys2Proof.Laws.RowSelects
end

