-- ==== Sys2Proof/Laws/Redundant.lean ====
section
/-! SUPPORT. Digit regions and Almost Montgomery Multiplication. -/

namespace Sys2Proof.Machine

open Sys2Proof

/-- The digit loop of AMM: its result times 2^(d·n) is the accumulator plus a·b plus a multiple of m (43_redundant.md R283). -/
theorem ammLoop_spec (d a m k0d : Nat) (hk : k0d * m % 2 ^ d = 2 ^ d - 1) (n b acc : Nat) :
    ∃ q, q < 2 ^ (d * n) ∧ ammLoop d a m k0d n b acc * 2 ^ (d * n) = acc + a * (b % 2 ^ (d * n)) + q * m := by
  induction n generalizing b acc with
  | zero => exact ⟨0, by simp, by simp [ammLoop, Nat.mod_one]⟩
  | succ n ih =>
    set D := 2 ^ d with hD
    have hDpos : 0 < D := Nat.two_pow_pos _
    set acc1 := acc + a * (b % D) with hacc
    set y := acc1 % D * k0d % D with hy
    have hdvd : (acc1 + y * m) % D = 0 := by
      have e1 : y * m ≡ acc1 * (k0d * m) [MOD D] := by
        calc y * m ≡ acc1 % D * k0d * m [MOD D] := (Nat.mod_modEq _ _).mul_right m
          _ ≡ acc1 * k0d * m [MOD D] := ((Nat.mod_modEq _ _).mul_right k0d).mul_right m
          _ = acc1 * (k0d * m) := by ring
      have e2 : k0d * m + 1 ≡ 0 [MOD D] := by
        have : k0d * m + 1 ≡ (D - 1) + 1 [MOD D] := Nat.ModEq.add_right 1 (by rw [← hk]; exact
            (Nat.mod_modEq _ _).symm)
        rw [Nat.sub_add_cancel hDpos] at this
        exact this.trans (Nat.modEq_zero_iff_dvd.mpr dvd_rfl)
      have e3 : acc1 + y * m ≡ acc1 * (k0d * m + 1) [MOD D] := by
        have := (Nat.ModEq.refl acc1 (n := D)).add e1
        rw [show acc1 * (k0d * m + 1) = acc1 + acc1 * (k0d * m) by ring]; exact this
      exact e3.trans (by simpa using e2.mul_left acc1)
    obtain ⟨q, hq, he⟩ := ih (b / D) ((acc1 + y * m) / D)
    refine ⟨y + D * q, ?_, ?_⟩
    · have : y < D := Nat.mod_lt _ hDpos
      rw [Nat.mul_add, Nat.mul_one, Nat.pow_add, Nat.mul_comm (2 ^ (d * n)), ← hD]
      calc y + D * q < D + D * q := by omega
        _ = D * (q + 1) := by ring
        _ ≤ D * 2 ^ (d * n) := Nat.mul_le_mul_left _ hq
    · have hloop : ammLoop d a m k0d (n + 1) b acc = ammLoop d a m k0d n (b / D) ((acc1 + y * m) / D) := rfl
      rw [hloop]
      have hdiv : (acc1 + y * m) / D * D = acc1 + y * m := Nat.div_mul_cancel (Nat.dvd_of_mod_eq_zero hdvd)
      have hb : b % 2 ^ (d * (n + 1)) = b % D + D * (b / D % 2 ^ (d * n)) := by
        rw [Nat.mul_add, Nat.mul_one, Nat.pow_add, Nat.mul_comm (2 ^ (d * n)), ← hD, Nat.mod_mul]
      rw [hb]
      calc ammLoop d a m k0d n (b / D) ((acc1 + y * m) / D) * 2 ^ (d * (n + 1))
          = (ammLoop d a m k0d n (b / D) ((acc1 + y * m) / D) * 2 ^ (d * n)) * D := by
            rw [Nat.mul_add, Nat.mul_one, Nat.pow_add, ← hD]; ring
        _ = (acc1 + y * m) / D * D + a * (b / D % 2 ^ (d * n)) * D + q * m * D := by rw [he]; ring
        _ = acc + a * (b % D + D * (b / D % 2 ^ (d * n))) + (y + D * q) * m := by rw [hdiv, hacc]; ring

/-- AMMf under its contract (43_redundant.md R283). -/
theorem ammf_spec {d a b m k0d len : Nat} (hk : k0d * m % 2 ^ d = 2 ^ d - 1) (hb : b < 2 ^ (d * len))
    (h4 : 4 * m ≤ 2 ^ (d * len))
    (ha : a < 2 * m) (hb2 : b < 2 * m) : ammValue d len a b m (ammf d a b m k0d len) := by
  obtain ⟨q, hq, he⟩ := ammLoop_spec d a m k0d hk len b 0
  rw [Nat.mod_eq_of_lt hb, Nat.zero_add] at he
  refine ⟨q, hq, he, ?_⟩
  have hm : 0 < m := by omega
  have h1 : a * b < 4 * m * m := by
    calc a * b < 2 * m * (2 * m) := Nat.mul_lt_mul'' ha hb2
      _ = 4 * m * m := by ring
  have h2 : q * m ≤ 2 ^ (d * len) * m := Nat.mul_le_mul_right _ hq.le
  have h3 : 4 * m * m ≤ 2 ^ (d * len) * m := Nat.mul_le_mul_right _ h4
  have : ammf d a b m k0d len * 2 ^ (d * len) < 2 * m * 2 ^ (d * len) := by
    show ammLoop d a m k0d len b 0 * 2 ^ (d * len) < _
    rw [he]; nlinarith
  exact Nat.lt_of_mul_lt_mul_right this

theorem digitBits_le_W {s : State} {dg : DigitSize} (h : digitOk s.cfg.width dg = true) : digitBits dg ≤ s.cfg.W := by
  cases dg <;> cases hw : s.cfg.width <;> simp_all [digitOk, digitBits, Config.W, LimbWidth.bits]

theorem DigitsAt.congr {s t : State} {d a n v : Nat} (h : t.limbsAt 1 a n = s.limbsAt 1 a n)
    (hd : DigitsAt s d a n v) : DigitsAt t d a n v := by
  obtain ⟨l, h1, h2⟩ := hd; exact ⟨l, h.trans h1, h2⟩

theorem digitsAt_digWrite_same {s : State} {d : Nat} (hd : d ≤ s.cfg.W) (a n v : Nat) (hv : v < 2 ^ (d * n)) :
    DigitsAt (s.digWrite d a n v) d a n v :=
  ⟨_, limbsAt_digWrite_same s hd a n v, fun x hx => radixDigits_lt hx, by rw [radixVal_radixDigits,
      Nat.mod_eq_of_lt hv]⟩

theorem digitsAt_complete {s : State} {d a n v r0 r1 : Nat} {l : Leak} (h : DigitsAt s d a n v) :
    DigitsAt (s.complete r0 r1 l) d a n v :=
  DigitsAt.congr (limbsAt_complete _ _ _ _ _ _ _) h

theorem limbsAt_digWrite_disjoint (s : State) (d : Nat) {a n c k : Nat} (v : Nat) (h : Region.disjoint ⟨c, k⟩ ⟨a,
    n⟩ = true) :
    (s.digWrite d a n v).limbsAt 1 c k = s.limbsAt 1 c k := by
  apply limbsAt_setLimbs_disjoint
  intro i j hi hj
  rw [radixDigits_length] at hj
  simp only [Region.disjoint, Bool.or_eq_true, decide_eq_true_eq] at h
  omega

/-- The checks of one AMM quadruple (43_redundant.md R284). -/
theorem CompletesWhen.amm {s : State} {c : Contract} {dg : DigitSize} {a b m k0 len : Nat} {f : Nat → Out}
    {post : State → Prop} {q : Prop} (hc : Contract.amm s dg a b m k0 len ⊆ c)
    (h : (Contract.amm s dg a b m k0 len).Holds → CompletesWhen c q
      (f (ammf (digitBits dg) (dvalAt s (digitBits dg) a len) (dvalAt s (digitBits dg) b len)
        (dvalAt s (digitBits dg) m len) (k0 % 2 ^ digitBits dg) len)) post) :
    CompletesWhen c ((Contract.amm s dg a b m k0 len).Holds ∧ q) (withAmm s dg a b m k0 len f) post := by
  unfold withAmm
  have n : ∀ (p : Prop) (r : Fault) (P : Prop), (P, r) ∈ Contract.amm s dg a b m k0 len → (P → p) → c.Names p r :=
    fun p r P hm hp => Contract.Names.of_mem (hc hm) hp
  have nw : ∀ p, (Written s a len ∧ Written s b len ∧ Written s m len → p) → c.Names p .uninitRead :=
    fun p hp => n p _ _ (by simp [Contract.amm]) hp
  have nd : ∀ p, (Normalized s (digitBits dg) a len ∧ Normalized s (digitBits dg) b len ∧
      Normalized s (digitBits dg) m len → p) → c.Names p .digitOverflow :=
    fun p hp => n p _ _ (by simp [Contract.amm]) hp
  refine CompletesWhen.congr ?_ (CompletesWhen.guard (n _ _ (1 ≤ len) (by simp [Contract.amm]) id) fun h1 =>
    CompletesWhen.guard (n _ _ (len ≤ maxDigits s.cfg dg) (by simp [Contract.amm]) id) fun h2 =>
    CompletesWhen.digits (nw _ (·.1)) (nd _ (·.1)) fun wa na =>
    CompletesWhen.digits (nw _ (·.2.1)) (nd _ (·.2.1)) fun wb nb =>
    CompletesWhen.digits (nw _ (·.2.2)) (nd _ (·.2.2)) fun wm nm =>
    CompletesWhen.guard (n _ _ (dvalAt s (digitBits dg) m len % 2 = 1) (by simp [Contract.amm]) id) fun g1 =>
    CompletesWhen.guard (n _ _ (k0 % 2 ^ digitBits dg * dvalAt s (digitBits dg) m len % 2 ^ digitBits dg =
      2 ^ digitBits dg - 1) (by simp [Contract.amm]) id) fun g2 =>
    CompletesWhen.guard (n _ _ (4 * dvalAt s (digitBits dg) m len ≤ 2 ^ (digitBits dg * len))
      (by simp [Contract.amm]) id) fun g3 =>
    CompletesWhen.guard (n _ _ (dvalAt s (digitBits dg) a len < 2 * dvalAt s (digitBits dg) m len ∧
      dvalAt s (digitBits dg) b len < 2 * dvalAt s (digitBits dg) m len) (by simp [Contract.amm]) id) fun g4 =>
    h (by simp [Contract.amm, h1, h2, wa, na, wb, nb, wm, nm, g1, g2, g3, g4]))
  simp only [Contract.amm, Contract.holds_cons, Contract.holds_nil, and_true]
  tauto

/-- What the contract of one AMM quadruple gives: the value of R283, which fits its digits. -/
theorem amm_value {s : State} {dg : DigitSize} {a b m k0 len : Nat} (h : (Contract.amm s dg a b m k0 len).Holds) :
    ammValue (digitBits dg) len (dvalAt s (digitBits dg) a len) (dvalAt s (digitBits dg) b len)
      (dvalAt s (digitBits dg) m len) (ammf (digitBits dg) (dvalAt s (digitBits dg) a len)
        (dvalAt s (digitBits dg) b len) (dvalAt s (digitBits dg) m len) (k0 % 2 ^ digitBits dg) len) ∧
    ammf (digitBits dg) (dvalAt s (digitBits dg) a len) (dvalAt s (digitBits dg) b len)
      (dvalAt s (digitBits dg) m len) (k0 % 2 ^ digitBits dg) len < 2 ^ (digitBits dg * len) := by
  simp only [Contract.amm, Contract.holds_cons, Contract.holds_nil, and_true] at h
  obtain ⟨-, -, ⟨-, wb, -⟩, ⟨-, nb, -⟩, -, a7, a8, a9, a10⟩ := h
  have := ammf_spec a7 (digitsAt_dvalAt wb nb).lt a8 a9 a10
  refine ⟨this, ?_⟩
  obtain ⟨q, _, _, h⟩ := this
  omega

/-- The size of a scramble table (44_scramble.md R310). -/
theorem scrSize_spec (c : Config) (hw : c.wf = true) (n w : Nat) : isTableSize c n w (scrSize c n w) := by
  simp only [Config.wf, Bool.and_eq_true, decide_eq_true_eq] at hw
  obtain ⟨⟨⟨⟨-, -⟩, h1⟩, h2⟩, -⟩ := hw
  have hcl : 0 < c.clBytes * 8 / c.W := by
    rw [W_eq_bpl, Nat.mul_comm, Nat.mul_div_mul_left _ _ (by omega)]
    exact Nat.div_pos (Nat.le_of_dvd h1 (Nat.dvd_of_mod_eq_zero h2)) (bpl_pos c)
  unfold isTableSize scrSize ceilDiv
  simp only
  set cl := c.clBytes * 8 / c.W
  have e1 := Nat.div_add_mod (2 ^ w * n + cl - 1) cl
  have e2 := Nat.mod_lt (2 ^ w * n + cl - 1) hcl
  rw [Nat.mul_comm] at e1
  refine ⟨Nat.mul_mod_left _ _, by omega, by omega⟩

end Sys2Proof.Machine
end

