-- ==== Sys2Proof/Laws/Scramble.lean ====
section
/-! SUPPORT. The scramble table: strided entries and the constant-time scan. -/

namespace Sys2Proof.Machine

open Sys2Proof

theorem limbsAt_isSome_iff {s : State} {a st n : Nat} : (∃ l, s.limbsAt st a n = some l) ↔ ∀ j, j < n →
    (s.limbAt (a + j * st)).isSome := by
  induction n generalizing a with
  | zero => simp [State.limbsAt]
  | succ n ih =>
    have := ih (a := a + st)
    simp only [State.limbsAt]
    constructor
    · rintro ⟨l, hl⟩
      cases h0 : s.limbAt a with
      | none => simp [h0] at hl
      | some x =>
        cases h1 : s.limbsAt st (a + st) n with
        | none => simp [h0, h1] at hl
        | some xs =>
          intro j hj
          cases j with
          | zero => simp [h0]
          | succ j =>
            have := this.mp ⟨xs, h1⟩ j (by omega)
            rwa [show a + (j + 1) * st = a + st + j * st by ring]
    · intro h
      have h0 := h 0 (by omega)
      rw [Nat.zero_mul, Nat.add_zero] at h0
      obtain ⟨x, hx⟩ := Option.isSome_iff_exists.mp h0
      obtain ⟨xs, hxs⟩ := this.mpr (fun j hj => by
        have := h (j + 1) (by omega)
        rwa [show a + (j + 1) * st = a + st + j * st by ring] at this)
      exact ⟨x :: xs, by simp [hx, hxs]⟩

/-- One row of the scan gives the limb of entry idx (44_scramble.md R314). -/
theorem scanRow_spec (W idx k : Nat) (l : List Nat) (hl : ∀ x ∈ l, x < 2 ^ W) :
    scanRow W idx k l = if h : k ≤ idx ∧ idx - k < l.length then l[idx - k] else 0 := by
  induction l generalizing k with
  | nil => simp [scanRow]
  | cons x xs ih =>
    rw [scanRow, ih _ (fun y hy => hl y (List.mem_cons_of_mem _ hy))]
    have hx := hl x List.mem_cons_self
    have hand : x &&& (2 ^ W - 1) = x := by rw [Nat.and_two_pow_sub_one_eq_mod, Nat.mod_eq_of_lt hx]
    unfold scanMask
    rcases Nat.lt_trichotomy k idx with h | h | h
    · rw [if_neg (by omega)]
      obtain ⟨d, rfl⟩ := Nat.exists_eq_add_of_lt h
      simp only [Nat.and_zero, Nat.zero_or, List.length_cons]
      have e1 : k + d + 1 - (k + 1) = d := by omega
      have e2 : k + d + 1 - k = d + 1 := by omega
      simp only [e1, e2, List.getElem_cons_succ]
      by_cases hd : d < xs.length
      · rw [dif_pos ⟨by omega, hd⟩, dif_pos ⟨by omega, by omega⟩]
      · rw [dif_neg (by omega), dif_neg (by omega)]
    · subst h
      rw [if_pos rfl, hand, dif_neg (by omega), dif_pos ⟨le_rfl, by simp⟩]
      simp
    · rw [if_neg (by omega), dif_neg (by omega), dif_neg (by omega)]; simp

/-- The scan gives every limb of entry idx (44_scramble.md R314). -/
theorem scanTable_spec (W idx N : Nat) (hidx : idx < N) (n : Nat) (l : List Nat) (hlen : l.length = N * n)
    (hl : ∀ x ∈ l, x < 2 ^ W) :
    scanTable W idx N n l = List.ofFn (n := n) (fun j => l.getD (j.val * N + idx) 0) := by
  induction n generalizing l with
  | zero => simp [scanTable]
  | succ n ih =>
    rw [scanTable, ih (l.drop N) (by simp [hlen]; ring_nf; omega) (fun x hx => hl x (List.mem_of_mem_drop hx)),
        List.ofFn_succ]
    have hN : N ≤ l.length := by rw [hlen]; nlinarith
    congr 1
    · rw [scanRow_spec _ _ _ _ (fun x hx => hl x (List.mem_of_mem_take hx)), dif_pos ⟨Nat.zero_le _, by simp; omega⟩]
      simp [List.getElem_take, List.getD_eq_getElem?_getD, List.getElem?_eq_getElem (show idx < l.length by omega)]
    · congr 1; funext j
      simp only [List.getD_eq_getElem?_getD, List.getElem?_drop, Fin.val_succ]
      congr 2; ring

theorem rowReads_eq (b k : Nat) : rowReads b k = (List.range k).map (fun i => Access.read (b + i)) := by
  induction k generalizing b with
  | zero => rfl
  | succ k ih => simp [rowReads, ih, List.range_succ_eq_map, List.map_map, Nat.add_assoc, Nat.add_comm 1]

/-- The trace of SCRGETCT, as a list over the rows (44_scramble.md R314). -/
theorem scrgetctTrace_eq (N t v j n : Nat) : scrgetctTrace N t v j n = (List.range n).flatMap (fun i =>
    (List.range N).map (fun k => Access.read (t + (j + i) * N + k)) ++ [Access.write (v + (j + i))]) := by
  induction n generalizing j with
  | zero => rfl
  | succ n ih => simp [scrgetctTrace, ih, rowReads_eq, List.range_succ_eq_map, List.flatMap_map, Nat.add_assoc,
      Nat.add_comm 1]

end Sys2Proof.Machine
end

