-- ==== Sys2Proof/Laws/Step.lean ====
section
/-! SUPPORT. What one step of the machine can do, said once. -/

namespace Sys2Proof.Machine

open Sys2Proof

/-- A command that only stores changes LM, STATUS, RES0, RES1, the phase and the model's own fields. -/
theorem Stored.finish_eq {s u : State} (h : Stored s u) (e r0 r1 l) :
    u.finish e r0 r1 l =
      { s with
        lm := u.lm
        status := ⟨false, true, e⟩
        res0 := wordOf s.cfg r0
        res1 := wordOf s.cfg r1
        phase := .idle
        leak := l
        fresh := false
        draws := s.draws + 1 } := by
  rw [h.only_lm]; rfl

/-- Every way a step answers a next state: a host access, an idle turn, an illegal word, a fault entered, a command run. -/
theorem step_cases {s t : State} (h : step s = .next t) :
    ∃ u, (u = s ∨ ∃ rest, u = { s with schedule := rest }) ∧
      ((∃ a, t = hostAccess u a) ∨ t = u ∨ (∃ w args, u.phase = .pending w args ∧
        t = u.completeErr .illegal (Config.freeLeak u)) ∨
       (∃ w args i r, u.phase = .pending w args ∧ exec i u = .fault r ∧ t = u.enterFaulted r) ∨
       (∃ w args i, u.phase = .pending w args ∧ exec i u = .next t)) := by
  have eng : ∀ u, engineStep u = .next t → (t = u ∨ (∃ w args, u.phase = .pending w args ∧
      t = u.completeErr .illegal (Config.freeLeak u)) ∨
       (∃ w args i r, u.phase = .pending w args ∧ exec i u = .fault r ∧ t = u.enterFaulted r) ∨
       (∃ w args i, u.phase = .pending w args ∧ exec i u = .next t)) := by
    intro u hu
    unfold engineStep at hu
    split at hu
    next => left; injection hu with e; exact e.symm
    next => cases hu
    next w args hp =>
      split at hu
      next => right; left; injection hu with e; exact ⟨w, args, hp, e.symm⟩
      next i hd =>
        right; right
        unfold settle at hu
        split at hu
        next t' ht => injection hu with e; subst e; exact .inr ⟨w, args, i, hp, ht⟩
        next r hr => injection hu with e; exact .inl ⟨w, args, i, r, hp, hr, e.symm⟩
        next => cases hu
  unfold step at h
  split at h
  next => exact ⟨s, .inl rfl, .inr (eng s h)⟩
  next rest _ => exact ⟨_, .inr ⟨rest, rfl⟩, .inr (eng _ h)⟩
  next a rest _ => injection h with e; exact ⟨_, .inr ⟨rest, rfl⟩, .inl ⟨a, e.symm⟩⟩

end Sys2Proof.Machine
end

