-- ==== Sys2Proof/Tests/Slice0.lean ====
section
/-! SUPPORT. Tests of one word or one step each, expected values from 95_test_vectors.md (the section is named) or
from the rule named, and for every statement of Certificates/Slice0/Obligations.lean that has hypotheses a witness
`wit_...` that meets them. -/

namespace Sys2Proof.Tests

open Sys2Proof Sys2Proof.Machine

/-! ### WellFormed: each check accepts at its boundary and refuses beyond it (30_encoding.md R103) -/

theorem test_wf_win : Instr.wf .w64 (.scrsize 1) = true ∧ Instr.wf .w64 (.scrput 6) = true ∧
    Instr.wf .w64 (.scrget 0) = false ∧ Instr.wf .w64 (.scrgetct 7) = false ∧ Instr.wf .w64 (.scrsize 0) = false ∧
    Instr.wf .w64 (.scrput 7) = false := by decide
theorem test_wf_bufsize : Instr.wf .w32 (.expbufsize 0) = true ∧ Instr.wf .w32 (.expbufsize 7) = false := by decide
theorem test_wf_exp : Instr.wf .w64 (.expwin .c1 .regular 6) = true ∧ Instr.wf .w64 (.expwin .c0 .regular 0) = false ∧
    Instr.wf .w64 (.expwinct .c0 .montgomery 7) = false ∧ Instr.wf .w64 (.dualexpwinct .regular 0) = false := by decide
theorem test_wf_digit : Instr.wf .w64 (.amm .d52) = true ∧ Instr.wf .w32 (.amm .d27) = true ∧
    Instr.wf .w32 (.r2red .d52) = false ∧ Instr.wf .w32 (.red2r .d52) = false ∧ Instr.wf .w32 (.amm .d52) = false ∧
    Instr.wf .w32 (.ams .d52) = false ∧ Instr.wf .w32 (.ammdual .d52) = false := by decide

/-! ### Decoding: words written out from R101 and R105, one of each constructor -/

/-- One word of each group, bit by bit: reserved 31:16 and 15, WIN, reserved 11, S, D, C, OPC. -/
theorem test_decode_bits :
    decode .w64 0b00000000000000000000000000000001#32 = .ok .add ∧
    decode .w64 0b00000000000000000000000000010001#32 = .ok .mod ∧
    decode .w64 0b00000000000000000000000100101110#32 = .ok (.mmul .c1) ∧
    decode .w64 0b00000000000000000000010001000000#32 = .ok (.r2red .d27) ∧
    decode .w64 0b00000000000000000010000001001011#32 = .ok (.scrgetct 2) ∧
    decode .w64 0b00000000000000000000000001010001#32 = .ok (.expbufsize 0) ∧
    decode .w64 0b00000000000000000000001101010011#32 = .ok (.expbinct .c1 .regular) ∧
    decode .w64 0b00000000000000000100001101010101#32 = .ok (.expwinct .c1 .regular 4) ∧
    decode .w64 0b00000000000000000010001001010110#32 = .ok (.dualexpwinct .regular 2) ∧
    decode .w64 0b00000000000000000000000001100001#32 = .ok .bn2os := by decide
theorem test_decode_bnu :
    decode .w32 0x00 = .ok .nop ∧ decode .w32 0x01 = .ok .add ∧ decode .w32 0x02 = .ok .sub ∧
    decode .w32 0x03 = .ok .inc ∧ decode .w32 0x04 = .ok .dec ∧ decode .w32 0x05 = .ok .muld ∧
    decode .w32 0x06 = .ok .submuld ∧ decode .w32 0x07 = .ok .mul ∧ decode .w32 0x08 = .ok .sqr ∧
    decode .w32 0x09 = .ok .nlz ∧ decode .w32 0x0A = .ok .ntz ∧ decode .w32 0x0B = .ok .lsr ∧
    decode .w32 0x0C = .ok .cmp ∧ decode .w32 0x0D = .ok .cmpct ∧ decode .w32 0x0E = .ok .fix ∧
    decode .w32 0x0F = .ok .maskcopy := by decide
theorem test_decode_division :
    decode .w32 0x10 = .ok .div ∧ decode .w32 0x11 = .ok .mod ∧ decode .w32 0x12 = .ok .gcd ∧
    decode .w32 0x13 = .ok .modinv ∧ decode .w32 0x20 = .ok .montfactor := by decide
theorem test_decode_montgomery :
    decode .w64 0x121 = .ok (.enginit .c1) ∧ decode .w64 0x022 = .ok (.engrd .c0) ∧
    decode .w64 0x128 = .ok (.madd .c1) ∧ decode .w64 0x029 = .ok (.msub .c0) ∧
    decode .w64 0x12A = .ok (.mneg .c1) ∧ decode .w64 0x02B = .ok (.mdiv2 .c0) ∧
    decode .w64 0x12C = .ok (.mmul2 .c1) ∧ decode .w64 0x02D = .ok (.mmul3 .c0) ∧
    decode .w64 0x12E = .ok (.mmul .c1) ∧ decode .w64 0x02F = .ok (.msqr .c0) ∧
    decode .w64 0x130 = .ok (.menc .c1) ∧ decode .w64 0x031 = .ok (.mdec .c0) ∧
    decode .w64 0x132 = .ok (.mred .c1) := by decide
theorem test_decode_redundant :
    decode .w64 0x040 = .ok (.r2red .d52) ∧ decode .w32 0x440 = .ok (.r2red .d27) ∧
    decode .w64 0x441 = .ok (.red2r .d27) ∧ decode .w64 0x042 = .ok (.amm .d52) ∧
    decode .w64 0x442 = .ok (.amm .d27) ∧ decode .w64 0x043 = .ok (.ams .d52) ∧
    decode .w32 0x444 = .ok (.ammdual .d27) := by decide
theorem test_decode_table_and_exponent :
    decode .w64 0x1048 = .ok (.scrsize 1) ∧ decode .w64 0x2049 = .ok (.scrput 2) ∧
    decode .w64 0x604A = .ok (.scrget 6) ∧ decode .w64 0x204B = .ok (.scrgetct 2) ∧
    decode .w64 0x0050 = .ok .winsize ∧ decode .w64 0x6051 = .ok (.expbufsize 6) ∧
    decode .w64 0x0252 = .ok (.expbin .c0 .regular) ∧ decode .w64 0x0353 = .ok (.expbinct .c1 .regular) ∧
    decode .w64 0x3154 = .ok (.expwin .c1 .montgomery 3) ∧ decode .w64 0x4355 = .ok (.expwinct .c1 .regular 4) ∧
    decode .w64 0x2256 = .ok (.dualexpwinct .regular 2) ∧ decode .w64 0x0060 = .ok .os2bn ∧
    decode .w64 0x0061 = .ok .bn2os := by decide
/-- Section 2.1, the illegal words, each by the check that refuses it. -/
theorem test_decode_illegal :
    decode .w64 0x14 = .illegal .unassignedOpcode ∧ decode .w64 0xFF = .illegal .unassignedOpcode ∧
    decode .w64 0x801 = .illegal .reservedBits ∧ decode .w64 0x8001 = .illegal .reservedBits ∧
    decode .w64 0x10000 = .illegal .reservedBits ∧ decode .w64 0x101 = .illegal .fieldNotZero ∧
    decode .w64 0x201 = .illegal .fieldNotZero ∧ decode .w64 0x22E = .illegal .fieldNotZero ∧
    decode .w64 0x1001 = .illegal .fieldNotZero ∧ decode .w64 0x55 = .illegal .winOutOfRange ∧
    decode .w64 0x7055 = .illegal .winOutOfRange ∧ decode .w64 0x7051 = .illegal .winOutOfRange ∧
    decode .w64 0x1052 = .illegal .fieldNotZero ∧ decode .w64 0x452 = .illegal .fieldNotZero ∧
    decode .w64 0x2356 = .illegal .fieldNotZero ∧ decode .w64 0x48 = .illegal .winOutOfRange ∧
    decode .w32 0x40 = .illegal .digit52NeedsW64 := by decide
theorem test_encode : encode (.expwinct .c1 .regular 4) = 0x4355 ∧ encode (.amm .d27) = 0x442 ∧
    encode (.dualexpwinct .regular 2) = 0x2256 ∧ encode (.enginit .c1) = 0x121 := by decide
theorem test_table_word : decodeTableWord 32 0x20000012E = some (.mmul .c1) ∧ decodeTableWord 32 0x14 = none := by
  decide

/-! ### Small states -/

/-- Parameters small enough to evaluate with. -/
def small (lw : LimbWidth) : Config := { Config.standard with width := lw, lmLimbs := 512, maxModBits := 128 }

def loadLimbs : State → List (Nat × List Nat) → State
  | s, [] => s
  | s, (a, l) :: rest => loadLimbs (s.setLimbs 1 a l) rest

def setArgs : State → Nat → List Nat → State
  | s, _, [] => s
  | s, i, v :: vs => setArgs { s with args := s.args.setIfInBounds i (BitVec.ofNat 64 v) } (i + 1) vs

/-- LM holds the limb lists at the bases given, and a command is pending with these operands. -/
def st (lw : LimbWidth) (mem : List (Nat × List Nat)) (ops : List Nat) : State :=
  (setArgs (loadLimbs (State.resetOf (small lw)) mem) 0 ops).issue 0

/-- A context as its scalar fields and arrays are listed in 95_test_vectors.md. -/
def mkCtx (lw : LimbWidth) (bits n m0 m1 k0 r0 r1 : Nat) (pool : Nat) : Ctx :=
  let pad := fun a b => (BitVec.ofNat 64 a :: BitVec.ofNat 64 b :: List.replicate ((small lw).maxLimbs - 2) 0)
  { valid := true, modBits := BitVec.ofNat 64 bits, modLen := BitVec.ofNat 64 n, modulus := pad m0 m1,
    k0 := BitVec.ofNat 64 k0, montR := pad r0 0, montR2 := pad r1 0, poolCap := BitVec.ofNat 64 pool, poolUsed := 0,
    backend := .generic }

/-- P32 and P64 (section 1) and m = 2^61 - 1 with W = 32 (section 2.4) in slot 0. -/
def ctxP32 : Ctx := mkCtx .w32 32 1 0xFFFFFFFB 0 0xCCCCCCCD 5 0x19 1
def ctxP64 : Ctx := mkCtx .w64 64 1 0xFFFFFFFFFFFFFFC5 0 0xCBEEA4E1A08AD8F3 0x3B 0xD99 1
def ctxM61 : Ctx := mkCtx .w32 61 2 0xFFFFFFFF 0x1FFFFFFF 1 8 0x40 2
/-- The context of section 2.7 with m = 0xFFFFFFF1 = 2^32 - 15: R mod m = 15, R^2 mod m = 225, and
0xFFFFFFF1 * 0xEEEEEEEF = -1 modulo 2^32. -/
def ctxF1 : Ctx := mkCtx .w32 32 1 0xFFFFFFF1 0 0xEEEEEEEF 15 225 1

def p32 (mem : List (Nat × List Nat)) (ops : List Nat) : State := { st .w32 mem ops with ctx0 := ctxP32 }
def p64 (mem : List (Nat × List Nat)) (ops : List Nat) : State := { st .w64 mem ops with ctx0 := ctxP64 }
def m61 (mem : List (Nat × List Nat)) (ops : List Nat) : State := { st .w32 mem ops with ctx0 := ctxM61 }
def dual (mem : List (Nat × List Nat)) (ops : List Nat) : State :=
  { st .w32 mem ops with ctx0 := ctxP32, ctx1 := ctxF1 }

/-- A completion: n limbs at `a`, RES0 and RES1. -/
def seen (o : Out) (a n : Nat) : Option (List Nat × Nat × Nat) :=
  match o with
  | .next t => (t.limbsAt 1 a n).map (fun l => (l, t.res0.toNat, t.res1.toNat))
  | .fault _ => none
  | .refused _ => none

/-- A completion: RES0 and RES1. -/
def results (o : Out) : Option (Nat × Nat) := (seen o 0 0).map (fun x => x.2)

def why (o : Out) : Option Fault :=
  match o with
  | .fault r => some r
  | .next _ => none
  | .refused _ => none

def after (o : Out) : Option State :=
  match o with
  | .next t => some t
  | .fault _ => none
  | .refused _ => none

/-- STATUS as the host reads it. -/
def statusAfter (o : Out) : Option Nat := (after o).map (fun t => statusWord t.status)
def traceAfter (o : Out) : Option (List Access) := (after o).map (fun t => t.leak.trace)
def dataAfter (o : Out) : Option Nat := (after o).map (fun t => t.hostData.toNat)
def phaseAfter (o : Out) : Option Phase := (after o).map (fun t => t.phase)

/-! ### Limb arithmetic (section 2.2) -/

def sAdd : State := st .w32 [(0, [0xFFFFFFFF, 0xFFFFFFFF, 1]), (3, [1, 0, 0])] [6, 0, 3, 3]
theorem test_add : seen (exec .add sAdd) 6 3 = some ([0, 0, 2], 0, 0) ∧
    seen (exec .add (st .w32 [(0, [0xFFFFFFFF, 0xFFFFFFFF, 0xFFFFFFFF])] [3, 0, 0, 3])) 3 3 =
      some ([0xFFFFFFFE, 0xFFFFFFFF, 0xFFFFFFFF], 1, 0) ∧
    seen (exec .add (st .w64 [(0, [7, 9])] [0, 0, 1, 1])) 0 1 = some ([0x10], 0, 0) := by decide
theorem test_add_faults : why (exec .add (st .w32 [(0, [1, 2])] [1, 0, 1, 1])) = some .overlap ∧
    why (exec .add (st .w32 [(0, [1, 2])] [2, 0, 1, 0])) = some .zeroLength ∧
    why (exec .add (st .w32 [(0, [1, 2])] [512, 0, 1, 1])) = some .outOfBounds ∧
    why (exec .add (st .w32 [(0, [1])] [2, 0, 1, 1])) = some .uninitRead := by decide
def sSub : State := st .w32 [(0, [0, 0, 1]), (3, [1, 0, 0])] [6, 0, 3, 3]
theorem test_sub : seen (exec .sub sSub) 6 3 = some ([0xFFFFFFFF, 0xFFFFFFFF, 0], 0, 0) ∧
    seen (exec .sub (st .w64 [(0, [5, 5])] [2, 0, 1, 1])) 2 1 = some ([0], 0, 0) := by decide
def sInc : State := st .w32 [(0, [0xFFFFFFFF, 0xFFFFFFFF])] [2, 0, 2, 0xFFFFFFFF]
theorem test_inc : seen (exec .inc sInc) 2 2 = some ([0xFFFFFFFE, 0], 1, 0) ∧
    seen (exec .inc (st .w64 [(0, [5])] [0, 0, 1, 0])) 0 1 = some ([5], 0, 0) := by decide
theorem test_dec : seen (exec .dec (st .w32 [(0, [3, 0])] [2, 0, 2, 5])) 2 2 =
    some ([0xFFFFFFFE, 0xFFFFFFFF], 1, 0) := by decide
def sMuld : State := st .w32 [(0, [0x12345678, 0x9ABCDEF0])] [2, 0, 2, 0x10]
theorem test_muld : seen (exec .muld sMuld) 2 2 = some ([0x23456780, 0xABCDEF01], 9, 0) ∧
    seen (exec .muld (st .w64 [(0, [5])] [1, 0, 1, 0])) 1 1 = some ([0], 0, 0) := by decide
def sSubmuld : State := st .w32 [(0, [0xFFFFFFFF, 0xFFFFFFFF]), (2, [0, 0])] [2, 0, 2, 0xFFFFFFFF]
theorem test_submuld : seen (exec .submuld sSubmuld) 2 2 = some ([0xFFFFFFFF, 0], 0xFFFFFFFF, 0) ∧
    seen (exec .submuld (st .w64 [(0, [3, 0x10])] [1, 0, 1, 5])) 1 1 = some ([1], 0, 0) ∧
    why (exec .submuld (st .w64 [(0, [3])] [0, 0, 1, 5])) = some .overlap := by decide
def sMul : State := st .w32 [(0, [0xFFFFFFFF, 0xFFFFFFFF, 0xFFFFFFFF])] [3, 0, 2, 2, 1]
theorem test_mul : seen (exec .mul sMul) 3 3 = some ([1, 0xFFFFFFFF, 0xFFFFFFFE], 0, 0) ∧
    seen (exec .mul (st .w64 [(0, [0, 0x1234])] [2, 0, 1, 1, 1])) 2 2 = some ([0, 0], 0, 0) ∧
    why (exec .mul (st .w64 [(0, [0, 0x1234])] [0, 0, 1, 1, 1])) = some .overlap := by decide
def sSqr : State := st .w32 [(0, [0xFFFFFFFF])] [1, 0, 1]
theorem test_sqr : seen (exec .sqr sSqr) 1 2 = some ([1, 0xFFFFFFFE], 0, 0) := by decide
theorem test_nlz : results (exec .nlz (st .w32 [] [0])) = some (32, 0) ∧
    results (exec .nlz (st .w32 [] [1])) = some (31, 0) ∧ results (exec .nlz (st .w32 [] [0x80000000])) = some (0, 0) ∧
    results (exec .nlz (st .w32 [] [0x10000])) = some (15, 0) ∧
    results (exec .nlz (st .w64 [] [0])) = some (64, 0) := by decide
theorem test_ntz : results (exec .ntz (st .w32 [] [0])) = some (32, 0) ∧
    results (exec .ntz (st .w32 [] [1])) = some (0, 0) ∧ results (exec .ntz (st .w32 [] [0x80000000])) = some (31, 0) ∧
    results (exec .ntz (st .w32 [] [0x10000])) = some (16, 0) := by decide
def sLsr : State := st .w32 [(0, [0, 0, 0x80000000])] [3, 0, 3, 95]
theorem test_lsr : seen (exec .lsr sLsr) 3 3 = some ([1, 0, 0], 0, 0) ∧
    seen (exec .lsr (st .w32 [(0, [0, 0, 0x80000000])] [3, 0, 3, 33])) 3 3 = some ([0, 0x40000000, 0], 0, 0) ∧
    seen (exec .lsr (st .w32 [(0, [0, 0, 0x80000000])] [3, 0, 3, 96])) 3 3 = some ([0, 0, 0], 0, 0) ∧
    seen (exec .lsr (st .w64 [(0, [1, 3])] [2, 0, 2, 64])) 2 2 = some ([3, 0], 0, 0) ∧
    seen (exec .lsr (st .w64 [(0, [1, 3])] [2, 0, 2, 0])) 2 2 = some ([1, 3], 0, 0) := by decide
def sFix : State := st .w64 [(0, [0, 0, 9])] [0, 3]
theorem test_fix : results (exec .fix sFix) = some (3, 0) ∧
    results (exec .fix (st .w64 [(0, [0, 0, 0])] [0, 3])) = some (1, 0) := by decide
theorem test_cmp : results (exec .cmp (st .w32 [(0, [1, 0, 1])] [0, 2, 2, 1])) = some (0, 0) ∧
    results (exec .cmp (st .w32 [(0, [5, 6])] [0, 1, 1, 1])) = some (0xFFFFFFFF, 0) := by decide
def sCmpct : State := st .w32 [(10, [1, 2]), (20, [2])] [10, 2, 20, 1]
theorem test_cmpct : results (exec .cmpct sCmpct) = some (1, 0) ∧
    traceAfter (exec .cmpct sCmpct) = some [.read 11, .read 10, .read 20] ∧
    results (exec .cmpct (st .w32 [(10, [2, 0]), (20, [2])] [10, 2, 20, 1])) = some (0, 0) := by decide
def sMaskcopy : State :=
  st .w32 [(0, [0x11111111, 0x22222222]), (2, [0x33333333, 0x44444444])] [4, 0, 2, 2, 0xFFFF0000]
theorem test_maskcopy : seen (exec .maskcopy sMaskcopy) 4 2 = some ([0x11113333, 0x22224444], 0, 0) ∧
    traceAfter (exec .maskcopy sMaskcopy) = some [.read 0, .read 2, .write 4, .read 1, .read 3, .write 5] := by
  decide

/-! ### Division, GCD and inverse (section 2.3) -/

def sDiv : State :=
  st .w64 [(0, [0x123456789ABCDEF0, 0xFEDCBA9876543210]), (2, [1, 1])] [4, 5, 0, 2, 2, 2]
theorem test_div : seen (exec .div sDiv) 4 3 =
      some ([0xFEDCBA987654320F, 0x13579BE02468ACE1, 0], 1, 1) ∧
    seen (exec .div (st .w64 [(0, [0, 0, 1, 0, 1])] [5, 7, 0, 3, 3, 2])) 5 4 = some ([0, 1, 0, 0], 2, 1) ∧
    seen (exec .div (st .w64 [(0, [5, 7])] [2, 3, 0, 1, 1, 1])) 2 2 = some ([0, 5], 1, 1) := by decide
theorem test_div_faults : why (exec .div (st .w64 [(0, [5, 7, 1])] [3, 4, 0, 1, 1, 2])) = some .badLength ∧
    why (exec .div (st .w64 [(0, [5, 7, 3, 0])] [4, 5, 0, 2, 2, 2])) = some .divisorNotNormalized ∧
    why (exec .div (st .w64 [(0, [5, 0])] [4, 5, 0, 1, 1, 1])) = some .divisorNotNormalized := by decide
def sMod : State := st .w64 [(0, [7, 0, 1])] [3, 0, 1, 1, 2]
theorem test_mod : seen (exec .mod sMod) 3 2 = some ([7, 0], 1, 0) ∧
    seen (exec .mod (st .w32 [(0, [0, 0, 0, 0x1000, 0xFFFFFFFB])] [5, 0, 4, 4, 1])) 5 1 = some ([0x7D000], 1, 0) := by
  decide
theorem test_gcd : results (exec .gcd (st .w64 [] [0, 0])) = some (0, 0) ∧
    results (exec .gcd (st .w64 [] [7, 0])) = some (7, 0) ∧ results (exec .gcd (st .w64 [] [0, 9])) = some (9, 0) ∧
    results (exec .gcd (st .w64 [] [12, 18])) = some (6, 0) := by decide
def sModinv : State := st .w64 [(0, [0x18, 0x11])] [2, 0, 1, 1, 1]
def sModinvNone : State := st .w64 [(0, [0, 0x11])] [2, 0, 1, 1, 1]
theorem test_modinv : seen (exec .modinv sModinv) 2 1 = some ([5], 1, 0) ∧
    seen (exec .modinv (st .w64 [(0, [3, 0, 1])] [3, 0, 1, 1, 2])) 3 2 = some ([0xAAAAAAAAAAAAAAAB, 0], 1, 0) ∧
    seen (exec .modinv (st .w64 [(0, [3, 0xFFFFFFFFFFFFFFC5])] [2, 0, 1, 1, 1])) 2 1 =
      some ([0x5555555555555542], 1, 0) := by decide
theorem test_modinv_ends : results (exec .modinv sModinvNone) = some (0, 0) ∧
    statusAfter (exec .modinv sModinvNone) = some 2 ∧
    why (exec .modinv (st .w64 [(0, [3, 1])] [2, 0, 1, 1, 1])) = some .modulusTooSmall := by decide

/-! ### Montgomery engine (sections 1.1, 2.4) -/

theorem test_montfactor : results (exec .montfactor (st .w64 [] [0xFFFFFFFFFFFFFFC5])) = some (0xCBEEA4E1A08AD8F3, 0) ∧
    results (exec .montfactor (st .w32 [] [1])) = some (0xFFFFFFFF, 0) ∧
    results (exec .montfactor (st .w32 [] [0xFFFFFFFF])) = some (1, 0) ∧
    results (exec .montfactor (st .w32 [] [3])) = some (0x55555555, 0) ∧
    why (exec .montfactor (st .w32 [] [2])) = some .evenModulus := by decide
def sEnginit : State := st .w64 [(0, [0xFFFFFFFFFFFFFFC5])] [0, 64, 1]
/-- The constructed context, its back-end aside (a free value), and RES0. -/
def constructed (o : Out) (c : Slot) : Option (Ctx × Nat) :=
  (after o).map (fun t => ({ t.ctx c with backend := .generic }, t.res0.toNat))
theorem test_enginit : constructed (exec (.enginit .c0) sEnginit) .c0 = some (ctxP64, 1) ∧
    constructed (exec (.enginit .c1) (st .w32 [(0, [0xFFFFFFFF, 0x1FFFFFFF])] [0, 61, 2])) .c1 = some (ctxM61, 2) ∧
    constructed (exec (.enginit .c0) (st .w32 [(0, [0xFFFFFFFB])] [0, 32, 1])) .c0 = some (ctxP32, 1) ∧
    constructed (exec (.enginit .c0) (st .w32 [(0, [1])] [0, 1, 1])) .c0 =
      some (mkCtx .w32 1 1 1 0 0xFFFFFFFF 0 0 1, 1) := by decide
theorem test_enginit_ends : statusAfter (exec (.enginit .c0) (st .w32 [] [0, 0, 0])) = some 0x12 ∧
    statusAfter (exec (.enginit .c0) (st .w32 [] [0, 129, 1])) = some 0x12 ∧
    statusAfter (exec (.enginit .c0) (st .w32 [] [0, 32, 0])) = some 0x22 ∧
    statusAfter (exec (.enginit .c0) (st .w32 [(0, [0xFFFFFFFA])] [0, 31, 1])) = some 0x32 ∧
    statusAfter (exec (.enginit .c0) (st .w32 [(0, [0])] [0, 32, 1])) = some 0x32 ∧
    why (exec (.enginit .c0) (st .w32 [(0, [0xFFFFFFFB])] [0, 31, 1])) = some .modulusTooWide ∧
    why (exec (.enginit .c0) (st .w32 [] [0, 32, 1])) = some .uninitRead := by decide
theorem test_engrd : seen (exec (.engrd .c0) (p64 [] [5, 0])) 5 1 = some ([0xFFFFFFFFFFFFFFC5], 1, 0) ∧
    seen (exec (.engrd .c0) (p64 [] [5, 1])) 5 1 = some ([0x3B], 1, 0) ∧
    seen (exec (.engrd .c0) (p64 [] [5, 2])) 5 1 = some ([0xD99], 1, 0) ∧
    seen (exec (.engrd .c0) (p64 [] [5, 3])) 5 1 = some ([0xCBEEA4E1A08AD8F3], 1, 0) ∧
    why (exec (.engrd .c0) (p64 [] [5, 4])) = some .badSelector ∧
    why (exec (.engrd .c1) (p64 [] [5, 0])) = some .noContext := by decide
def sMadd : State := p64 [(0, [0xFFFFFFFFFFFFFFC4])] [1, 0, 0]
theorem test_madd : seen (exec (.madd .c0) sMadd) 1 1 = some ([0xFFFFFFFFFFFFFFC3], 0, 0) ∧
    seen (exec (.madd .c0) (p64 [(0, [2, 3])] [0, 0, 1])) 0 1 = some ([5], 0, 0) ∧
    why (exec (.madd .c0) (p64 [(0, [0xFFFFFFFFFFFFFFC5])] [1, 0, 0])) = some .notReduced := by decide
theorem test_msub : seen (exec (.msub .c0) (p64 [(0, [3, 5])] [2, 0, 1])) 2 1 =
    some ([0xFFFFFFFFFFFFFFC3], 0, 0) := by decide
theorem test_mneg : seen (exec (.mneg .c0) (p64 [(0, [0])] [1, 0])) 1 1 = some ([0], 0, 0) ∧
    seen (exec (.mneg .c0) (m61 [(0, [5, 0])] [2, 0])) 2 2 = some ([0xFFFFFFFA, 0x1FFFFFFF], 0, 0) := by decide
theorem test_mdiv2 : seen (exec (.mdiv2 .c0) (p64 [(0, [1])] [1, 0])) 1 1 = some ([0x7FFFFFFFFFFFFFE3], 0, 0) ∧
    seen (exec (.mdiv2 .c0) (m61 [(0, [1, 0])] [2, 0])) 2 2 = some ([0, 0x10000000], 0, 0) := by decide
theorem test_mmul2_mmul3 : seen (exec (.mmul2 .c0) sMadd) 1 1 = some ([0xFFFFFFFFFFFFFFC3], 0, 0) ∧
    seen (exec (.mmul3 .c0) sMadd) 1 1 = some ([0xFFFFFFFFFFFFFFC2], 0, 0) := by decide
theorem test_mmul : seen (exec (.mmul .c0) (p64 [(0, [0xB1, 0xEC])] [2, 0, 1])) 2 1 = some ([0x2C4], 0, 0) ∧
    seen (exec (.mmul .c0) (p32 [(0, [0xF, 0x14])] [2, 0, 1])) 2 1 = some ([0x3C], 0, 0) ∧
    why (exec (.mmul .c1) (p64 [(0, [0xB1, 0xEC])] [2, 0, 1])) = some .noContext := by decide
theorem test_msqr : seen (exec (.msqr .c0) (p64 [(0, [0xB1])] [1, 0])) 1 1 = some ([0x213], 0, 0) ∧
    seen (exec (.msqr .c0) (m61 [(0, [0x18, 0])] [2, 0])) 2 2 = some ([0x48, 0], 0, 0) := by decide
theorem test_menc : seen (exec (.menc .c0) (p64 [(0, [4])] [1, 0])) 1 1 = some ([0xEC], 0, 0) ∧
    seen (exec (.menc .c0) (m61 [(0, [3, 0])] [2, 0])) 2 2 = some ([0x18, 0], 0, 0) := by decide
theorem test_mdec : seen (exec (.mdec .c0) (p64 [(0, [0x2C4])] [1, 0])) 1 1 = some ([0xC], 0, 0) ∧
    seen (exec (.mdec .c0) (p32 [(0, [5])] [0, 0])) 0 1 = some ([1], 0, 0) := by decide
def sMred : State := p64 [(0, [0x2C4, 0])] [2, 0]
theorem test_mred : seen (exec (.mred .c0) sMred) 2 1 = some ([0xC], 0, 0) ∧
    why (exec (.mred .c0) (p64 [(0, [0, 0xFFFFFFFFFFFFFFC5])] [2, 0])) = some .notReduced := by decide
/-- R231: a pool smaller than POOL_NEED of the opcode. -/
theorem test_pool : why (exec (.mmul .c0) { p64 [(0, [1, 1])] [2, 0, 1] with
    cfg := { small .w64 with poolNeed := [(0x2E, 2)] } }) = some .poolExhausted := by decide

/-! ### Redundant radix (section 2.5) -/

def sR2red : State := st .w64 [(0, [0x0123456789ABCDEF])] [1, 4, 0, 64]
theorem test_r2red : seen (exec (.r2red .d27) sR2red) 1 4 = some ([0x1ABCDEF, 0x468ACF1, 4, 0], 0, 0) ∧
    seen (exec (.r2red .d52) (st .w64 [(0, [0xFFFFFFFFFFFFFFFF])] [1, 2, 0, 64])) 1 2 =
      some ([0xFFFFFFFFFFFFF, 0xFFF], 0, 0) := by decide
theorem test_r2red_faults : why (exec (.r2red .d27) (st .w32 [(0, [0xFFFFFFFF])] [1, 2, 0, 31])) = some .excessBits ∧
    why (exec (.r2red .d27) (st .w32 [(0, [0xFFFFFFFB])] [1, 1, 0, 32])) = some .badLength := by decide
def sRed2r : State := st .w32 [(0, [0x7FFFFFB, 0x1F])] [2, 0, 32]
theorem test_red2r : seen (exec (.red2r .d27) sRed2r) 2 1 = some ([0xFFFFFFFB], 0, 0) ∧
    seen (exec (.red2r .d52) (st .w64 [(0, [0xFFFFFFFFFFFFF, 0xFFF])] [2, 0, 64])) 2 1 =
      some ([0xFFFFFFFFFFFFFFFF], 0, 0) := by decide
theorem test_red2r_faults : why (exec (.red2r .d27) (st .w32 [(0, [0x8000000, 0])] [2, 0, 32])) = some .digitOverflow ∧
    why (exec (.red2r .d27) (st .w32 [(0, [0, 0x20])] [2, 0, 32])) = some .excessBits := by decide
/-- a = 3, b = 4 over m = 2^64 - 59 in 52-bit digits. -/
def sAmm : State := st .w64 [(0, [3, 0, 4, 0, 0xFFFFFFFFFFFC5, 0xFFF])] [6, 0, 2, 4, 0xCBEEA4E1A08AD8F3, 2]
/-- The result stays in [m, 2m): no final subtraction. -/
def sAmmBig : State := st .w64 [(0, [0x7FFFFF7, 0x1FFFFFF, 0x7FFFFFD, 0x1FFFFFF])] [4, 0, 0, 2, 0xAAAAAAAB, 2]
def ammP32 (mem : List (Nat × List Nat)) (ops : List Nat) : State := st .w32 ((0, [0x7FFFFFB, 0x1F]) :: mem) ops
theorem test_amm : seen (exec (.amm .d52) sAmm) 6 2 = some ([0x42D98998F2F96, 0x9EB], 0, 0) ∧
    seen (exec (.amm .d27) sAmmBig) 4 2 = some ([0, 0x2000000], 0, 0) := by decide
theorem test_amm_faults :
    why (exec (.amm .d27) (ammP32 [(2, [1, 0])] [4, 2, 2, 0, 0x12345677, 2])) = some .badFactor ∧
    why (exec (.amm .d27) (ammP32 [(2, [1, 0])] [4, 2, 2, 0, 0xCCCCCCCD, 1])) = some .badLength ∧
    why (exec (.amm .d27) (ammP32 [(0, [0x7FFFFFA, 0x1F]), (2, [1, 0])] [4, 2, 2, 0, 0xCCCCCCCD, 2])) =
      some .evenModulus ∧
    why (exec (.amm .d27) (ammP32 [(2, [0x7FFFFF6, 0x3F, 1, 0])] [6, 2, 4, 0, 0xCCCCCCCD, 2])) = some .notReduced := by
  decide
def sAms : State := ammP32 [(2, [0x3C00000, 0])] [4, 2, 0, 0xCCCCCCCD, 2]
theorem test_ams : seen (exec (.ams .d27) sAms) 4 2 = some ([0x3400000, 1], 0, 0) := by decide
def sAmmdual : State :=
  ammP32 [(2, [0x3C00000, 0, 3, 0, 4, 0])] [8, 2, 2, 0, 0xCCCCCCCD, 10, 4, 6, 0, 0xCCCCCCCD, 2]
theorem test_ammdual : seen (exec (.ammdual .d27) sAmmdual) 8 4 = some ([0x3400000, 1, 0x7AE1665, 8], 0, 0) ∧
    why (exec (.ammdual .d27)
      (ammP32 [(2, [0x3C00000, 0, 3, 0, 4, 0])] [8, 2, 2, 0, 0xCCCCCCCD, 3, 4, 6, 0, 0xCCCCCCCD, 2])) =
      some .overlap := by decide

/-! ### Scramble table (section 2.6) -/

theorem test_scrsize : results (exec (.scrsize 1) (st .w64 [] [1])) = some (8, 0) ∧
    results (exec (.scrsize 2) (st .w64 [] [3])) = some (16, 0) ∧
    results (exec (.scrsize 5) (st .w64 [] [16])) = some (512, 0) ∧
    results (exec (.scrsize 3) (st .w32 [] [3])) = some (32, 0) ∧
    results (exec (.scrsize 6) (st .w32 [] [1])) = some (64, 0) ∧
    why (exec (.scrsize 1) (st .w64 [] [0])) = some .zeroLength ∧
    why (exec (.scrsize 6) (st .w32 [] [0xFFFFFFFF])) = some .badLength := by decide
/-- The table of four entries [0x10 + idx, 0x20 + idx] at 100. -/
def table4 : List (Nat × List Nat) := [(100, [0x10, 0x11, 0x12, 0x13, 0x20, 0x21, 0x22, 0x23])]
def sScrput : State := st .w64 [(0, [0x12, 0x22])] [100, 2, 0, 2]
theorem test_scrput : ((after (exec (.scrput 2) sScrput)).map fun t =>
      (t.limbAt 101, t.limbAt 102, t.limbAt 106)) = some (none, some 0x12, some 0x22) ∧
    why (exec (.scrput 2) (st .w64 [(0, [0x12, 0x22])] [100, 4, 0, 2])) = some .badIndex ∧
    why (exec (.scrput 2) (st .w64 [(103, [0x12, 0x22])] [100, 2, 103, 2])) = some .overlap := by decide
/-- Only entry 2 of the table is written. -/
def sScrget : State := st .w64 [(102, [0x12]), (106, [0x22])] [200, 2, 100, 2]
theorem test_scrget : seen (exec (.scrget 2) sScrget) 200 2 = some ([0x12, 0x22], 0, 0) := by decide
def sScrgetct (idx : Nat) : State := st .w64 table4 [200, 2, 100, idx]
theorem test_scrgetct : seen (exec (.scrgetct 2) (sScrgetct 0)) 200 2 = some ([0x10, 0x20], 0, 0) ∧
    why (exec (.scrgetct 2) sScrget) = some .uninitRead := by decide
theorem test_scrgetct_trace : traceAfter (exec (.scrgetct 2) (sScrgetct 2)) =
    some [.read 100, .read 101, .read 102, .read 103, .write 200, .read 104, .read 105, .read 106, .read 107,
      .write 201] := by decide

/-! ### Exponentiation (sections 1.2, 1.5, 2.7) -/

theorem test_winsize :
    [0, 41, 42, 178, 179, 717, 718, 2666, 2667, 4096, 4097, 2 ^ 64 - 1].map
      (fun b => (results (exec .winsize (st .w64 [] [b]))).map (fun r => r.1)) =
    [1, 1, 2, 2, 3, 3, 4, 4, 5, 5, 6, 6].map some := by decide
theorem test_expbufsize : results (exec (.expbufsize 0) (st .w32 [] [32])) = some (2, 0) ∧
    results (exec (.expbufsize 2) (st .w32 [] [32])) = some (18, 0) ∧
    results (exec (.expbufsize 6) (st .w32 [] [32])) = some (66, 0) ∧
    results (exec (.expbufsize 5) (st .w64 [] [2048])) = some (1088, 0) ∧
    results (exec (.expbufsize 4) (st .w64 [] [64])) = some (18, 0) ∧
    why (exec (.expbufsize 2) (st .w64 [] [0])) = some .zeroLength := by decide
/-- X at 1, E at 2, Y at 3, scratch at 40, over P32. -/
def sExp (x e bits : Nat) : State := p32 [(1, [x, e])] [3, 1, 2, bits, 40]
theorem test_expbin : seen (exec (.expbin .c0 .regular) (sExp 3 5 3)) 3 1 = some ([0xF3], 0, 0) ∧
    seen (exec (.expbin .c0 .montgomery) (sExp 0 0 1)) 3 1 = some ([5], 0, 0) := by decide
theorem test_expbinct : seen (exec (.expbinct .c0 .montgomery) (sExp 0xF 5 3)) 3 1 = some ([0x4BF], 0, 0) ∧
    seen (exec (.expbinct .c0 .regular) (m61 [(1, [3, 0, 0xFFFFFFFD, 0x1FFFFFFF])] [5, 1, 3, 61, 40])) 5 2 =
      some ([0x55555555, 0x15555555], 0, 0) := by decide +kernel
theorem test_expwin :
    seen (exec (.expwin .c0 .montgomery 3) (m61 [(1, [0x18, 0, 0x64])] [5, 1, 3, 7, 40])) 5 2 =
      some ([0xD6E610CC, 0x027E00F9], 0, 0) ∧
    seen (exec (.expwin .c0 .regular 1) (sExp 7 0xFFFFFFFF 32)) 3 1 = some ([0x41A7], 0, 0) := by decide +kernel
theorem test_expwinct :
    seen (exec (.expwinct .c0 .montgomery 4) (p64 [(1, [0x4320FEDCBA987615, 0x10001])] [3, 1, 2, 17, 40])) 3 1 =
      some ([0xA32D5891360E6BC0], 0, 0) ∧
    seen (exec (.expwinct .c0 .regular 6) (sExp 2 0xFFFFFFFA 32)) 3 1 = some ([1], 0, 0) := by decide +kernel
theorem test_exp_faults : why (exec (.expwin .c0 .regular 2) (sExp 3 8 3)) = some .excessBits ∧
    why (exec (.expbin .c0 .regular) (sExp 0xFFFFFFFB 1 1)) = some .notReduced ∧
    why (exec (.expbinct .c0 .regular) (sExp 3 5 0)) = some .zeroLength ∧
    why (exec (.expwinct .c0 .regular 2) (p32 [(1, [3, 5])] [3, 1, 2, 3, 2])) = some .overlap := by decide +kernel
/-- X0 and E0 at 1 and 2, X1 and E1 at 3 and 4, Y0 and Y1 at 5 and 6, scratch at 40. -/
def sDual : State := dual [(1, [3, 5, 2, 0xA])] [5, 1, 2, 3, 6, 3, 4, 4, 40]
theorem test_dualexpwinct : seen (exec (.dualexpwinct .regular 2) sDual) 5 2 = some ([0xF3, 0x400], 0, 0) ∧
    why (exec (.dualexpwinct .regular 2) { sDual with ctx1 := ctxM61 }) = some .lengthMismatch := by decide +kernel

/-! ### Octet strings and NOP (section 2.8) -/

def sOs2bn : State := st .w32 [(10, [0x04030201, 0x05])] [20, 2, 40, 5]
theorem test_os2bn : seen (exec .os2bn sOs2bn) 20 2 = some ([0x02030405, 1], 2, 0) ∧
    seen (exec .os2bn (st .w64 [(100, [0x030201])] [20, 1, 800, 3])) 20 1 = some ([0x10203], 1, 0) ∧
    seen (exec .os2bn (st .w64 [] [20, 1, 800, 0])) 20 1 = some ([0], 1, 0) ∧
    why (exec .os2bn (st .w32 [(10, [0x04030201, 0x05])] [20, 1, 40, 5])) = some .badLength := by decide
def sBn2os : State := st .w32 [(0, [0x02030405, 0x01])] [80, 8, 0, 2]
def sBn2osSmall : State := st .w64 [(0, [0x10203])] [800, 2, 0, 1]
theorem test_bn2os : seen (exec .bn2os sBn2os) 20 2 = some ([0x01000000, 0x05040302], 5, 0) ∧
    results (exec .bn2os (st .w64 [(0, [0])] [800, 0, 0, 1])) = some (0, 0) := by decide
theorem test_bn2os_ends : statusAfter (exec .bn2os sBn2osSmall) = some 0x42 ∧
    ((after (exec .bn2os sBn2osSmall)).map fun t => t.lm) = some sBn2osSmall.lm ∧
    why (exec .bn2os (st .w64 [] [800, 2, 0, 1])) = some .uninitRead := by decide
theorem test_nop : statusAfter (exec .nop (st .w64 [] [])) = some 2 ∧ results (exec .nop (st .w64 [] [])) = some (0, 0) := by
  decide

/-! ### The host protocol (section 2.9) -/

/-- The next event is this host access. -/
def hostTurn (s : State) (h : HostAccess) : State := { s with schedule := [.host h] }

/-- The reset state with STATUS, ARG5 and both contexts at values the slots can show. -/
def sIdle : State :=
  { setArgs (loadLimbs (State.resetOf (small .w32)) [(0, [7])]) 5 [0xABCD] with
    status := ⟨false, true, .badModulus⟩, res0 := 9, res1 := 8, cmd := 0x31, ctx0 := ctxM61, ctx1 := ctxP32,
    fresh := false }

theorem test_reset_reads : dataAfter (step (hostTurn State.reset (.readReg 1))) = some 0 ∧
    dataAfter (step (hostTurn State.reset (.readReg 0x2B))) = some 0 := by decide
/-- R411 step 4: STATUS, CMD and ARG while a command is pending. -/
theorem test_busy_reads : [0x00, 0x01, 0x10, 0x13].map (fun n => dataAfter (step (hostTurn sAdd (.readReg n)))) =
    [0, 1, 6, 3].map some := by decide
theorem test_issue : statusAfter (step (hostTurn State.reset (.writeReg 0 0xFFFFFFFF00000001))) = some 1 ∧
    ((after (step (hostTurn State.reset (.writeReg 0 0xFFFFFFFF00000001)))).map fun t => t.cmd) =
      some 0x00000001 := by decide
theorem test_slots :
    [0x00, 0x01, 0x02, 0x03, 0x15, 0x20, 0x21, 0x22, 0x23, 0x24, 0x25, 0x28, 0x29, 0x2B].map
      (fun n => dataAfter (step (hostTurn sIdle (.readReg n)))) =
    [0x31, 0x32, 9, 8, 0xABCD, 1, 61, 2, 1, 2, 0, 1, 32, 0xCCCCCCCD].map some := by decide
theorem test_busy_write : phaseAfter (step (hostTurn sAdd (.writeReg 0x13 1))) = some (.faulted .hostBusyWrite) ∧
    phaseAfter (step (hostTurn sAdd (.writeReg 0 1))) = some (.faulted .hostBusyWrite) ∧
    phaseAfter (step (hostTurn sAdd (.writeLm 0 1))) = some (.faulted .hostBusyWrite) := by decide
theorem test_illegal_word : statusAfter (step { sAdd with phase := .pending 0x14 sAdd.args }) = some 0x52 := by
  decide
theorem test_fault_and_reset :
    phaseAfter (step (State.reset.withFetchWord 32 0x12E)) = some (.faulted .noContext) ∧
    phaseAfter (step (hostTurn (sAdd.enterFaulted .overlap) (.writeReg 0 1))) = some (.faulted .overlap) ∧
    phaseAfter (step (hostTurn (sAdd.enterFaulted .overlap) .reset)) = some .idle := by decide
theorem test_host_lm : dataAfter (step (hostTurn sIdle (.readLm 0))) = some 7 ∧
    ((after (step (hostTurn sIdle (.writeLm 3 0x1FFFFFFFF)))).map fun t => t.limbAt 3) = some (some 0xFFFFFFFF) := by
  decide
theorem test_first_word : statusAfter (step (State.reset.withFetchWord 32 0)) = some 2 ∧
    ((after (step (State.reset.withFetchWord 32 0x50))).map fun t => t.res0) = some 1 := by decide

/-! ### Witnesses: the hypotheses of each statement hold together somewhere -/

/-! Encoding and the machine. -/

theorem wit_DecodeOfEncode : Instr.wf .w64 (.expwinct .c1 .regular 6) = true ∧ Instr.wf .w32 (.expbufsize 0) = true := by
  decide
theorem wit_EncodeOfDecode : decode .w32 0x3154 = .ok (.expwin .c1 .montgomery 3) := by decide
theorem wit_OneRowSelectsAWord : (∃ r ∈ opcodeTable, r.selects 0x4355 = true) ∧
    (∀ r ∈ opcodeTable, r.selects 0x14 = false) := by decide
theorem wit_HostWriteToCmdIssues :
    (hostTurn State.reset (.writeReg 0 0x2E)).phase = .idle ∧
    (hostTurn State.reset (.writeReg 0 0x2E)).schedule = .host (.writeReg 0 0x2E) :: [] := by decide
/-- One pending command that completes and one whose contract is broken. -/
theorem wit_EngineRunsTheDecodedCommand :
    (let s := { sAdd with phase := .pending 1 sAdd.args }
     s.phase = .pending 1 sAdd.args ∧ decode s.cfg.width 1 = .ok .add ∧ s.schedule = [] ∧
       (after (exec .add s)).isSome) ∧
    (let s := { st .w32 [] [] with phase := .pending 1 (st .w32 [] []).args, schedule := [.engine] }
     decode s.cfg.width 1 = .ok .add ∧ s.schedule = .engine :: [] ∧
       why (exec .add { s with schedule := [] }) = some .zeroLength) := by decide
theorem wit_FetchedWordRunsNext : decode State.reset.cfg.width 0x50 = .ok .winsize ∧
    (after (exec .winsize (State.reset.issue 0x50))).isSome ∧
    why (exec .add (State.reset.issue 0x01)) = some .zeroLength := by decide
theorem wit_IllegalWordCompletesWithError :
    let s := { sAdd with phase := .pending 0x14 sAdd.args }
    let s' := { s with schedule := [.engine] }
    s.phase = .pending 0x14 sAdd.args ∧ EngineTurn s s ∧ s'.phase = .pending 0x14 sAdd.args ∧
      EngineTurn s' { s' with schedule := [] } ∧ decode s.cfg.width 0x14 = .illegal .unassignedOpcode :=
  ⟨rfl, .inl ⟨by decide, rfl⟩, rfl, .inr ⟨[], rfl, rfl⟩, by decide⟩
theorem wit_FaultedEngineHasNoStep :
    (sAdd.enterFaulted .overlap).phase = .faulted .overlap ∧ (sAdd.enterFaulted .overlap).schedule = [] ∧
    { sAdd.enterFaulted .overlap with schedule := [.engine] }.schedule = .engine :: [] := ⟨rfl, rfl, rfl⟩
/-- Each host access answers a next state in the fault state. -/
theorem wit_OnlyResetLeavesTheFaultState :
    (sAdd.enterFaulted .overlap).phase = .faulted .overlap ∧
    ∀ h ∈ [HostAccess.readReg 1, .writeReg 0 1, .writeReg 0x10 1, .readLm 0, .writeLm 0 1, .writeLm 512 1, .reset],
      (hostTurn (sAdd.enterFaulted .overlap) h).phase = .faulted .overlap ∧
      (after (step (hostTurn (sAdd.enterFaulted .overlap) h))).isSome :=
  ⟨rfl, by simp [hostTurn, State.enterFaulted, step, hostAccess, after]⟩
theorem wit_ResetInEveryPhase : (hostTurn sIdle .reset).schedule = .host .reset :: [] ∧
    (hostTurn sAdd .reset).schedule = .host .reset :: [] := ⟨rfl, rfl⟩
/-- CMD, the first and the last ARG slot, and the slots beside them. -/
theorem wit_HostWritesWhileBusy : sAdd.phase = .pending 0 sAdd.args ∧
    (∀ n ∈ [0x00, 0x10, 0x1F], (hostTurn sAdd (.writeReg (Fin.ofNat 64 n) 1)).phase = .pending 0 sAdd.args ∧
      (n = 0 ∨ (0x10 ≤ n ∧ n ≤ 0x1F))) ∧
    (∀ n ∈ [0x01, 0x0F, 0x20, 0x3F], ¬ (n = 0 ∨ (0x10 ≤ n ∧ n ≤ 0x1F))) ∧
    (hostTurn sAdd (.writeLm 0 1)).schedule = .host (.writeLm 0 1) :: [] := by decide
theorem wit_HostReadsHaveNoSideEffects : 511 < (hostTurn sIdle (.readLm 511)).cfg.lmLimbs ∧
    (hostTurn sIdle (.readLm 511)).schedule = .host (.readLm 511) :: [] ∧
    (hostTurn sAdd (.readReg 63)).schedule = .host (.readReg 63) :: [] := by decide
/-- An idle state with both contexts valid; `test_slots` reads every kind of slot of it, `test_host_lm` a limb. Then the
state after reset, and a pending one whose STATUS is BUSY. -/
theorem wit_HostReadsTheRegisterMap : (hostTurn sIdle (.readReg 0x2D)).phase = .idle ∧
    (hostTurn sIdle (.readReg 0x2D)).schedule = .host (.readReg 0x2D) :: [] ∧ 0x2D = 0x20 + 8 * Slot.c1.bit + 5 ∧
    (sIdle.ctx .c0).valid = true ∧ (sIdle.ctx .c1).valid = true ∧
    0 < (hostTurn sIdle (.readLm 0)).cfg.lmLimbs ∧ (hostTurn sIdle (.readLm 0)).limbAt 0 = some 7 ∧
    State.reset.fresh = true ∧ CtxAtReset State.reset.ctx1 ∧
    (hostTurn sAdd (.readReg 1)).phase = .pending 0 sAdd.args ∧ (hostTurn sAdd (.readReg 1)).status = ⟨true, false, .none⟩ ∧
    (hostTurn sAdd (.readReg 1)).cmd = 0 := by
  unfold CtxAtReset; decide
theorem wit_HostWritesWhileIdle : (hostTurn sIdle (.writeReg 0x1F 1)).phase = .idle ∧
    0x1F = 0x10 + (15 : Fin 16).val ∧ ¬ (0x10 ≤ 0x0F ∧ 0x0F ≤ 0x1F) ∧ ¬ (0x10 ≤ 0x20 ∧ 0x20 ≤ 0x1F) ∧
    511 < sIdle.cfg.lmLimbs := by decide

/-- CtxOk from its parts, the zero limbs above MOD_LEN counted. -/
theorem ctxOk_of (c : Config) (x : Ctx) (k : Nat) (hz : x.modulus.drop x.modLen.toNat = List.replicate k 0)
    (h1 : 1 ≤ x.modBits.toNat ∧ x.modBits.toNat ≤ c.maxModBits ∧ x.modLen.toNat = ceilDiv x.modBits.toNat c.W)
    (h2 : x.modulus.length = c.maxLimbs) (h3 : x.montR.length = c.maxLimbs) (h4 : x.montR2.length = c.maxLimbs)
    (h5 : ctxM c x % 2 = 1 ∧ ctxM c x < 2 ^ x.modBits.toNat ∧ (ctxM c x * x.k0.toNat + 1) % 2 ^ c.W = 0 ∧
      ctxRm c x = ctxR c x % ctxM c x ∧ ctxR2m c x = ctxR c x * ctxR c x % ctxM c x ∧
      1 ≤ x.poolCap.toNat ∧ x.poolUsed = 0) : CtxOk c x :=
  fun _ => ⟨h1.1, h1.2.1, h1.2.2, h2, h3, h4, by rw [hz]; exact fun v => List.eq_of_mem_replicate, h5⟩

theorem ctxP64_ok : CtxOk (small .w64) ctxP64 := by refine ctxOk_of _ _ 1 ?_ ?_ ?_ ?_ ?_ ?_ <;> decide
theorem ctxP32_ok : CtxOk (small .w32) ctxP32 := by refine ctxOk_of _ _ 3 ?_ ?_ ?_ ?_ ?_ ?_ <;> decide
theorem ctxF1_ok : CtxOk (small .w32) ctxF1 := by refine ctxOk_of _ _ 3 ?_ ?_ ?_ ?_ ?_ ?_ <;> decide
theorem ctxM61_ok : CtxOk (small .w32) ctxM61 := by refine ctxOk_of _ _ 2 ?_ ?_ ?_ ?_ ?_ ?_ <;> decide

/-! Invariants: a state with a valid context, data in LM and a command pending meets all of them, and steps. -/

def sInv : State := { sMadd with cmd := 0x28, phase := .pending 0x28 sMadd.args, fresh := false }

theorem sInv_fits : ∀ i : Fin 16, (sInv.args.get i).toNat < 2 ^ sInv.cfg.W ∧ sInv.opnd i < 2 ^ sInv.cfg.W := by decide

theorem wit_StepKeepsLimbMemoryOk : LmOk sInv ∧ sInv.lm ≠ [] ∧ (after (step sInv)).isSome := by
  unfold LmOk; decide
theorem wit_StepKeepsWordsFitting : WordsFit sInv :=
  ⟨fun i => (sInv_fits i).1, fun i => (sInv_fits i).2, by decide, by decide, by decide, by unfold CtxFits; decide,
    by unfold CtxFits; decide⟩
theorem wit_StepKeepsContextConstants : CtxsOk sInv ∧ sInv.ctx0.valid = true ∧
    CtxsOk State.reset ∧ State.reset.fresh = true :=
  ⟨⟨fun _ => ⟨ctxP64_ok, fun h => absurd h (by decide)⟩, fun h => absurd h (by decide)⟩, rfl,
    ⟨fun _ => ⟨fun h => absurd h (by decide), fun h => absurd h (by decide)⟩,
      fun _ => by unfold CtxAtReset; decide⟩, rfl⟩
theorem wit_StepKeepsStatusAndPhaseInStep : ProtocolOk sInv := by
  show sInv.status = _ ∧ _; decide
theorem wit_OnlyEnginitWritesAContext : (after (exec (.madd .c0) sMadd)).isSome ∧
    (after (exec (.enginit .c0) sEnginit)).isSome := by decide
theorem wit_CommandsEndDone : (after (exec .bn2os sBn2osSmall)).isSome ∧ (after (exec .add sAdd)).isSome := by decide

/-! Limb arithmetic and division: the contract on the state of the command's own test. -/

theorem wit_AddWritesSumAndCarry : 1 ≤ sAdd.opnd 3 ∧ RegionsOk sAdd .a1 [⟨0, 3⟩, ⟨3, 3⟩] [⟨6, 3⟩] ∧
    Written sAdd 0 3 ∧ Written sAdd 3 3 ∧ [sAdd.opnd 0, sAdd.opnd 1, sAdd.opnd 2, sAdd.opnd 3] = [6, 0, 3, 3] := by
  unfold RegionsOk Written; decide
theorem wit_SubWritesDifferenceAndBorrow : RegionsOk sSub .a1 [⟨0, 3⟩, ⟨3, 3⟩] [⟨6, 3⟩] ∧
    Written sSub 0 3 ∧ Written sSub 3 3 ∧ [sSub.opnd 0, sSub.opnd 1, sSub.opnd 2, sSub.opnd 3] = [6, 0, 3, 3] := by
  unfold RegionsOk Written; decide
theorem wit_IncAndDecPropagate : OperandsFit sInc ∧ RegionsOk sInc .a1 [⟨0, 2⟩] [⟨2, 2⟩] ∧ Written sInc 0 2 ∧
    [sInc.opnd 0, sInc.opnd 1, sInc.opnd 2] = [2, 0, 2] := by
  unfold OperandsFit RegionsOk Written; decide
theorem wit_MuldWritesProductAndHighLimb : OperandsFit sMuld ∧ RegionsOk sMuld .a1 [⟨0, 2⟩] [⟨2, 2⟩] ∧
    Written sMuld 0 2 ∧ [sMuld.opnd 0, sMuld.opnd 1, sMuld.opnd 2] = [2, 0, 2] := by
  unfold OperandsFit RegionsOk Written; decide
theorem wit_SubmuldWritesDifferenceAndBorrowLimb : OperandsFit sSubmuld ∧ RegionsOk sSubmuld .io [⟨0, 2⟩] [⟨2, 2⟩] ∧
    Written sSubmuld 0 2 ∧ Written sSubmuld 2 2 ∧ [sSubmuld.opnd 0, sSubmuld.opnd 1, sSubmuld.opnd 2] = [2, 0, 2] := by
  unfold OperandsFit RegionsOk Written; decide
theorem wit_MulWritesTheExactProduct : RegionsOk sMul .none [⟨0, 2⟩, ⟨2, 1⟩] [⟨3, 2 + 1⟩] ∧ Written sMul 0 2 ∧
    Written sMul 2 1 ∧ [0, 1, 2, 3, 4].map sMul.opnd = [3, 0, 2, 2, 1] := by
  unfold RegionsOk Written; decide
theorem wit_SqrWritesTheExactSquare : RegionsOk sSqr .none [⟨0, 1⟩] [⟨1, 2 * 1⟩] ∧ Written sSqr 0 1 ∧
    [0, 1, 2].map sSqr.opnd = [1, 0, 1] := by
  unfold RegionsOk Written; decide
theorem wit_BitCountsOfALimb : OperandsFit (st .w32 [] [0]) ∧ (st .w32 [] [0]).opnd 0 = 0 ∧
    OperandsFit (st .w32 [] [0x80000000]) ∧ (st .w32 [] [0x80000000]).opnd 0 ≠ 0 := by
  unfold OperandsFit; decide
theorem wit_LsrShiftsBySomeBits : RegionsOk sLsr .a1 [⟨0, 3⟩] [⟨3, 3⟩] ∧ Written sLsr 0 3 ∧
    [0, 1, 2, 3].map sLsr.opnd = [3, 0, 3, 95] := by
  unfold RegionsOk Written; decide
theorem wit_FixGivesTheLogicalLength : OperandsFit sFix ∧ RegionsOk sFix .none [⟨0, 3⟩] [] ∧ Written sFix 0 3 ∧
    [0, 1].map sFix.opnd = [0, 3] := by
  unfold OperandsFit RegionsOk Written; decide
theorem wit_CompareGivesThreeWayResult : RegionsOk sCmpct .none [⟨10, 2⟩, ⟨20, 1⟩] [] ∧ Written sCmpct 10 2 ∧
    Written sCmpct 20 1 ∧ [0, 1, 2, 3].map sCmpct.opnd = [10, 2, 20, 1] := by
  unfold RegionsOk Written; decide
theorem wit_MaskcopySelectsBitByBit : RegionsOk sMaskcopy .a1 [⟨0, 2⟩, ⟨2, 2⟩] [⟨4, 2⟩] ∧ Written sMaskcopy 0 2 ∧
    Written sMaskcopy 2 2 ∧ [0, 1, 2, 3].map sMaskcopy.opnd = [4, 0, 2, 2] := by
  unfold RegionsOk Written; decide
theorem wit_DivWritesQuotientAndRemainder : OperandsFit sDiv ∧
    RegionsOk sDiv .none [⟨0, 2⟩, ⟨2, 2⟩] [⟨4, 2 + 1 - 2⟩, ⟨5, 2⟩] ∧ Written sDiv 0 2 ∧ Written sDiv 2 2 ∧
    sDiv.limbAt (2 + 2 - 1) ≠ some 0 ∧ [0, 1, 2, 3, 4, 5].map sDiv.opnd = [4, 5, 0, 2, 2, 2] := by
  unfold OperandsFit RegionsOk Written; decide
theorem wit_ModWritesTheRemainder : OperandsFit sMod ∧ RegionsOk sMod .none [⟨0, 1⟩, ⟨1, 2⟩] [⟨3, 2⟩] ∧
    Written sMod 0 1 ∧ Written sMod 1 2 ∧ sMod.limbAt (1 + 2 - 1) ≠ some 0 ∧
    [0, 1, 2, 3, 4].map sMod.opnd = [3, 0, 1, 1, 2] := by
  unfold OperandsFit RegionsOk Written; decide
theorem wit_GcdOfTwoLimbs : OperandsFit (st .w64 [] [12, 18]) ∧ OperandsFit (st .w64 [] [0, 0]) := by
  unfold OperandsFit; decide
/-- One operand with an inverse and one with none. -/
theorem wit_ModinvWritesTheInverse :
    (OperandsFit sModinv ∧ RegionsOk sModinv .none [⟨0, 1⟩, ⟨1, 1⟩] [⟨2, 1⟩] ∧ Written sModinv 0 1 ∧
      Written sModinv 1 1 ∧ 2 ≤ valAt sModinv 1 1 ∧ Nat.gcd (valAt sModinv 0 1 % valAt sModinv 1 1) (valAt sModinv 1 1) = 1 ∧
      [0, 1, 2, 3, 4].map sModinv.opnd = [2, 0, 1, 1, 1]) ∧
    (RegionsOk sModinvNone .none [⟨0, 1⟩, ⟨1, 1⟩] [⟨2, 1⟩] ∧ Written sModinvNone 0 1 ∧ Written sModinvNone 1 1 ∧
      2 ≤ valAt sModinvNone 1 1 ∧
      Nat.gcd (valAt sModinvNone 0 1 % valAt sModinvNone 1 1) (valAt sModinvNone 1 1) ≠ 1) := by
  unfold OperandsFit RegionsOk Written; decide

/-! Montgomery engine. -/

theorem wit_MontfactorGivesTheFactor : (st .w32 [] [0xFFFFFFFF]).opnd 0 % 2 = 1 ∧ (st .w64 [] [1]).opnd 0 % 2 = 1 := by
  decide
/-- The ends of ENGINIT, at the boundaries of their conditions (bit size 0 and MAX_MOD_BITS + 1, pool 0 and 1, the last
limb of LM and the one beyond, a limb not written, the modulus 2^bitSize - 1 and one too wide). -/
theorem wit_EnginitConstructsTheContext :
    ((st .w32 [] [0, 0, 1]).opnd 1 = 0 ∧ (st .w32 [] [0, 129, 1]).opnd 1 = (small .w32).maxModBits + 1) ∧
    ((st .w32 [] [0, 32, 0]).opnd 2 < 1 ∧ OperandsFit (st .w32 [] [0, 32, 0])) ∧
    (let s := st .w32 [] [512, 32, 1]
     OperandsFit s ∧ ¬ (512 + 1 ≤ s.cfg.lmLimbs)) ∧
    (let s := st .w32 [] [511, 32, 1]
     OperandsFit s ∧ 511 + 1 ≤ s.cfg.lmLimbs ∧ ¬ Written s 511 1) ∧
    (let s := st .w32 [(511, [0xFFFFFFFE])] [511, 32, 1]
     OperandsFit s ∧ 511 + 1 ≤ s.cfg.lmLimbs ∧ Written s 511 1 ∧ valAt s 511 1 % 2 = 0) ∧
    (let s := st .w32 [(511, [0x80000001])] [511, 31, 1]
     OperandsFit s ∧ 511 + 1 ≤ s.cfg.lmLimbs ∧ Written s 511 1 ∧ valAt s 511 1 % 2 = 1 ∧
       2 ^ s.opnd 1 ≤ valAt s 511 1) ∧
    (let s := st .w32 [(511, [0xFFFFFFFF])] [511, 32, 1]
     OperandsFit s ∧ 511 + 1 ≤ s.cfg.lmLimbs ∧ Written s 511 1 ∧ valAt s 511 1 % 2 = 1 ∧
       valAt s 511 1 < 2 ^ s.opnd 1) := by
  unfold OperandsFit Written; decide
/-- Selector 3 with one limb left in LM, and selector 0 with two. -/
theorem wit_EngrdCopiesAConstant : (let s := p64 [] [511, 3]
    OperandsFit s ∧ CtxFits s.cfg (s.ctx .c0) ∧ CtxReady s .c0 0x22 ∧ [0, 1].map s.opnd = [511, 3] ∧
      CtxOk s.cfg (s.ctx .c0)) ∧
    (let s := m61 [] [510, 0]
     OperandsFit s ∧ CtxFits s.cfg (s.ctx .c0) ∧ CtxReady s .c0 0x22 ∧ (s.ctx .c0).modLen.toNat = 2 ∧
       [0, 1].map s.opnd = [510, 0] ∧ CtxOk s.cfg (s.ctx .c0)) :=
  ⟨⟨by unfold OperandsFit; decide, by unfold CtxFits; decide, by unfold CtxReady; decide, by decide, ctxP64_ok⟩,
    by unfold OperandsFit; decide, by unfold CtxFits; decide, by unfold CtxReady; decide, by decide, by decide,
    ctxM61_ok⟩
/-- A = B = m - 1, one limb, over P64. -/
theorem wit_ModularAddAndSubtract : CtxOk sMadd.cfg (sMadd.ctx .c0) ∧ CtxReady sMadd .c0 0x28 ∧
    CtxReady sMadd .c0 0x29 ∧ ctxLen (sMadd.ctx .c0) = 1 ∧ RegionsOk sMadd .a1 [⟨0, 1⟩, ⟨0, 1⟩] [⟨1, 1⟩] ∧
    Written sMadd 0 1 ∧ valAt sMadd 0 1 + 1 = ctxM sMadd.cfg (sMadd.ctx .c0) ∧
    [0, 1, 2].map sMadd.opnd = [1, 0, 0] := by
  refine ⟨ctxP64_ok, ?_⟩
  unfold CtxReady RegionsOk Written
  decide
theorem wit_ModularNegateHalveDoubleTriple : CtxOk sMadd.cfg (sMadd.ctx .c0) ∧
    (∀ opc ∈ [0x2A, 0x2B, 0x2C, 0x2D], CtxReady sMadd .c0 opc) ∧ RegionsOk sMadd .a1 [⟨0, 1⟩] [⟨1, 1⟩] ∧
    Written sMadd 0 1 ∧ valAt sMadd 0 1 < ctxM sMadd.cfg (sMadd.ctx .c0) := by
  refine ⟨ctxP64_ok, ?_⟩
  unfold CtxReady RegionsOk Written
  decide
theorem wit_MontgomeryProducts : CtxOk sMadd.cfg (sMadd.ctx .c0) ∧ CtxReady sMadd .c0 0x2E ∧ CtxReady sMadd .c0 0x2F ∧
    RegionsOk sMadd .a1 [⟨0, 1⟩, ⟨0, 1⟩] [⟨1, 1⟩] ∧ RegionsOk sMadd .a1 [⟨0, 1⟩] [⟨1, 1⟩] ∧ Written sMadd 0 1 ∧
    valAt sMadd 0 1 < ctxM sMadd.cfg (sMadd.ctx .c0) := by
  refine ⟨ctxP64_ok, ?_⟩
  unfold CtxReady RegionsOk Written
  decide
theorem wit_MontgomeryEncodeDecodeReduce : CtxOk sMred.cfg (sMred.ctx .c0) ∧
    (∀ opc ∈ [0x30, 0x31, 0x32], CtxReady sMred .c0 opc) ∧ RegionsOk sMred .none [⟨0, 2 * 1⟩] [⟨2, 1⟩] ∧
    RegionsOk sMred .a1 [⟨0, 1⟩] [⟨2, 1⟩] ∧ Written sMred 0 1 ∧ Written sMred 0 (2 * 1) ∧
    valAt sMred 0 1 < ctxM sMred.cfg (sMred.ctx .c0) ∧
    valAt sMred 0 (2 * 1) < ctxM sMred.cfg (sMred.ctx .c0) * ctxR sMred.cfg (sMred.ctx .c0) ∧
    [0, 1].map sMred.opnd = [2, 0] := by
  refine ⟨ctxP64_ok, ?_⟩
  unfold CtxReady RegionsOk Written
  decide

/-! Redundant radix and the scramble table. -/

theorem normalized_of {s : State} {d a n : Nat} {l : List Nat} (h : s.limbsAt 1 a n = some l)
    (hl : ∀ x ∈ l, x < 2 ^ d) : Normalized s d a n := by
  intro m hm; rw [h] at hm; cases hm; exact hl

theorem wit_RadixConvertersKeepTheValue :
    (digitOk sR2red.cfg.width .d27 = true ∧ sR2red.opnd 3 ≤ sR2red.opnd 1 * 27 ∧
      RegionsOk sR2red .none [⟨0, ceilDiv 64 sR2red.cfg.W⟩] [⟨1, 4⟩] ∧ Written sR2red 0 (ceilDiv 64 sR2red.cfg.W) ∧
      valAt sR2red 0 (ceilDiv 64 sR2red.cfg.W) < 2 ^ 64 ∧ [0, 1, 2, 3].map sR2red.opnd = [1, 4, 0, 64]) ∧
    digitOk sRed2r.cfg.width .d27 = true ∧
    RegionsOk sRed2r .none [⟨0, ceilDiv 32 27⟩] [⟨2, ceilDiv 32 sRed2r.cfg.W⟩] ∧
    [0, 1, 2].map sRed2r.opnd = [2, 0, 32] ∧ Written sRed2r 0 (ceilDiv 32 27) ∧
    Normalized sRed2r 27 0 (ceilDiv 32 27) ∧ dvalAt sRed2r 27 0 (ceilDiv 32 27) < 2 ^ 32 :=
  ⟨by unfold RegionsOk Written; decide, by decide, by unfold RegionsOk; decide, by decide, by unfold Written; decide,
    normalized_of (l := [0x7FFFFFB, 0x1F]) (by decide) (by decide), by decide⟩

/-- The contract of one AMM quadruple from the digits of its operands. -/
theorem amm_holds {s : State} {dg : DigitSize} {a b m k0 len : Nat} {la lb lm : List Nat}
    (ha : s.limbsAt 1 a len = some la) (hb : s.limbsAt 1 b len = some lb) (hm : s.limbsAt 1 m len = some lm)
    (hd : ∀ x ∈ la ++ lb ++ lm, x < 2 ^ digitBits dg) (hl : 1 ≤ len ∧ len ≤ maxDigits s.cfg dg)
    (h : let va := radixVal (digitBits dg) la
      let vb := radixVal (digitBits dg) lb
      let vm := radixVal (digitBits dg) lm
      vm % 2 = 1 ∧ k0 % 2 ^ digitBits dg * vm % 2 ^ digitBits dg = 2 ^ digitBits dg - 1 ∧
        4 * vm ≤ 2 ^ (digitBits dg * len) ∧ va < 2 * vm ∧ vb < 2 * vm) :
    (Contract.amm s dg a b m k0 len).Holds := by
  have hn : ∀ {p : Nat} {l : List Nat}, s.limbsAt 1 p len = some l → (∀ x ∈ l, x < 2 ^ digitBits dg) →
      Written s p len ∧ Normalized s (digitBits dg) p len ∧ dvalAt s (digitBits dg) p len = radixVal (digitBits dg) l :=
    fun h1 h2 => ⟨written_iff_limbs.mpr (by rw [h1]; rfl), normalized_of h1 h2, by rw [dvalAt, h1]; rfl⟩
  have h1 := hn ha fun x hx => hd x (by simp [hx])
  have h2 := hn hb fun x hx => hd x (by simp [hx])
  have h3 := hn hm fun x hx => hd x (by simp [hx])
  simp only at h
  simp [Contract.amm, h1, h2, h3, hl, h]
/-- The greatest operands: a = b = 2m - 1 would not fit one digit less, here a = b = m - 6 with 4m ≤ Rd. -/
theorem wit_AlmostMontgomeryProducts :
    digitOk sAmmBig.cfg.width .d27 = true ∧ [0, 1, 2, 3, 4, 5].map sAmmBig.opnd = [4, 0, 0, 2, 0xAAAAAAAB, 2] ∧
    RegionsOk sAmmBig .none [⟨0, 2⟩, ⟨0, 2⟩, ⟨2, 2⟩] [⟨4, 2⟩] ∧
    (Contract.amm sAmmBig .d27 0 0 2 0xAAAAAAAB 2).Holds ∧
    [0, 1, 2, 3, 4].map sAms.opnd = [4, 2, 0, 0xCCCCCCCD, 2] ∧ RegionsOk sAms .none [⟨2, 2⟩, ⟨0, 2⟩] [⟨4, 2⟩] ∧
    (Contract.amm sAms .d27 2 2 0 0xCCCCCCCD 2).Holds :=
  ⟨by decide, by decide, by unfold RegionsOk; decide,
    amm_holds (la := [0x7FFFFF7, 0x1FFFFFF]) (lb := [0x7FFFFF7, 0x1FFFFFF]) (lm := [0x7FFFFFD, 0x1FFFFFF]) (by decide)
      (by decide) (by decide) (by decide) (by decide) (by decide),
    by decide, by unfold RegionsOk; decide,
    amm_holds (la := [0x3C00000, 0]) (lb := [0x3C00000, 0]) (lm := [0x7FFFFFB, 0x1F]) (by decide) (by decide)
      (by decide) (by decide) (by decide) (by decide)⟩
theorem wit_DualAlmostMontgomeryProducts :
    digitOk sAmmdual.cfg.width .d27 = true ∧ sAmmdual.opnd 10 = 2 ∧
    RegionsOk sAmmdual .none [⟨2, 2⟩, ⟨2, 2⟩, ⟨0, 2⟩, ⟨4, 2⟩, ⟨6, 2⟩, ⟨0, 2⟩] [⟨8, 2⟩, ⟨10, 2⟩] ∧
    [0, 1, 2, 3, 4, 5, 6, 7, 8, 9].map sAmmdual.opnd = [8, 2, 2, 0, 0xCCCCCCCD, 10, 4, 6, 0, 0xCCCCCCCD] ∧
    (Contract.amm sAmmdual .d27 2 2 0 0xCCCCCCCD 2).Holds ∧ (Contract.amm sAmmdual .d27 4 6 0 0xCCCCCCCD 2).Holds :=
  ⟨by decide, by decide, by unfold RegionsOk; decide, by decide,
    amm_holds (la := [0x3C00000, 0]) (lb := [0x3C00000, 0]) (lm := [0x7FFFFFB, 0x1F]) (by decide) (by decide)
      (by decide) (by decide) (by decide) (by decide),
    amm_holds (la := [3, 0]) (lb := [4, 0]) (lm := [0x7FFFFFB, 0x1F]) (by decide) (by decide) (by decide) (by decide)
      (by decide) (by decide)⟩
/-- Sizes of `test_scrsize` and `test_expbufsize` (section 2.6, 2.7) with the window 0, 1 and 6, and one that is not
below 2^W. -/
theorem wit_SizeQueries : (small .w32).wf = true ∧ OperandsFit (st .w32 [] [1]) ∧ 1 ≤ (st .w32 [] [1]).opnd 0 ∧
    isTableSize (small .w32) 1 6 64 ∧ isTableSize (small .w64) 1 1 8 ∧ 64 < 2 ^ (small .w32).W ∧ 66 < 2 ^ (small .w32).W ∧
    OperandsFit (st .w32 [] [0xFFFFFFFF]) ∧ isTableSize (small .w32) 0xFFFFFFFF 6 0x3FFFFFFFC0 ∧
    ¬ 0x3FFFFFFFC0 < 2 ^ (small .w32).W := by
  unfold OperandsFit isTableSize; decide
theorem wit_ScrputStoresOneEntry : sScrput.opnd 1 < 2 ^ (2 : Win).toNat ∧
    RegionsOk sScrput .none [⟨0, 2⟩] [⟨100, 4 * 2⟩] ∧ Written sScrput 0 2 ∧
    [0, 1, 2, 3].map sScrput.opnd = [100, 2, 0, 2] := by
  unfold RegionsOk Written; decide
/-- SCRGET with one entry written; SCRGETCT with the whole table written and the last index. -/
theorem wit_ScrgetLoadsOneEntry :
    (RegionsOk sScrget .none [⟨100, 4 * 2⟩] [⟨200, 2⟩] ∧ (sScrget.limbAt (100 + 0 * 4 + 2)).isSome ∧
      (sScrget.limbAt (100 + 1 * 4 + 2)).isSome ∧ [0, 1, 2, 3].map sScrget.opnd = [200, 2, 100, 2]) ∧
    (RegionsOk (sScrgetct 3) .none [⟨100, 4 * 2⟩] [⟨200, 2⟩] ∧ Written (sScrgetct 3) 100 (4 * 2) ∧
      [0, 1, 2, 3].map (sScrgetct 3).opnd = [200, 2, 100, 3]) := by
  unfold RegionsOk Written; decide

/-! Exponentiation, octet strings, leakage. -/

/-- X = m - 1 and E = 2^bitsE - 1, the greatest operands, for the window widths 1 and 6 and the binary methods. -/
theorem wit_ExponentiationsGiveThePower : let s := sExp 0xFFFFFFFA 7 3
    CtxOk s.cfg (s.ctx .c0) ∧ (∀ opc ∈ [0x52, 0x53, 0x54, 0x55], CtxReady s .c0 opc) ∧
    (∀ w ∈ [0, 1, 6], RegionsOk s .a1 [⟨1, 1⟩, ⟨2, ceilDiv 3 s.cfg.W⟩] [⟨3, 1⟩, ⟨40, expBuf s.cfg 1 w⟩]) ∧
    1 ≤ (1 : Win).toNat ∧ (Contract.exponent s (s.ctx .c0) 1 2 3).Holds ∧ [0, 1, 2, 3, 4].map s.opnd = [3, 1, 2, 3, 40] := by
  refine ⟨ctxP32_ok, ?_⟩
  simp only [Contract.exponent, Contract.holds_cons, Contract.holds_nil, and_true]
  unfold CtxReady RegionsOk Written
  decide
theorem wit_DualExponentiationGivesBothPowers : CtxOk sDual.cfg sDual.ctx0 ∧ CtxOk sDual.cfg sDual.ctx1 ∧
    CtxReady sDual .c0 0x56 ∧ CtxReady sDual .c1 0x56 ∧ sDual.ctx0.modLen = sDual.ctx1.modLen ∧
    RegionsOk sDual .none [⟨1, 1⟩, ⟨2, 1⟩, ⟨3, 1⟩, ⟨4, 1⟩] [⟨5, 1⟩, ⟨6, 1⟩, ⟨40, 2 * expBuf sDual.cfg 1 2⟩] ∧
    (Contract.exponent sDual sDual.ctx0 1 2 3).Holds ∧ (Contract.exponent sDual sDual.ctx1 3 4 4).Holds ∧
    [0, 1, 2, 3, 4, 5, 6, 7, 8].map sDual.opnd = [5, 1, 2, 3, 6, 3, 4, 4, 40] := by
  refine ⟨ctxP32_ok, ctxF1_ok, ?_⟩
  simp only [Contract.exponent, Contract.holds_cons, Contract.holds_nil, and_true]
  unfold CtxReady RegionsOk Written
  decide
theorem wit_OctetStringToLimbs : OperandsFit sOs2bn ∧ [0, 1, 2, 3].map sOs2bn.opnd = [20, 2, 40, 5] ∧
    5 ≤ 2 * sOs2bn.cfg.bpl ∧ 20 + 2 ≤ sOs2bn.cfg.lmLimbs ∧ 40 + 5 ≤ sOs2bn.cfg.lmLimbs * sOs2bn.cfg.bpl ∧
    (∀ i, i < 5 → ¬ (20 ≤ (40 + i) / sOs2bn.cfg.bpl ∧ (40 + i) / sOs2bn.cfg.bpl < 20 + 2)) ∧
    OctetsWritten sOs2bn 40 5 := by
  unfold OperandsFit OctetsWritten; decide
/-- A value that fits (5 octets of 8) and one that does not (3 octets of 2). -/
theorem wit_LimbsToOctetString :
    (OperandsFit sBn2os ∧ Written sBn2os 0 2 ∧ [0, 1, 2, 3].map sBn2os.opnd = [80, 8, 0, 2] ∧
      80 + 8 ≤ sBn2os.cfg.lmLimbs * sBn2os.cfg.bpl ∧ minBytes (valAt sBn2os 0 2) = 5 ∧
      ∀ i, i < 8 → ¬ (0 ≤ (80 + i) / sBn2os.cfg.bpl ∧ (80 + i) / sBn2os.cfg.bpl < 0 + 2)) ∧
    (OperandsFit sBn2osSmall ∧ Written sBn2osSmall 0 1 ∧ [0, 1, 2, 3].map sBn2osSmall.opnd = [800, 2, 0, 1] ∧
      minBytes (valAt sBn2osSmall 0 1) = 3 ∧
      ∀ i, i < 2 → ¬ (0 ≤ (800 + i) / sBn2osSmall.cfg.bpl ∧ (800 + i) / sBn2osSmall.cfg.bpl < 0 + 1)) := by
  unfold OperandsFit Written; decide
/-- Two runs of each constant-time command that agree on the public inputs and differ in the secret: the limbs
compared, the mask, the index, the base and the exponent. -/
def leakPairs : List (Instr × Nat × State × State) :=
  [(.cmpct, 4, sCmpct, st .w32 [(10, [2, 0]), (20, [2])] [10, 2, 20, 1]),
   (.maskcopy, 4, sMaskcopy, st .w32 [(0, [1, 2]), (2, [3, 4])] [4, 0, 2, 2, 0]),
   (.scrgetct 2, 3, sScrgetct 0, sScrgetct 3),
   (.expbinct .c0 .regular, 5, sExp 3 5 3, sExp 0 7 3),
   (.expwinct .c0 .regular 2, 5, sExp 3 5 3, sExp 0 7 3),
   (.dualexpwinct .regular 2, 9, sDual, dual [(1, [1, 2, 9, 0xF])] [5, 1, 2, 3, 6, 3, 4, 4, 40])]
theorem wit_ConstantTimeLeakage : ∀ p ∈ leakPairs,
    p.2.2.1.cfg = p.2.2.2.cfg ∧ (∀ i : Fin 16, i.val < p.2.1 → p.2.2.1.latched.get i = p.2.2.2.latched.get i) ∧
    (p.2.2.1.ctx0.modBits = p.2.2.2.ctx0.modBits ∧ p.2.2.1.ctx0.modLen = p.2.2.2.ctx0.modLen) ∧
    (p.2.2.1.ctx1.modBits = p.2.2.2.ctx1.modBits ∧ p.2.2.1.ctx1.modLen = p.2.2.2.ctx1.modLen) ∧
    (p.2.2.1.lm ≠ p.2.2.2.lm ∨ p.2.2.1.opnd 3 ≠ p.2.2.2.opnd 3) ∧
    (after (exec p.1 p.2.2.1)).isSome ∧ (after (exec p.1 p.2.2.2)).isSome := by decide +kernel

end Sys2Proof.Tests
end

section
/-! The effect of one step, said once: what a host access can do, what a completed command leaves in the registers and
in each context, and the two joined into `Effect`, from which every invariant of 10_state.md follows case by case. -/

namespace Sys2Proof.Machine

open Sys2Proof

theorem forall_slot {p : Slot → Prop} : (∀ c, p c) ↔ p .c0 ∧ p .c1 :=
  ⟨fun h => ⟨h .c0, h .c1⟩, fun ⟨h0, h1⟩ c => by cases c <;> assumption⟩

theorem wordOf_lt (c : Config) (v : Nat) : (wordOf c v).toNat < 2 ^ c.W := by
  rw [wordOf_toNat]
  exact Nat.mod_lt _ (by positivity)

theorem two_pow_32_le (c : Config) : 2 ^ 32 ≤ 2 ^ c.W :=
  Nat.pow_le_pow_right (by omega) (by cases h : c.width <;> simp [Config.W, LimbWidth.bits, h])

/-! ### The operand registers -/

theorem args_set_get_same (args : Args) (i : Fin 16) (v : Word) : (args.set i.val v i.isLt).get i = v := by
  simp [Vector.get_eq_getElem]

theorem args_set_get_ne (args : Args) {i j : Fin 16} (v : Word) (h : j ≠ i) :
    (args.set i.val v i.isLt).get j = args.get j := by
  have : i.val ≠ j.val := fun e => h (Fin.ext e.symm)
  simp [Vector.get_eq_getElem, Vector.getElem_set_ne, this]

theorem latched_of_idle {s : State} (h : s.phase = .idle) : s.latched = s.args := by simp [State.latched, h]

/-! ### The phase (10_state.md R42) -/

theorem ne_faulted_of_idle {s : State} (h : s.phase = .idle) (r : Fault) : s.phase ≠ .faulted r := by
  rw [h]
  nofun

theorem ne_faulted_of_pending {s : State} {w : BitVec 32} {args : Args} (h : s.phase = .pending w args) (r : Fault) :
    s.phase ≠ .faulted r := by
  rw [h]
  nofun

/-! ### The register map (10_state.md R31) -/

theorem slotKind_eq_cmd_iff {n : Nat} : slotKind n = .cmd ↔ n = 0 := by
  unfold slotKind
  split_ifs <;> simp [*]

theorem slotKind_eq_arg_iff {n : Nat} {i : Fin 16} : slotKind n = .arg i ↔ n = 0x10 + i.val := by
  unfold slotKind
  split_ifs <;> simp [Fin.ext_iff] <;> omega

theorem slotKind_eq_ctxField {n k : Nat} {c : Slot} (hk : k ≤ 5) (h : n = 0x20 + 8 * c.bit + k) :
    slotKind n = .ctxField c k := by
  subst h
  cases c <;> interval_cases k <;> rfl


/-! ### The values a host read returns -/

theorem statusWord_lt (st : Status) : statusWord st < 2 ^ 32 := by
  obtain ⟨b, d, e⟩ := st
  have he : errNumber e ≤ 5 := by cases e <;> decide
  have hb : b.toNat ≤ 1 := Bool.toNat_le b
  have hd : d.toNat ≤ 1 := Bool.toNat_le d
  simp only [statusWord]
  omega

theorem statusSlot_lt (c : Config) (st : Status) : (BitVec.ofNat 64 (statusWord st)).toNat < 2 ^ c.W := by
  have h := statusWord_lt st
  rw [BitVec.toNat_ofNat, Nat.mod_eq_of_lt (by omega)]
  exact h.trans_le (two_pow_32_le c)

theorem cmdSlot_toNat (w : BitVec 32) : (w.setWidth 64).toNat = w.toNat := by
  rw [BitVec.toNat_setWidth]
  exact Nat.mod_eq_of_lt (w.isLt.trans (by decide))

theorem limbSlot_toNat {s : State} {a v : Nat} (h : s.limbAt a = some v) : (BitVec.ofNat 64 v).toNat = v := by
  rw [BitVec.toNat_ofNat]
  exact Nat.mod_eq_of_lt ((limbAt_lt h).trans_le (Nat.pow_le_pow_right (by omega) (W_le s.cfg)))

theorem ctxField_lt {c : Config} {x : Ctx} (h : CtxFits c x) (k : Nat) : (ctxField x k).toNat < 2 ^ c.W := by
  obtain ⟨hb, hl, hk, hc, hu⟩ := h
  unfold ctxField
  split_ifs
  · cases x.valid
    · exact Nat.two_pow_pos _
    · exact one_lt_two_pow_W c
  all_goals assumption

/-- A host read: it changes what the host got and the number of the next draw, and what it got is a W-bit word where
every register is one (20_memory.md R79, 10_state.md R31). -/
def HostGot (s t : State) : Prop :=
  ∃ v d, t = { s with hostData := v, draws := d } ∧ (WordsFit s → v.toNat < 2 ^ s.cfg.W)

theorem hostGot_gets {s : State} {v : Word} (h : WordsFit s → v.toNat < 2 ^ s.cfg.W) : HostGot s (s.hostGets v) :=
  ⟨v, s.draws, rfl, h⟩

theorem hostGot_draws (s : State) : HostGot s s.hostDraws := ⟨_, _, rfl, fun _ => drawWord_lt _ _ _⟩

theorem WordsFit.ctx {s : State} (h : WordsFit s) (c : Slot) : CtxFits s.cfg (s.ctx c) := by
  obtain ⟨-, -, -, -, -, h0, h1⟩ := h
  cases c
  · exact h0
  · exact h1

theorem hostGot_readCtx (s : State) (c : Slot) (k : Nat) : HostGot s (hostReadCtx s c k) := by
  unfold hostReadCtx
  split
  · exact hostGot_gets fun h => ctxField_lt (h.ctx c) k
  · exact hostGot_draws s

theorem hostGot_cmd (s : State) : HostGot s (s.hostGets (s.cmd.setWidth 64)) :=
  hostGot_gets fun _ => by
    rw [cmdSlot_toNat]
    exact s.cmd.isLt.trans_le (two_pow_32_le s.cfg)

theorem hostGot_status (s : State) : HostGot s (s.hostGets (BitVec.ofNat 64 (statusWord s.status))) :=
  hostGot_gets fun _ => statusSlot_lt _ _

theorem hostGot_arg (s : State) (i : Fin 16) : HostGot s (s.hostGets (s.args.get i)) :=
  hostGot_gets fun ⟨ha, _⟩ => ha i

theorem hostGot_readReg (s : State) (slot : Fin 64) : HostGot s (hostReadReg s slot) := by
  unfold hostReadReg
  split
  next =>
    split
    next => exact hostGot_cmd s
    next => exact hostGot_status s
    next => exact hostGot_gets fun ⟨_, _, h0, _⟩ => h0
    next => exact hostGot_gets fun ⟨_, _, _, h1, _⟩ => h1
    next i _ => exact hostGot_arg s i
    next c k _ => exact hostGot_readCtx s c k
    next => exact hostGot_draws s
  next =>
    split
    next => exact hostGot_cmd s
    next => exact hostGot_status s
    next i _ => exact hostGot_arg s i
    all_goals exact hostGot_draws s
  next => exact hostGot_draws s

/-! ### What one step can do -/

/-- Every way a step takes `s`, its schedule already advanced, to the next state. -/
inductive Effect (s : State) : State → Prop
  | same : Effect s s
  | got {t : State} : HostGot s t → Effect s t
  | issued (w : BitVec 32) : s.phase = .idle → Effect s (s.issue w)
  | arg (i : Fin 16) (v : Nat) : s.phase = .idle →
      Effect s { s with args := s.args.set i.val (wordOf s.cfg v) i.isLt }
  | limb (a v : Nat) : s.phase = .idle → a < s.cfg.lmLimbs → Effect s (s.setLimb a v)
  | reset : Effect s s.applyReset
  | faulted (r : Fault) : Effect s (s.enterFaulted r)
  | illegal (w : BitVec 32) (args : Args) (l : Leak) : s.phase = .pending w args →
      Effect s (s.completeErr .illegal l)
  | command {t : State} (w : BitVec 32) (args : Args) (i : Instr) : s.phase = .pending w args →
      Completion i s t → Effect s t

theorem effect_writeReg (s : State) (slot : Fin 64) (v : Word) : Effect s (hostWriteReg s slot v) := by
  unfold hostWriteReg
  split
  next hp =>
    split
    next => exact .issued _ hp
    next i _ => exact .arg i v.toNat hp
    all_goals exact .same
  next =>
    split
    next => exact .faulted _
    next => exact .faulted _
    all_goals exact .same
  next => exact .same

theorem effect_readLm (s : State) (a : Nat) : Effect s (hostReadLm s a) := by
  unfold hostReadLm
  split
  next =>
    split
    next =>
      split
      next v hv =>
        exact .got (hostGot_gets fun _ => by
          rw [limbSlot_toNat hv]
          exact limbAt_lt hv)
      next => exact .got (hostGot_draws s)
    next => exact .faulted _
  next =>
    split
    next => exact .got (hostGot_draws s)
    next => exact .faulted _
  next => exact .got (hostGot_draws s)

theorem effect_writeLm (s : State) (a : Nat) (v : Word) : Effect s (hostWriteLm s a v) := by
  unfold hostWriteLm
  split
  next hp =>
    split
    next ha => exact .limb a v.toNat hp ha
    next => exact .faulted _
  next => exact .faulted _
  next => exact .same

theorem effect_hostAccess (s : State) (a : HostAccess) : Effect s (hostAccess s a) := by
  cases a with
  | readReg slot => exact .got (hostGot_readReg s slot)
  | writeReg slot v => exact effect_writeReg s slot v
  | readLm a => exact effect_readLm s a
  | writeLm a v => exact effect_writeLm s a v
  | reset => exact .reset

/-- A step takes an item off the schedule, or finds none, and has one of the effects. -/
theorem step_effect {s t : State} (h : step s = .next t) : ∃ rest, Effect { s with schedule := rest } t := by
  obtain ⟨u, hu, ht⟩ := step_cases h
  obtain ⟨rest, rfl⟩ : ∃ rest, u = { s with schedule := rest } := by
    rcases hu with rfl | hu
    · exact ⟨u.schedule, rfl⟩
    · exact hu
  refine ⟨rest, ?_⟩
  obtain ⟨a, rfl⟩ | rfl | ⟨w, args, hp, rfl⟩ | ⟨w, args, i, r, -, -, rfl⟩ | ⟨w, args, i, hp, he⟩ := ht
  · exact effect_hostAccess _ a
  · exact .same
  · exact .illegal w args _ hp
  · exact .faulted r
  · exact .command w args i hp ((exec_completion i _).1 t he)

/-! ### What a completed command leaves -/

/-- A command ends by `State.finish` over a state with the same registers, and a checked error has no results
(60_exceptions.md R380). -/
theorem Completion.finish_eq {i : Instr} {s t : State} (h : Completion i s t) :
    ∃ u e r0 r1 l, t = u.finish e r0 r1 l ∧ KeepsRegisters s u ∧ (e ≠ .none → r0 = 0 ∧ r1 = 0) := by
  cases h with
  | @stores u r0 r1 l hu =>
    exact ⟨u, .none, r0, r1, l, rfl, by rw [hu.only_lm]; exact ⟨rfl, rfl, rfl, rfl, rfl⟩, fun h => absurd rfl h⟩
  | built c m l => exact ⟨_, .none, _, _, l, rfl, by simp [KeepsRegisters], fun h => absurd rfl h⟩
  | failed c e l => exact ⟨_, e, 0, 0, l, rfl, by simp [KeepsRegisters], fun _ => ⟨rfl, rfl⟩⟩
  | tooSmall l => exact ⟨s, .tooSmall, 0, 0, l, rfl, ⟨rfl, rfl, rfl, rfl, rfl⟩, fun _ => ⟨rfl, rfl⟩⟩

theorem Completion.keepsRegisters {i : Instr} {s t : State} (h : Completion i s t) : KeepsRegisters s t := by
  obtain ⟨u, e, r0, r1, l, rfl, hu, -⟩ := h.finish_eq
  exact hu

/-- The context a completed command leaves in slot `c`: the one it found, or what ENGINIT of that slot puts there
(10_state.md R38, 42_montgomery.md R232). -/
inductive CtxLeft (i : Instr) (s : State) (c : Slot) : Ctx → Prop
  | kept : CtxLeft i s c (s.ctx c)
  | built (m : Nat) : i = .enginit c → 1 ≤ s.opnd 1 → s.opnd 1 ≤ s.cfg.maxModBits → 1 ≤ s.opnd 2 → m % 2 = 1 →
      m < 2 ^ s.opnd 1 → m < 2 ^ (s.cfg.W * ceilDiv (s.opnd 1) s.cfg.W) →
      CtxLeft i s c (newCtx s c m (ceilDiv (s.opnd 1) s.cfg.W) (s.opnd 1) (s.opnd 2))
  | failed : i = .enginit c → CtxLeft i s c (freeCtx s.cfg false (slotIndex c) s.draws)

theorem ctxLeft_setCtx {i : Instr} {s : State} {c' : Slot} {x : Ctx} (h : CtxLeft i s c' x) (c : Slot) :
    CtxLeft i s c ((s.setCtx c' x).ctx c) := by
  by_cases hc : c = c'
  · subst hc
    rwa [setCtx_ctx_same]
  · rw [setCtx_ctx_other _ _ hc]
    exact .kept

theorem Completion.ctxLeft {i : Instr} {s t : State} (h : Completion i s t) (c : Slot) : CtxLeft i s c (t.ctx c) := by
  cases h with
  | @stores u r0 r1 l hu =>
    have hc : u.ctx c = s.ctx c := by rw [hu.only_lm]; cases c <;> rfl
    rw [ctx_finish, hc]
    exact .kept
  | built c' m l hi h1 h2 h3 h4 h5 h6 =>
    rw [ctx_finish]
    exact ctxLeft_setCtx (.built m hi h1 h2 h3 h4 h5 h6) c
  | failed c' e l hi =>
    rw [ctx_finish]
    exact ctxLeft_setCtx (.failed hi) c
  | tooSmall l =>
    rw [ctx_finish]
    exact .kept

theorem CtxLeft.eq_of_ne {i : Instr} {s : State} {c : Slot} {x : Ctx} (h : CtxLeft i s c x) (hi : i ≠ .enginit c) :
    x = s.ctx c := by
  cases h with
  | kept => rfl
  | built m he => exact absurd he hi
  | failed he => exact absurd he hi

/-! ### The contexts ENGINIT leaves meet the invariants -/

theorem freeCtx_fits (c : Config) (v : Bool) (k d : Nat) : CtxFits c (freeCtx c v k d) :=
  ⟨drawWord_lt _ _ _, drawWord_lt _ _ _, drawWord_lt _ _ _, drawWord_lt _ _ _, drawWord_lt _ _ _⟩

theorem newCtx_fits (s : State) (c : Slot) (m n b p : Nat) : CtxFits s.cfg (newCtx s c m n b p) :=
  ⟨wordOf_lt _ _, wordOf_lt _ _, wordOf_lt _ _, wordOf_lt _ _, Nat.two_pow_pos _⟩

theorem ctxFits_reset (c : Config) : CtxFits c (Ctx.reset c) :=
  ⟨Nat.two_pow_pos _, Nat.two_pow_pos _, Nat.two_pow_pos _, Nat.two_pow_pos _, Nat.two_pow_pos _⟩

theorem CtxLeft.fits {i : Instr} {s : State} {c : Slot} {x : Ctx} (h : CtxLeft i s c x)
    (hs : CtxFits s.cfg (s.ctx c)) : CtxFits s.cfg x := by
  cases h with
  | kept => exact hs
  | built m => exact newCtx_fits _ _ _ _ _ _
  | failed => exact freeCtx_fits _ _ _ _

theorem ctxLimbs_length (c : Config) (v : Nat) : (ctxLimbs c v).length = c.maxLimbs := by simp [ctxLimbs]

/-- Above the limbs a value needs, a context array is 0 (10_state.md R36). -/
theorem ctxLimbs_drop {c : Config} {n v : Nat} (h : v < 2 ^ (c.W * n)) : ∀ x ∈ (ctxLimbs c v).drop n, x = 0 := by
  intro x hx
  rw [ctxLimbs, ← List.map_drop] at hx
  obtain ⟨y, hy, rfl⟩ := List.mem_map.mp hx
  rw [radixDigits_drop _ _ _ _ h y hy]
  rfl

/-- What ENGINIT builds from an odd modulus below 2^bitSize is a context as 10_state.md R36 says, its operands being
W-bit words. -/
theorem newCtx_ok {s : State} (c : Slot) {m b p : Nat} (hb1 : 1 ≤ b) (hbM : b ≤ s.cfg.maxModBits) (hbW : b < 2 ^ s.cfg.W)
    (hp1 : 1 ≤ p) (hpW : p < 2 ^ s.cfg.W) (hodd : m % 2 = 1) (hmb : m < 2 ^ b)
    (hmn : m < 2 ^ (s.cfg.W * ceilDiv b s.cfg.W)) : CtxOk s.cfg (newCtx s c m (ceilDiv b s.cfg.W) b p) := by
  intro _
  set n := ceilDiv b s.cfg.W with hn
  set x := newCtx s c m n b p with hx
  have hm : 0 < m := by omega
  have hbits : x.modBits.toNat = b := wordOf_toNat_of_lt hbW
  have hlen : x.modLen.toNat = n := wordOf_toNat_of_lt ((ceilDiv_le_self (W_pos s.cfg)).trans_lt hbW)
  have hpool : x.poolCap.toNat = p := wordOf_toNat_of_lt hpW
  have hk0 : x.k0.toNat = negInv m (2 ^ s.cfg.W) := wordOf_toNat_of_lt (negInv_lt m (Nat.two_pow_pos _))
  have hval : ∀ v, v < 2 ^ (s.cfg.W * n) → ctxVal s.cfg x (ctxLimbs s.cfg v) = v := fun v hv =>
    ctxVal_ctxLimbs s.cfg x v (hlen.trans_le (ceilDiv_le_maxLimbs hbM)) (by rwa [ctxLen, hlen])
  have hmod : ∀ v, ctxVal s.cfg x (ctxLimbs s.cfg (v % m)) = v % m := fun v => hval _ ((Nat.mod_lt v hm).trans hmn)
  have hM : ctxM s.cfg x = m := hval m hmn
  have hR : ctxR s.cfg x = 2 ^ (s.cfg.W * n) := by rw [ctxR, ctxLen, hlen]
  have hRm : ctxRm s.cfg x = 2 ^ (s.cfg.W * n) % m := hmod _
  have hR2m : ctxR2m s.cfg x = 2 ^ (s.cfg.W * n) % m * (2 ^ (s.cfg.W * n) % m) % m := hmod _
  rw [hbits, hlen, hpool, hk0, hM, hR, hRm, hR2m]
  refine ⟨hb1, hbM, hn, ctxLimbs_length _ _, ctxLimbs_length _ _, ctxLimbs_length _ _, ctxLimbs_drop hmn, hodd, hmb, ?_,
    rfl, (Nat.mul_mod _ _ _).symm, hp1, rfl⟩
  exact negInv_spec (one_lt_two_pow_W s.cfg) (gcd_two_pow_of_odd hodd)

theorem CtxLeft.ok {i : Instr} {s : State} {c : Slot} {x : Ctx} (h : CtxLeft i s c x) (hf : OperandsFit s)
    (hs : CtxOk s.cfg (s.ctx c)) : CtxOk s.cfg x := by
  cases h with
  | kept => exact hs
  | built m hi h1 h2 h3 h4 h5 h6 => exact newCtx_ok c h1 h2 (hf 1) h3 (hf 2) h4 h5 h6
  | failed => exact fun hv => absurd hv Bool.false_ne_true

end Sys2Proof.Machine
end

section
/-! The invariants of 10_state.md: each holds of the reset state of every block, and every effect of a step keeps it. -/

namespace Sys2Proof.Machine

open Sys2Proof

/-! ### Every register is a W-bit word -/

/-- Outside Pending the operands are the ARG registers, so a state's words fit when its registers do. -/
theorem wordsFit_of_registers {s : State} (hl : s.latched = s.args) (ha : ∀ i, (s.args.get i).toNat < 2 ^ s.cfg.W)
    (h0 : s.res0.toNat < 2 ^ s.cfg.W) (h1 : s.res1.toNat < 2 ^ s.cfg.W) (hd : s.hostData.toNat < 2 ^ s.cfg.W)
    (hc : ∀ c, CtxFits s.cfg (s.ctx c)) : WordsFit s :=
  ⟨ha, fun i => by rw [State.opnd, hl]; exact ha i, h0, h1, hd, hc .c0, hc .c1⟩

theorem wordsFit_enterFaulted {s : State} (h : WordsFit s) (r : Fault) : WordsFit (s.enterFaulted r) := by
  obtain ⟨-, -, -, -, hd, -, -⟩ := h
  refine wordsFit_of_registers rfl (fun i => ?_) (drawWord_lt _ _ _) (drawWord_lt _ _ _) hd
    (forall_slot.mpr ⟨freeCtx_fits _ _ _ _, freeCtx_fits _ _ _ _⟩)
  have : (s.enterFaulted r).args.get i = drawWord s.cfg s.draws (3 + i.val) := by
    simp [State.enterFaulted, Vector.get_eq_getElem]
  rw [this]
  exact drawWord_lt _ _ _

theorem args_reset (c : Config) (i : Fin 16) : (State.resetOf c).args.get i = 0 := by
  simp [State.resetOf, Vector.get_eq_getElem]

theorem wordsFit_resetOf (c : Config) : WordsFit (State.resetOf c) :=
  wordsFit_of_registers rfl (fun i => by rw [args_reset]; exact Nat.two_pow_pos _) (Nat.two_pow_pos _)
    (Nat.two_pow_pos _) (Nat.two_pow_pos _) (forall_slot.mpr ⟨ctxFits_reset c, ctxFits_reset c⟩)

theorem wordsFit_applyReset {s : State} (h : WordsFit s) : WordsFit s.applyReset := by
  obtain ⟨-, -, -, -, hd, -, -⟩ := h
  obtain ⟨ha, ho, h0, h1, -, hc⟩ := wordsFit_resetOf s.cfg
  exact ⟨ha, ho, h0, h1, hd, hc⟩

theorem wordsFit_finish {u : State} {e : ErrCode} {r0 r1 : Nat} {l : Leak}
    (ha : ∀ i, (u.args.get i).toNat < 2 ^ u.cfg.W) (hd : u.hostData.toNat < 2 ^ u.cfg.W)
    (hc : ∀ c, CtxFits u.cfg (u.ctx c)) : WordsFit (u.finish e r0 r1 l) :=
  wordsFit_of_registers rfl ha (wordOf_lt _ _) (wordOf_lt _ _) hd fun c => by rw [ctx_finish]; exact hc c

theorem Completion.wordsFit {i : Instr} {s t : State} (h : Completion i s t) (hs : WordsFit s) : WordsFit t := by
  have hctx : ∀ c, CtxFits s.cfg (t.ctx c) := fun c => (h.ctxLeft c).fits (hs.ctx c)
  obtain ⟨ha, -, -, -, hd, -, -⟩ := hs
  obtain ⟨u, e, r0, r1, l, rfl, ⟨hcfg, -, hargs, hdata, -⟩, -⟩ := h.finish_eq
  simp only [ctx_finish] at hctx
  exact wordsFit_finish (by rwa [hargs, hcfg]) (by rwa [hdata, hcfg]) (by rwa [hcfg])

theorem Effect.wordsFit {s t : State} (h : Effect s t) (hs : WordsFit s) : WordsFit t := by
  have hctx := hs.ctx
  have ⟨ha, ho, h0, h1, hd, hc⟩ := hs
  cases h with
  | same => exact hs
  | got hg =>
    obtain ⟨v, d, rfl, hv⟩ := hg
    exact ⟨ha, ho, h0, h1, hv hs, hc⟩
  | issued w => exact ⟨ha, ha, h0, h1, hd, hc⟩
  | arg i v hp =>
    refine wordsFit_of_registers (latched_of_idle hp) (fun j => ?_) h0 h1 hd hctx
    by_cases hj : j = i
    · subst hj
      rw [args_set_get_same]
      exact wordOf_lt _ _
    · rw [args_set_get_ne _ _ hj]
      exact ha j
  | limb a v => exact ⟨ha, ho, h0, h1, hd, hc⟩
  | reset => exact wordsFit_applyReset hs
  | faulted r => exact wordsFit_enterFaulted hs r
  | illegal w args l => exact wordsFit_finish ha hd hctx
  | command w args i hp hx => exact hx.wordsFit hs

/-! ### The contexts are as the spec says -/

theorem ctxsOk_iff {s : State} : CtxsOk s ↔
    ((∀ r, s.phase ≠ .faulted r) → ∀ c, CtxOk s.cfg (s.ctx c)) ∧ (s.fresh = true → ∀ c, CtxAtReset (s.ctx c)) := by
  simp only [forall_slot]
  rfl

/-- After the first engine step since reset the contexts need only be as 10_state.md R36 says. -/
theorem ctxsOk_of_not_fresh {s : State} (hf : s.fresh = false) (h : ∀ c, CtxOk s.cfg (s.ctx c)) : CtxsOk s :=
  ctxsOk_iff.mpr ⟨fun _ => h, fun hf' => by simp [hf] at hf'⟩

theorem ctxsOk_enterFaulted (s : State) (r : Fault) : CtxsOk (s.enterFaulted r) :=
  ⟨fun h => absurd rfl (h r), fun hf => absurd hf Bool.false_ne_true⟩

theorem ctxAtReset_reset (c : Config) : CtxAtReset (Ctx.reset c) := ⟨rfl, rfl, rfl, rfl, rfl, rfl⟩

theorem ctxOk_reset (c : Config) : CtxOk c (Ctx.reset c) := fun hv => absurd hv Bool.false_ne_true

theorem ctxsOk_resetOf (c : Config) : CtxsOk (State.resetOf c) :=
  ⟨fun _ => ⟨ctxOk_reset c, ctxOk_reset c⟩, fun _ => ⟨ctxAtReset_reset c, ctxAtReset_reset c⟩⟩

theorem CtxsOk.ctxOk {s : State} (h : CtxsOk s) (hp : ∀ r, s.phase ≠ .faulted r) (c : Slot) : CtxOk s.cfg (s.ctx c) :=
  (ctxsOk_iff.mp h).1 hp c

theorem Completion.ctxsOk {i : Instr} {s t : State} (h : Completion i s t) (hf : OperandsFit s)
    (hs : ∀ c, CtxOk s.cfg (s.ctx c)) : CtxsOk t := by
  have hctx : ∀ c, CtxOk s.cfg (t.ctx c) := fun c => (h.ctxLeft c).ok hf (hs c)
  obtain ⟨hcfg, -⟩ := h.keepsRegisters
  obtain ⟨u, e, r0, r1, l, rfl, -, -⟩ := h.finish_eq
  exact ctxsOk_of_not_fresh rfl (by rwa [hcfg])

theorem Effect.ctxsOk {s t : State} (h : Effect s t) (hf : OperandsFit s) (hs : CtxsOk s) : CtxsOk t := by
  cases h with
  | same => exact hs
  | got hg =>
    obtain ⟨v, d, rfl, -⟩ := hg
    exact hs
  | issued w hp => exact ⟨fun _ => hs.1 (ne_faulted_of_idle hp), hs.2⟩
  | arg i v => exact hs
  | limb a v => exact hs
  | reset => exact ctxsOk_resetOf s.cfg
  | faulted r => exact ctxsOk_enterFaulted s r
  | illegal w args l hp =>
    refine ctxsOk_of_not_fresh rfl fun c => ?_
    rw [ctx_completeErr]
    exact hs.ctxOk (ne_faulted_of_pending hp) c
  | command w args i hp hx => exact hx.ctxsOk hf (hs.ctxOk (ne_faulted_of_pending hp))

/-! ### STATUS and the phase agree -/

/-- The phase decides what the protocol asks of a state. -/
theorem protocolOk_iff_of_idle {s : State} (hp : s.phase = .idle) :
    ProtocolOk s ↔ s.status.busy = false ∧ (s.status.err ≠ .none → s.res0.toNat = 0 ∧ s.res1.toNat = 0) := by
  simp [ProtocolOk, hp]

theorem protocolOk_finish {u : State} {e : ErrCode} {r0 r1 : Nat} {l : Leak} (h : e ≠ .none → r0 = 0 ∧ r1 = 0) :
    ProtocolOk (u.finish e r0 r1 l) := by
  refine (protocolOk_iff_of_idle rfl).mpr ⟨rfl, fun he => ?_⟩
  obtain ⟨rfl, rfl⟩ := h he
  simp [wordOf_toNat]

theorem protocolOk_resetOf (c : Config) : ProtocolOk (State.resetOf c) :=
  (protocolOk_iff_of_idle rfl).mpr ⟨rfl, fun h => absurd rfl h⟩

theorem Effect.protocolOk {s t : State} (h : Effect s t) (hs : ProtocolOk s) : ProtocolOk t := by
  cases h with
  | same => exact hs
  | got hg =>
    obtain ⟨v, d, rfl, -⟩ := hg
    exact hs
  | issued w => exact ⟨rfl, rfl, rfl⟩
  | arg i v hp =>
    rw [protocolOk_iff_of_idle hp] at hs
    exact (protocolOk_iff_of_idle (by exact hp)).mpr hs
  | limb a v => exact hs
  | reset => exact protocolOk_resetOf s.cfg
  | faulted r => exact trivial
  | illegal w args l => exact protocolOk_finish fun _ => ⟨rfl, rfl⟩
  | command w args i hp hx =>
    obtain ⟨u, e, r0, r1, l, rfl, -, he⟩ := hx.finish_eq
    exact protocolOk_finish he

theorem lmOk_resetOf (c : Config) : LmOk (State.resetOf c) := ⟨List.Pairwise.nil, fun _ hp => by cases hp⟩

/-! ### The statements -/

/-- Settles O19: every effect of a step puts W-bit words into the registers and the contexts. -/
theorem stepKeepsWordsFitting : Obligations.StepKeepsWordsFitting := by
  intro s t hs h
  obtain ⟨rest, he⟩ := step_effect h
  exact he.wordsFit hs

/-- Settles O20: only ENGINIT puts another context in place, and the one it builds holds its constants. -/
theorem stepKeepsContextConstants : Obligations.StepKeepsContextConstants := by
  intro s t ⟨_, hf, _⟩ hs h
  obtain ⟨rest, he⟩ := step_effect h
  exact he.ctxsOk hf hs

/-- Settles O21: an issue sets BUSY with the phase, and every completion clears both. -/
theorem stepKeepsStatusAndPhaseInStep : Obligations.StepKeepsStatusAndPhaseInStep := by
  intro s t hs h
  obtain ⟨rest, he⟩ := step_effect h
  exact he.protocolOk hs

/-- Settles O22: a completed command leaves a context as it found it unless it is ENGINIT of that slot. -/
theorem onlyEnginitWritesAContext : Obligations.OnlyEnginitWritesAContext := fun i s t h c hi =>
  (((exec_completion i s).1 t h).ctxLeft c).eq_of_ne hi

/-- Settles O24, from the ways a command can end. -/
theorem commandsKeepOperandRegisters : Obligations.CommandsKeepOperandRegisters := fun i s =>
  ⟨fun t h => ((exec_completion i s).1 t h).keepsRegisters, (exec_completion i s).2⟩

/-- Settles O5: both reset states are `State.resetOf` of some parameters. -/
theorem resetLeavesTheSpecsValues : Obligations.ResetLeavesTheSpecsValues := by
  intro s hs
  obtain ⟨c, rfl⟩ : ∃ c, s = State.resetOf c := by
    rcases hs with rfl | hs
    · exact ⟨_, rfl⟩
    · exact hs
  exact ⟨rfl, rfl, rfl, rfl, args_reset c, forall_slot.mpr ⟨ctxAtReset_reset c, ctxAtReset_reset c⟩, rfl, rfl⟩

/-- Settles O6: each invariant at reset. -/
theorem resetMeetsTheInvariants : Obligations.ResetMeetsTheInvariants :=
  ⟨by decide, fun c => ⟨lmOk_resetOf c, wordsFit_resetOf c, ctxsOk_resetOf c, protocolOk_resetOf c⟩⟩

end Sys2Proof.Machine
end

section
/-! The host's accesses as 10_state.md gives them: the register map read and written, and a command issued and run. -/

namespace Sys2Proof.Machine

open Sys2Proof

/-! ### One host access, or the engine's turn, from the schedule -/

theorem step_host {s : State} {a : HostAccess} {rest : List Event} (h : s.schedule = .host a :: rest) :
    step s = .next (hostAccess { s with schedule := rest } a) := by
  simp [step, h]

theorem engineStep_of_decode {s : State} {w : BitVec 32} {args : Args} {i : Instr} (hp : s.phase = .pending w args)
    (hd : decode s.cfg.width w = .ok i) : engineStep s = settle s (exec i s) := by
  simp [engineStep, hp, hd]

theorem hostWriteReg_idle_cmd {s : State} {slot : Fin 64} (v : Word) (hp : s.phase = .idle)
    (hk : slotKind slot.val = .cmd) : hostWriteReg s slot v = s.issue (v.setWidth 32) := by
  simp [hostWriteReg, hp, hk]

theorem hostWriteReg_idle_arg {s : State} {slot : Fin 64} {i : Fin 16} (v : Word) (hp : s.phase = .idle)
    (hk : slotKind slot.val = .arg i) :
    hostWriteReg s slot v = { s with args := s.args.set i.val (wordOf s.cfg v.toNat) i.isLt } := by
  simp [hostWriteReg, hp, hk]

/-- A write to a slot that is neither CMD nor an ARG register is ignored, in every phase (10_state.md R47,
60_exceptions.md R395). -/
theorem hostWriteReg_ignored (s : State) {slot : Fin 64} (v : Word) (hc : slotKind slot.val ≠ .cmd)
    (ha : ∀ i, slotKind slot.val ≠ .arg i) : hostWriteReg s slot v = s := by
  unfold hostWriteReg
  generalize slotKind slot.val = k at hc ha ⊢
  cases k with
  | cmd => exact absurd rfl hc
  | arg i => exact absurd rfl (ha i)
  | _ => split <;> rfl

theorem hostWriteLm_idle {s : State} {a : Nat} (v : Word) (hp : s.phase = .idle) (ha : a < s.cfg.lmLimbs) :
    hostWriteLm s a v = s.setLimb a v.toNat := by
  simp [hostWriteLm, hp, ha]

theorem hostReadLm_idle_written {s : State} {a v : Nat} (hp : s.phase = .idle) (ha : a < s.cfg.lmLimbs)
    (hv : s.limbAt a = some v) : hostReadLm s a = s.hostGets (BitVec.ofNat 64 v) := by
  simp [hostReadLm, hp, ha, hv]

/-! ### What a host read of a register slot gets -/

/-- The slots whose reads are defined while BUSY = 1 as while idle, and what they hold (60_exceptions.md R395). -/
def sharedSlot (s : State) : SlotKind → Option Word
  | .cmd => some (s.cmd.setWidth 64)
  | .status => some (BitVec.ofNat 64 (statusWord s.status))
  | .arg i => some (s.args.get i)
  | .res0 | .res1 | .ctxField _ _ | .reserved => none

section
variable {s : State} {slot : Fin 64}

theorem hostReadReg_shared {v : Word} (hp : ∀ r, s.phase ≠ .faulted r)
    (h : sharedSlot s (slotKind slot.val) = some v) : hostReadReg s slot = s.hostGets v := by
  unfold hostReadReg
  generalize slotKind slot.val = k at h ⊢
  split
  next => cases k <;> cases h <;> rfl
  next => cases k <;> cases h <;> rfl
  next r hr => exact absurd hr (hp r)

theorem hostReadReg_idle_res0 (hp : s.phase = .idle) (hk : slotKind slot.val = .res0) :
    hostReadReg s slot = s.hostGets s.res0 := by
  simp [hostReadReg, hp, hk]

theorem hostReadReg_idle_res1 (hp : s.phase = .idle) (hk : slotKind slot.val = .res1) :
    hostReadReg s slot = s.hostGets s.res1 := by
  simp [hostReadReg, hp, hk]

/-- A field of a context whose value is defined: VALID, any field of a valid context, any field before the first command
after reset (10_state.md R37). -/
theorem hostReadReg_idle_ctxField (hp : s.phase = .idle) {c : Slot} {k : Nat}
    (hk : slotKind slot.val = .ctxField c k) (hdef : k = 0 ∨ (s.ctx c).valid = true ∨ s.fresh = true) :
    hostReadReg s slot = s.hostGets (ctxField (s.ctx c) k) := by
  simp only [hostReadReg, hp, hk, hostReadCtx]
  exact if_pos hdef

end

/-- STATUS as the host reads it: BUSY in bit 0, DONE in bit 1, 0 in bits 3:2, ERR from bit 4 up (10_state.md R33). -/
theorem statusWord_fields (st : Status) :
    let v := BitVec.ofNat 64 (statusWord st)
    v.getLsbD 0 = st.busy ∧ v.getLsbD 1 = st.done ∧ v.toNat / 2 ^ 4 = errNumber st.err ∧ v.toNat / 2 ^ 2 % 2 ^ 2 = 0 := by
  obtain ⟨b, d, e⟩ := st
  cases e <;> revert b d <;> decide

/-- At their reset values VALID and every scalar field read 0 (10_state.md R37, R49). -/
theorem ctxField_of_reset {x : Ctx} (h : CtxAtReset x) (k : Nat) : ctxField x k = 0 := by
  obtain ⟨hv, hb, hl, hk, hc, hu⟩ := h
  simp [ctxField, hv, hb, hl, hk, hc, hu]

/-! ### The statements -/

/-- The part of the register map a host read answers outside the fault state: CMD, STATUS and the ARG registers. -/
theorem hostReadReg_shared_map {s : State} (hp : ∀ r, s.phase ≠ .faulted r) (slot : Fin 64) :
    (slot.val = 0x00 → (hostReadReg s slot).hostData.toNat = s.cmd.toNat) ∧
    (slot.val = 0x01 → (hostReadReg s slot).hostData = BitVec.ofNat 64 (statusWord s.status)) ∧
    (∀ i : Fin 16, slot.val = 0x10 + i.val → (hostReadReg s slot).hostData = s.args.get i) := by
  refine ⟨fun h => ?_, fun h => ?_, fun i h => ?_⟩
  · rw [hostReadReg_shared hp (by rw [slotKind_eq_cmd_iff.mpr h]; rfl)]
    exact cmdSlot_toNat s.cmd
  · rw [hostReadReg_shared hp (by rw [h]; rfl)]
    rfl
  · rw [hostReadReg_shared hp (by rw [slotKind_eq_arg_iff.mpr h]; rfl)]
    rfl

/-- A context's slots while idle: VALID always, its other scalar fields when it is valid, and 0 from all six before the
first command after reset (10_state.md R37). -/
theorem hostReadReg_context {s : State} (hp : s.phase = .idle) (slot : Fin 64) (c : Slot) :
    let base := 0x20 + 8 * c.bit
    let x := s.ctx c
    let got := (hostReadReg s slot).hostData
    (slot.val = base → got.toNat = x.valid.toNat) ∧
    (x.valid = true → ∀ k, k ≤ 5 → slot.val = base + k → got = ctxField x k) ∧
    (s.fresh = true → CtxAtReset x → base ≤ slot.val → slot.val ≤ base + 5 → got = 0) := by
  refine ⟨fun h => ?_, fun hv k hk h => ?_, fun hf hr h1 h2 => ?_⟩
  · rw [hostReadReg_idle_ctxField hp (slotKind_eq_ctxField (k := 0) (by omega) h) (.inl rfl)]
    cases hv : (s.ctx c).valid <;> simp [ctxField, hv]
  · rw [hostReadReg_idle_ctxField hp (slotKind_eq_ctxField hk h) (.inr (.inl hv))]
    rfl
  · obtain ⟨k, hk⟩ := Nat.exists_eq_add_of_le h1
    rw [hostReadReg_idle_ctxField hp (slotKind_eq_ctxField (by omega) hk) (.inr (.inr hf))]
    exact ctxField_of_reset hr k

/-- Settles O16, slot by slot. -/
theorem hostReadsTheRegisterMap : Obligations.HostReadsTheRegisterMap := by
  intro s rest
  refine ⟨fun slot hs => ⟨fun hp => ?_, fun w args hp => ?_⟩, fun a v ha hv hp hs => ?_⟩
  · have hp' : ({ s with schedule := rest } : State).phase = .idle := hp
    obtain ⟨hcmd, hst, harg⟩ := hostReadReg_shared_map (ne_faulted_of_idle hp') slot
    refine ⟨_, step_host hs, ⟨hcmd, fun h => ?_, harg⟩, fun h => ?_, fun h => ?_, fun c => ?_⟩
    · dsimp only [hostAccess]
      rw [hst h]
      exact statusWord_fields s.status
    · dsimp only [hostAccess]
      rw [hostReadReg_idle_res0 hp' (by rw [h]; rfl)]
      rfl
    · dsimp only [hostAccess]
      rw [hostReadReg_idle_res1 hp' (by rw [h]; rfl)]
      rfl
    · obtain ⟨hvalid, hfield, hreset⟩ := hostReadReg_context hp' slot c
      exact ⟨hvalid, fun hv => ⟨hfield hv 1 (by omega), hfield hv 2 (by omega), hfield hv 3 (by omega),
        hfield hv 4 (by omega), hfield hv 5 (by omega)⟩, hreset⟩
  · have hp' : ({ s with schedule := rest } : State).phase = .pending w args := hp
    obtain ⟨hcmd, hst, harg⟩ := hostReadReg_shared_map (ne_faulted_of_pending hp') slot
    refine ⟨_, step_host hs, ⟨hcmd, fun h => ?_, harg⟩, fun hok h => ?_⟩
    · dsimp only [hostAccess]
      rw [hst h]
      exact statusWord_fields s.status
    · have hbusy : s.status = ⟨true, false, .none⟩ := by
        rw [ProtocolOk, hp] at hok
        exact hok.1
      refine (hst h).trans ?_
      rw [hbusy]
      rfl
  · have hread := hostReadLm_idle_written (s := { s with schedule := rest }) hp ha hv
    refine ⟨_, step_host hs, ?_⟩
    rw [hostAccess, hread]
    exact limbSlot_toNat hv

/-- Settles O17, by what the register map says of the slot and by read after write for a limb. -/
theorem hostWritesWhileIdle : Obligations.HostWritesWhileIdle := by
  intro s rest hp
  refine ⟨fun i slot v hi hs => ?_, fun slot v h0 harg hs => ?_, fun a v ha hs => ?_⟩
  · refine ⟨s.args.set i.val (wordOf s.cfg v.toNat) i.isLt, ?_, ?_, fun j hj => args_set_get_ne _ _ hj⟩
    · have hw := hostWriteReg_idle_arg (s := { s with schedule := rest }) v hp (slotKind_eq_arg_iff.mpr hi)
      rw [step_host hs, hostAccess, hw]
    · rw [args_set_get_same, wordOf_toNat]
  · rw [step_host hs, hostAccess, hostWriteReg_ignored]
    · exact fun hk => h0 (slotKind_eq_cmd_iff.mp hk)
    · intro i hk
      have := slotKind_eq_arg_iff.mp hk
      omega
  · refine ⟨(s.setLimb a v.toNat).lm, ?_, fun b hb => ?_, ?_⟩
    · have hw := hostWriteLm_idle (s := { s with schedule := rest }) v hp ha
      rw [step_host hs, hostAccess, hw]
      rfl
    · exact byteAt_setLimb_outside s _ (hb ⟨a, 1⟩ (by simp))
    · exact (limbAt_congr (s := s.setLimb a v.toNat) rfl rfl a).trans (limbAt_setLimb_same s a _)

/-- Settles O7: slot 0 is CMD. -/
theorem hostWriteToCmdIssues : Obligations.HostWriteToCmdIssues := by
  intro s v rest hp hs
  have hw := hostWriteReg_idle_cmd (s := { s with schedule := rest }) (slot := 0) v hp (slotKind_eq_cmd_iff.mpr rfl)
  rw [step_host hs, hostAccess, hw]
  rfl

/-- Settles O9: the next item is the engine's turn, and it begins in the state the issue of the word leaves. -/
theorem fetchedWordRunsNext : Obligations.FetchedWordRunsNext := by
  intro s w i hd
  have hw : BitVec.ofNat 32 (w.toNat % 2 ^ 32) = w := by
    rw [Nat.mod_eq_of_lt w.isLt, BitVec.ofNat_toNat, BitVec.setWidth_eq]
  have hstep : step (s.withFetchWord 32 w.toNat) = settle (s.issue w) (exec i (s.issue w)) := by
    rw [State.withFetchWord, hw]
    exact engineStep_of_decode (issue_phase s w) hd
  refine ⟨rfl, rfl, fun t ht => ?_, fun r hr => ?_⟩
  · rw [hstep, ht]
    rfl
  · rw [hstep, hr]
    rfl

end Sys2Proof.Machine
end

section
/-! Limb memory as 20_memory.md gives it: the invariant of LM, host reads, regions that share no limb, and what the
leakage of a constant-time command is a function of. -/

namespace Sys2Proof.Machine

open Sys2Proof

/-! ### LM stays in canonical form and inside LM_LIMBS limbs (R70, R75) -/

theorem stored_setLimb (s : State) {a : Nat} (v : Nat) (ha : a < s.cfg.lmLimbs) : Stored s (s.setLimb a v) :=
  .limbs 1 a [v] (fun j hj => by rw [List.length_singleton] at hj; omega) .refl

theorem lmOk_congr {s t : State} (hl : t.lm = s.lm) (hc : t.cfg = s.cfg) (hs : LmOk s) : LmOk t := by
  rwa [LmOk, hl, hc]

theorem lmOk_of_lm_nil {s : State} (h : s.lm = []) : LmOk s := by simp [LmOk, h]

theorem Stored.lmOk {s u : State} (h : Stored s u) (hs : LmOk s) : LmOk u := by
  obtain ⟨hw, hb⟩ := hs
  have hc : u.cfg = s.cfg := by rw [h.only_lm]
  exact ⟨h.wf hw, by rw [hc]; exact h.bounded hb⟩

theorem Completion.lmOk {i : Instr} {s t : State} (h : Completion i s t) (hs : LmOk s) : LmOk t := by
  cases h with
  | stores r0 r1 l hu => exact hu.lmOk hs
  | built c m l => exact lmOk_congr (by simp) (by simp) hs
  | failed c e l => exact lmOk_congr (by simp) (by simp) hs
  | tooSmall l => exact hs

theorem Effect.lmOk {s t : State} (h : Effect s t) (hs : LmOk s) : LmOk t := by
  cases h with
  | same => exact hs
  | got hg =>
    obtain ⟨v, d, rfl, -⟩ := hg
    exact hs
  | issued w => exact hs
  | arg i v => exact hs
  | limb a v _ ha => exact (stored_setLimb s v ha).lmOk hs
  | reset => exact lmOk_of_lm_nil rfl
  | faulted r => exact lmOk_of_lm_nil rfl
  | illegal w args l => exact hs
  | command w args i _ hx => exact hx.lmOk hs

/-- Settles O18: stores lie inside LM, a reset and a fault empty it, and nothing else touches it. -/
theorem stepKeepsLimbMemoryOk : Obligations.StepKeepsLimbMemoryOk := by
  intro s t hs h
  obtain ⟨rest, he⟩ := step_effect h
  exact he.lmOk hs

/-! ### Host reads (R79) -/

/-- A read of a limb inside LM is a host read in every phase (60_exceptions.md R395). -/
theorem hostGot_readLm {s : State} {a : Nat} (ha : a < s.cfg.lmLimbs) : HostGot s (hostReadLm s a) := by
  unfold hostReadLm
  simp only [if_pos ha]
  split
  next =>
    split
    next v hv =>
      exact hostGot_gets fun _ => by
        rw [limbSlot_toNat hv]
        exact limbAt_lt hv
    next => exact hostGot_draws s
  next => exact hostGot_draws s
  next => exact hostGot_draws s

/-- A scheduled access that is a host read changes the value the host got and the number of the next draw. -/
theorem step_of_hostGot {s : State} {a : HostAccess} {rest : List Event} (h : s.schedule = .host a :: rest)
    (hg : HostGot { s with schedule := rest } (hostAccess { s with schedule := rest } a)) :
    ∃ v d, step s = .next { s with schedule := rest, hostData := v, draws := d } := by
  obtain ⟨v, d, ht, -⟩ := hg
  exact ⟨v, d, by rw [step_host h, ht]⟩

/-- Settles O15: both kinds of read are `HostGot`. -/
theorem hostReadsHaveNoSideEffects : Obligations.HostReadsHaveNoSideEffects := fun _ _ =>
  ⟨fun slot hs => step_of_hostGot hs (hostGot_readReg _ slot),
    fun _ ha hs => step_of_hostGot hs (hostGot_readLm ha)⟩

/-! ### Which regions may share limbs (R77) -/

/-- Two regions share no limb: one is empty, or one ends before the other begins. -/
theorem disjoint_iff_no_shared_limb (r q : Region) : r.disjoint q = true ↔
    ¬ ∃ l, r.base ≤ l ∧ l < r.base + r.count ∧ q.base ≤ l ∧ l < q.base + q.count := by
  simp only [Region.disjoint, Bool.or_eq_true, decide_eq_true_eq]
  constructor
  · rintro h ⟨l, hl⟩
    omega
  · intro h
    by_contra hn
    exact h ⟨max r.base q.base, by omega⟩

@[simp] theorem disjointAll_iff {r : Region} {l : List Region} :
    r.disjointAll l = true ↔ ∀ q ∈ l, r.disjoint q = true := List.all_eq_true

@[simp] theorem pairwiseDisjoint_iff {l : List Region} :
    pairwiseDisjoint l = true ↔ l.Pairwise (fun r q => r.disjoint q = true) := by
  induction l with
  | nil => simp [pairwiseDisjoint]
  | cons r l ih => rw [pairwiseDisjoint, Bool.and_eq_true, disjointAll_iff, ih, List.pairwise_cons]

@[simp] theorem outputsDisjoint_iff {ins outs : List Region} :
    outputsDisjoint ins outs = true ↔ ∀ o ∈ outs, ∀ i ∈ ins, o.disjoint i = true := by
  simp [outputsDisjoint]

theorem aliasOk_none_iff {ins outs : List Region} : aliasOk .none ins outs = true ↔
    outs.Pairwise (fun r q => r.disjoint q = true) ∧ ∀ o ∈ outs, ∀ i ∈ ins, o.disjoint i = true := by
  rw [aliasOk, Bool.and_eq_true, pairwiseDisjoint_iff, outputsDisjoint_iff]

theorem aliasOk_a1_iff {i o : Region} {is os : List Region} : aliasOk .a1 (i :: is) (o :: os) = true ↔
    (o :: os).Pairwise (fun r q => r.disjoint q = true) ∧ (o = i ∨ o.disjoint i = true) ∧
    (∀ j ∈ is, o.disjoint j = true) ∧ ∀ p ∈ os, ∀ j ∈ i :: is, p.disjoint j = true := by
  simp only [aliasOk, Bool.and_eq_true, Bool.or_eq_true, decide_eq_true_eq, pairwiseDisjoint_iff, disjointAll_iff,
    outputsDisjoint_iff, and_assoc]

/-- In class IO the checks are those of class NONE, `ins` being the other inputs. -/
theorem aliasOk_io_eq_none (ins outs : List Region) : aliasOk .io ins outs = aliasOk .none ins outs := rfl

/-- Settles O25, class by class. -/
theorem aliasClassesAsTheSpecSays : Obligations.AliasClassesAsTheSpecSays :=
  ⟨disjoint_iff_no_shared_limb, fun _ _ => aliasOk_none_iff, fun _ _ _ _ => aliasOk_a1_iff, fun r ins => by
    rw [aliasOk_io_eq_none, aliasOk_none_iff]
    simp⟩

/-! ### The leakage of the constant-time commands (R82) -/

/-- The two runs have the same values in ARG0 .. ARG(k-1). -/
def SameArgs (s s' : State) (k : Nat) : Prop := ∀ i : Fin 16, i.val < k → s.latched.get i = s'.latched.get i

/-- The two runs have the same MOD_BITS and MOD_LEN in slot `c`. -/
def SameSize (s s' : State) (c : Slot) : Prop :=
  (s.ctx c).modBits = (s'.ctx c).modBits ∧ (s.ctx c).modLen = (s'.ctx c).modLen

/-- When the outcome is a next state, its leakage is `l`. -/
abbrev Leaks (o : Out) (l : Leak) : Prop := Ends o fun t => t.leak = l

section
variable {s s' : State}

theorem Leaks.alike {o o' : Out} {l l' : Leak} {t t' : State} (h : Leaks o l) (h' : Leaks o' l') (hl : l = l')
    (ho : o = .next t) (ho' : o' = .next t') : t.leak = t'.leak := by
  rw [h.1 t ho, h'.1 t' ho', hl]

/-! #### The leakage of each command, whatever it reads -/

theorem leaks_cmpct (s : State) :
    Leaks (exec .cmpct s) (cmpctLeak s.cfg (s.opnd 0) (s.opnd 1) (s.opnd 2) (s.opnd 3)) :=
  Ends.regions fun _ => Ends.guard fun _ => Ends.val fun _ _ => Ends.val fun _ _ => Ends.next rfl

theorem leaks_maskcopy (s : State) :
    Leaks (exec .maskcopy s) (maskcopyLeak s.cfg (s.opnd 0) (s.opnd 1) (s.opnd 2) (s.opnd 3)) :=
  Ends.regions fun _ => Ends.guard fun _ => Ends.limbs fun _ _ => Ends.limbs fun _ _ => Ends.next rfl

theorem leaks_scrgetct (s : State) (w : Win) :
    Leaks (exec (.scrgetct w) s) (scrgetctLeak s.cfg (s.opnd 1) w.toNat (s.opnd 2) (s.opnd 0)) :=
  Ends.regions fun _ => Ends.guard fun _ => Ends.guard fun _ => Ends.limbs fun _ _ => Ends.next rfl

/-- A single exponentiation leaks what its completion does. -/
theorem leaks_expSingle {c : Slot} {opc w : Nat} {y : Ctx → Nat → Nat → Nat → Nat} {fin : State → State} {l : Leak}
    (hf : ∀ t, (fin t).leak = l) : Leaks (expSingle s c opc w y fin) l := by
  unfold expSingle
  exact Ends.context (Ends.regions fun _ => Ends.expOperands fun _ _ => Ends.next (hf _))

theorem leaks_expbinct (s : State) (c : Slot) (dom : Domain) :
    Leaks (exec (.expbinct c dom) s) (expLeak s (.expbinct c dom) c) := by
  unfold exec execExpbinct
  exact leaks_expSingle fun _ => rfl

theorem leaks_expwinct (s : State) (c : Slot) (dom : Domain) (w : Win) :
    Leaks (exec (.expwinct c dom w) s) (expLeak s (.expwinct c dom w) c) := by
  unfold exec execExpwinct
  exact leaks_expSingle fun _ => rfl

theorem leaks_dualexpwinct (s : State) (dom : Domain) (w : Win) :
    Leaks (exec (.dualexpwinct dom w) s) (dualLeak s (.dualexpwinct dom w)) := by
  unfold exec execDualexpwinct
  exact Ends.context (Ends.context (Ends.guard fun _ => Ends.regions fun _ => Ends.expOperands fun _ _ =>
    Ends.expOperands fun _ _ => Ends.next rfl))

/-! #### That leakage is a function of the public inputs -/

theorem SameArgs.opnd {k : Nat} (h : SameArgs s s' k) (i : Fin 16) (hi : i.val < k := by decide) :
    s.opnd i = s'.opnd i := by
  rw [State.opnd, State.opnd, h i hi]

theorem publicArgs_congr {k : Nat} (h : SameArgs s s' k) : publicArgs s k = publicArgs s' k := by
  refine List.ext_getElem (by simp [publicArgs]) fun j hj _ => ?_
  obtain ⟨hjk, hj16⟩ : j < k ∧ j < 16 := by simpa [publicArgs] using hj
  simpa [publicArgs, Vector.get_eq_getElem] using h ⟨j, hj16⟩ hjk

theorem expLeak_congr {i : Instr} {c : Slot} (hc : s.cfg = s'.cfg) (ha : SameArgs s s' 5) (hx : SameSize s s' c) :
    expLeak s i c = expLeak s' i c := by
  rw [expLeak, expLeak, hc, publicArgs_congr ha, hx.1, hx.2]

theorem dualLeak_congr {i : Instr} (hc : s.cfg = s'.cfg) (ha : SameArgs s s' 9) (h0 : SameSize s s' .c0)
    (h1 : SameSize s s' .c1) : dualLeak s i = dualLeak s' i := by
  obtain ⟨hb0, hl0⟩ : s.ctx0.modBits = s'.ctx0.modBits ∧ s.ctx0.modLen = s'.ctx0.modLen := h0
  obtain ⟨hb1, hl1⟩ : s.ctx1.modBits = s'.ctx1.modBits ∧ s.ctx1.modLen = s'.ctx1.modLen := h1
  rw [dualLeak, dualLeak, hc, publicArgs_congr ha, hb0, hl0, hb1, hl1]

end

/-- Settles O60: each command's leakage, and the public inputs it is a function of. -/
theorem constantTimeLeakage : Obligations.ConstantTimeLeakage := by
  intro s s' t t' c dom w hc
  refine ⟨fun (ha : SameArgs s s' 4) => (leaks_cmpct s).alike (leaks_cmpct s') ?_,
    fun (ha : SameArgs s s' 4) => (leaks_maskcopy s).alike (leaks_maskcopy s') ?_,
    fun (ha : SameArgs s s' 3) => (leaks_scrgetct s w).alike (leaks_scrgetct s' w) ?_,
    fun ha hx => (leaks_expbinct s c dom).alike (leaks_expbinct s' c dom) (expLeak_congr hc ha hx),
    fun ha hx => (leaks_expwinct s c dom w).alike (leaks_expwinct s' c dom w) (expLeak_congr hc ha hx),
    fun ha h0 h1 => (leaks_dualexpwinct s dom w).alike (leaks_dualexpwinct s' dom w) (dualLeak_congr hc ha h0 h1)⟩
  · rw [hc, ha.opnd 0, ha.opnd 1, ha.opnd 2, ha.opnd 3]
  · rw [hc, ha.opnd 0, ha.opnd 1, ha.opnd 2, ha.opnd 3]
  · rw [hc, ha.opnd 0, ha.opnd 1, ha.opnd 2]

end Sys2Proof.Machine
end

section
/-! The command word as 30_encoding.md gives it: a word decodes to a command exactly when it is the word of that command
and the command is legal. Both directions of the round trip, the rows of the opcode table and the words of the spec are
read off that; then the engine's turn on a word that decodes and on one that does not. -/

namespace Sys2Proof.Machine

open Sys2Proof

/-! ### The fields of a word (R101, R102) -/

@[simp] theorem slot_ofBit_bit (c : Slot) : Slot.ofBit c.bit = c := by cases c <;> rfl
@[simp] theorem domain_ofBit_bit (d : Domain) : Domain.ofBit d.bit = d := by cases d <;> rfl
@[simp] theorem digitSize_ofBit_bit (d : DigitSize) : DigitSize.ofBit d.bit = d := by cases d <;> rfl

theorem slot_bit_ofBit {b : Nat} (h : b ≤ 1) : (Slot.ofBit b).bit = b := by interval_cases b <;> rfl
theorem domain_bit_ofBit {b : Nat} (h : b ≤ 1) : (Domain.ofBit b).bit = b := by interval_cases b <;> rfl
theorem digitSize_bit_ofBit {b : Nat} (h : b ≤ 1) : (DigitSize.ofBit b).bit = b := by interval_cases b <;> rfl

@[simp] theorem slot_bit_le (c : Slot) : c.bit ≤ 1 := by cases c <;> decide
@[simp] theorem domain_bit_le (d : Domain) : d.bit ≤ 1 := by cases d <;> decide
@[simp] theorem digitSize_bit_le (d : DigitSize) : d.bit ≤ 1 := by cases d <;> decide
@[simp] theorem win_toNat_le (w : Win) : w.toNat ≤ 7 := Nat.le_of_lt_succ w.isLt

/-- A field of one bit is 0 or 1. -/
theorem bitField_one_le (w : BitVec 32) (lo : Nat) : bitField w lo 1 ≤ 1 :=
  Nat.le_of_lt_succ (Nat.mod_lt _ (Nat.two_pow_pos 1))

theorem fieldsOf_win_le (w : BitVec 32) : (fieldsOf w).win ≤ 7 :=
  Nat.le_of_lt_succ (Nat.mod_lt _ (Nat.two_pow_pos 3))

/-- The fields of a packed word are those it was packed from, and its reserved bits are 0. -/
theorem fieldsOf_packWord {opc c d s win : Nat} (ho : opc ≤ 255) (hc : c ≤ 1) (hd : d ≤ 1) (hs : s ≤ 1) (hw : win ≤ 7) :
    fieldsOf (packWord opc c d s win) = ⟨opc, c, d, s, win, 0, 0, 0⟩ := by
  simp only [fieldsOf, bitField, packWord, BitVec.toNat_ofNat, Fields.mk.injEq]
  omega

/-- A word whose reserved bits are 0 is packed from its fields. -/
theorem packWord_fieldsOf {w : BitVec 32} (h11 : (fieldsOf w).reserved11 = 0) (h15 : (fieldsOf w).reserved15 = 0)
    (h16 : (fieldsOf w).reserved31to16 = 0) :
    packWord (fieldsOf w).opc (fieldsOf w).c (fieldsOf w).d (fieldsOf w).s (fieldsOf w).win = w := by
  apply BitVec.eq_of_toNat_eq
  have := w.isLt
  simp only [fieldsOf, bitField, packWord, BitVec.toNat_ofNat] at *
  omega

theorem decode_packWord (lw : LimbWidth) {opc c d s win : Nat} (ho : opc ≤ 255) (hc : c ≤ 1) (hd : d ≤ 1) (hs : s ≤ 1)
    (hw : win ≤ 7) : decode lw (packWord opc c d s win) = decodeFields lw ⟨opc, c, d, s, win, 0, 0, 0⟩ := by
  simp [decode, fieldsOf_packWord ho hc hd hs hw]

/-! ### What each row of the field table answers (R103) -/

theorem winOk_eq_true_iff {lo : Nat} {w : Win} : winOk lo w = true ↔ lo ≤ w.toNat ∧ w.toNat ≤ 6 := by simp [winOk]

section
variable {lw : LimbWidth} {f : Fields} {i : Instr}

@[simp] theorem plainCmd_eq_ok_iff {j : Instr} :
    plainCmd f j = .ok i ↔ (f.c = 0 ∧ f.d = 0 ∧ f.s = 0 ∧ f.win = 0) ∧ j = i := by
  unfold plainCmd; split <;> simp_all

@[simp] theorem ctxCmd_eq_ok_iff {k : Slot → Instr} :
    ctxCmd f k = .ok i ↔ (f.d = 0 ∧ f.s = 0 ∧ f.win = 0) ∧ k (Slot.ofBit f.c) = i := by
  unfold ctxCmd; split <;> simp_all

@[simp] theorem digitCmd_eq_ok_iff {k : DigitSize → Instr} : digitCmd lw f k = .ok i ↔
    ((f.c = 0 ∧ f.d = 0 ∧ f.win = 0) ∧ digitOk lw (DigitSize.ofBit f.s) = true) ∧ k (DigitSize.ofBit f.s) = i := by
  unfold digitCmd; split <;> [split; skip] <;> simp_all

@[simp] theorem winCmd_eq_ok_iff {lo : Nat} {k : Win → Instr} : winCmd lo f k = .ok i ↔
    ((f.c = 0 ∧ f.d = 0 ∧ f.s = 0) ∧ lo ≤ f.win ∧ f.win ≤ 6) ∧ k (BitVec.ofNat 3 f.win) = i := by
  unfold winCmd; split <;> [split; skip] <;> simp_all

@[simp] theorem expBinCmd_eq_ok_iff {k : Slot → Domain → Instr} : expBinCmd f k = .ok i ↔
    (f.s = 0 ∧ f.win = 0) ∧ k (Slot.ofBit f.c) (Domain.ofBit f.d) = i := by
  unfold expBinCmd; split <;> simp_all

@[simp] theorem expWinCmd_eq_ok_iff {k : Slot → Domain → Win → Instr} : expWinCmd f k = .ok i ↔
    (f.s = 0 ∧ 1 ≤ f.win ∧ f.win ≤ 6) ∧ k (Slot.ofBit f.c) (Domain.ofBit f.d) (BitVec.ofNat 3 f.win) = i := by
  unfold expWinCmd; split <;> [split; skip] <;> simp_all

@[simp] theorem dualCmd_eq_ok_iff {k : Domain → Win → Instr} : dualCmd f k = .ok i ↔
    ((f.c = 0 ∧ f.s = 0) ∧ 1 ≤ f.win ∧ f.win ≤ 6) ∧ k (Domain.ofBit f.d) (BitVec.ofNat 3 f.win) = i := by
  unfold dualCmd; split <;> [split; skip] <;> simp_all

/-- A command the opcode map answers is legal, and its word has the fields the map read (R105). -/
theorem encode_of_decodeFields (hc : f.c ≤ 1) (hd : f.d ≤ 1) (hs : f.s ≤ 1) (hw : f.win ≤ 7)
    (h : decodeFields lw f = .ok i) : encode i = packWord f.opc f.c f.d f.s f.win ∧ i.wf lw = true := by
  unfold decodeFields at h
  split at h
  all_goals
    simp only [plainCmd_eq_ok_iff, ctxCmd_eq_ok_iff, digitCmd_eq_ok_iff, winCmd_eq_ok_iff, expBinCmd_eq_ok_iff,
      expWinCmd_eq_ok_iff, dualCmd_eq_ok_iff, reduceCtorEq] at h
  all_goals
    rename_i hopc
    obtain ⟨hf, rfl⟩ := h
    simp [encode, Instr.wf, winOk_eq_true_iff, slot_bit_ofBit hc, domain_bit_ofBit hd, digitSize_bit_ofBit hs,
      Nat.mod_eq_of_lt (Nat.lt_succ_of_le hw), hopc, hf]

end

/-! ### The round trip (R109) -/

/-- The word of a legal command decodes to it: the cases are the rows of the field table (R103). -/
theorem decode_encode {lw : LimbWidth} {i : Instr} (h : i.wf lw = true) : decode lw (encode i) = .ok i := by
  cases i with
  | nop | add | sub | inc | dec | muld | submuld | mul | sqr | nlz | ntz | lsr | cmp | cmpct | fix | maskcopy | div | mod
  | gcd | modinv | montfactor | winsize | os2bn | bn2os => simp [encode, decode_packWord, decodeFields]
  | enginit c | engrd c | madd c | msub c | mneg c | mdiv2 c | mmul2 c | mmul3 c | mmul c | msqr c | menc c | mdec c
  | mred c => simp [encode, decode_packWord, decodeFields]
  | r2red d | red2r d | amm d | ams d | ammdual d =>
    have hd : digitOk lw d = true := h
    simp [encode, decode_packWord, decodeFields, hd]
  | scrsize w | scrput w | scrget w | scrgetct w =>
    simp [encode, decode_packWord, decodeFields, winOk_eq_true_iff.mp h]
  | expbufsize w =>
    simp [encode, decode_packWord, decodeFields, winOk_eq_true_iff.mp h]
  | expbin c dom | expbinct c dom => simp [encode, decode_packWord, decodeFields]
  | expwin c dom w | expwinct c dom w =>
    simp [encode, decode_packWord, decodeFields, winOk_eq_true_iff.mp h]
  | dualexpwinct dom w =>
    simp [encode, decode_packWord, decodeFields, winOk_eq_true_iff.mp h]

/-- A word decodes to a command exactly when it is the word of that command and the command is legal. -/
theorem decode_eq_ok_iff {lw : LimbWidth} {w : BitVec 32} {i : Instr} :
    decode lw w = .ok i ↔ encode i = w ∧ i.wf lw = true := by
  constructor
  · intro h
    simp only [decode] at h
    split at h
    next hres =>
      obtain ⟨h11, h15, h16⟩ := hres
      rw [← packWord_fieldsOf h11 h15 h16]
      exact encode_of_decodeFields (bitField_one_le w 8) (bitField_one_le w 9) (bitField_one_le w 10)
        (fieldsOf_win_le w) h
    next => cases h
  · rintro ⟨rfl, hwf⟩
    exact decode_encode hwf

/-- Settles O2, by the group of the command in the field table. -/
theorem decodeOfEncode : Obligations.DecodeOfEncode := fun _ _ h => decode_encode h

/-- Settles O3: the opcode map answers a command for the fields of its word only. -/
theorem encodeOfDecode : Obligations.EncodeOfDecode := fun _ _ _ h => decode_eq_ok_iff.mp h

/-- Settles O1: each word is the word of its command. -/
theorem specWordsDecode : Obligations.SpecWordsDecode := by
  unfold Obligations.SpecWordsDecode
  simp only [decode_eq_ok_iff]
  decide

/-! ### The rows of the opcode table (R109) -/

/-- Every row's mask keeps the eight bits of OPC, and its match is a value of OPC. -/
theorem opcodeTable_fixes_opc : ∀ r ∈ opcodeTable, r.mask &&& 0xFF = 0xFF ∧ r.pattern &&& 0xFF = r.pattern := by
  decide

theorem opcodeTable_pattern_nodup : (opcodeTable.map OpRow.pattern).Nodup := by decide

/-- The row that selects a word is keyed by the word's OPC. -/
theorem pattern_of_selects {r : OpRow} {w : BitVec 32} (hr : r ∈ opcodeTable) (h : r.selects w = true) :
    r.pattern = w &&& 0xFF := by
  obtain ⟨hmask, hpat⟩ := opcodeTable_fixes_opc r hr
  have hsel : w &&& r.mask = r.pattern := of_decide_eq_true h
  calc r.pattern = w &&& r.mask &&& 0xFF := by rw [hsel, hpat]
    _ = w &&& 0xFF := by rw [BitVec.and_assoc, hmask]

theorem row_mem_opcodeTable (i : Instr) : i.row ∈ opcodeTable := by
  cases i <;> simp [Instr.row, opcodeTable, rowInstances]

/-- The word of a command belongs to the command's row, by the lemma of each command. -/
theorem row_selects_encode (i : Instr) : i.row.selects (encode i) = true := by
  refine decide_eq_true (?_ : Laws.RowSelects.Statement i)
  open Laws.RowSelects in
  cases i
  exacts [nop, add, sub, inc, dec, muld, submuld, mul, sqr, nlz, ntz, lsr, cmp, cmpct, fix, maskcopy, div, mod, gcd,
    modinv, montfactor, enginit _, engrd _, madd _, msub _, mneg _, mdiv2 _, mmul2 _, mmul3 _, mmul _, msqr _, menc _,
    mdec _, mred _, r2red _, red2r _, amm _, ams _, ammdual _, scrsize _, scrput _, scrget _, scrgetct _, winsize,
    expbufsize _, expbin _ _, expbinct _ _, expwin _ _ _, expwinct _ _ _, dualexpwinct _ _, os2bn, bn2os]

theorem row_selects_of_decode {lw : LimbWidth} {w : BitVec 32} {i : Instr} (h : decode lw w = .ok i) :
    i.row.selects w = true := by
  obtain ⟨rfl, -⟩ := decode_eq_ok_iff.mp h
  exact row_selects_encode i

/-- Settles O4: two rows that select a word have its OPC as their match, and the matches of the table differ. -/
theorem oneRowSelectsAWord : Obligations.OneRowSelectsAWord := by
  refine ⟨fun w r q hr hq hrw hqw => ?_, fun lw w i h => ⟨row_mem_opcodeTable i, row_selects_of_decode h⟩,
    fun lw w hnone => ?_⟩
  · exact List.inj_on_of_nodup_map opcodeTable_pattern_nodup hr hq
      ((pattern_of_selects hr hrw).trans (pattern_of_selects hq hqw).symm)
  · cases h : decode lw w with
    | illegal e => exact ⟨e, rfl⟩
    | ok i => exact absurd (row_selects_of_decode h) (by simp [hnone _ (row_mem_opcodeTable i)])

/-! ### The engine's turn on a command word (R107, R110) -/

section
variable {s u : State}

/-- The engine's turn is the engine's step from the state it begins in. -/
theorem EngineTurn.step_eq (h : EngineTurn s u) : step s = engineStep u := by
  rcases h with ⟨hs, rfl⟩ | ⟨rest, hs, rfl⟩ <;> simp [step, hs]

theorem EngineTurn.phase_eq (h : EngineTurn s u) : u.phase = s.phase := by
  rcases h with ⟨-, rfl⟩ | ⟨_, -, rfl⟩ <;> rfl

theorem EngineTurn.cfg_eq (h : EngineTurn s u) : u.cfg = s.cfg := by
  rcases h with ⟨-, rfl⟩ | ⟨_, -, rfl⟩ <;> rfl

theorem engineStep_of_illegal {w : BitVec 32} {args : Args} {e : Illegal} (hp : s.phase = .pending w args)
    (hd : decode s.cfg.width w = .illegal e) :
    engineStep s = .next (s.completeErr .illegal (Config.freeLeak s)) := by
  simp [engineStep, hp, hd]

end

/-- Settles O8: the engine's turn settles what exec answers. -/
theorem engineRunsTheDecodedCommand : Obligations.EngineRunsTheDecodedCommand := by
  intro s w args i hp hd u hu
  have hstep : step s = settle u (exec i u) :=
    hu.step_eq.trans (engineStep_of_decode (hu.phase_eq.trans hp) (hu.cfg_eq ▸ hd))
  refine ⟨fun t ht => ?_, fun r hr => ?_⟩
  · rw [hstep, ht]
    rfl
  · rw [hstep, hr]
    rfl

/-- Settles O10: the completion with an error writes STATUS, RES0 and RES1 only. -/
theorem illegalWordCompletesWithError : Obligations.IllegalWordCompletesWithError := by
  intro s u w args e hp hu hd
  have hstep : step s = .next (u.completeErr .illegal (Config.freeLeak u)) :=
    hu.step_eq.trans (engineStep_of_illegal (hu.phase_eq.trans hp) (hu.cfg_eq ▸ hd))
  exact ⟨_, hstep, failed_completeErr u _ _, frame_finish u _ _ _ _, completeErr_lm u _ _⟩

end Sys2Proof.Machine
end


section
/-! Limb arithmetic as 40_bnu.md gives it: the contract of a command of the shape "regions, length, reads", proved once
for one and for two regions read; what a store of a result leaves; then each command is its values. -/

namespace Sys2Proof.Machine

open Sys2Proof

/-! ### Contracts: bounds and overlap, lengths, reads (R75, R77, R74) -/

section
variable {s : State} {cls : AliasClass} {ins outs : List Region} {P : Prop} [Decidable P] {post : State → Prop}

/-- The checks of every command here, before it reads: the contract is met where the regions are in bounds and may
overlap, the lengths are positive and every region read is written. -/
theorem completesUnder_lengthChecked {rs : List Region} {k : Out} {q : Prop}
    (hq : (∀ x ∈ rs, Written s x.base x.count) ↔ q)
    (h : P → ∀ c : Contract, (∀ x ∈ rs, c.Names (Written s x.base x.count) .uninitRead) → CompletesWhen c q k post) :
    CompletesUnder ((P, .zeroLength) :: (Contract.regions s cls ins outs ++ Contract.reads s rs))
      (checkRegions s cls ins outs (guardUB P .zeroLength k)) post := by
  refine .of (q := RegionsOk s cls ins outs ∧ P ∧ q) ?_ (.regions ?_ fun _ => .guard ?_ fun hP => h hP _ fun x hx => ?_)
  · simp only [Contract.holds_cons, Contract.holds_append, regions_holds, reads_holds, hq]
    exact and_left_comm
  · exact List.subset_cons_of_subset _ (List.subset_append_left _ _)
  · exact Contract.Names.of_mem List.mem_cons_self id
  · exact Contract.names_reads (List.subset_cons_of_subset _ (List.subset_append_right _ _)) hx

theorem completesUnder_readOne {a n : Nat} {f : Nat → State} (h : P → post (f (valAt s a n))) :
    CompletesUnder ((P, .zeroLength) :: (Contract.regions s cls ins outs ++ Contract.reads s [⟨a, n⟩]))
      (checkRegions s cls ins outs <| guardUB P .zeroLength <| withVal s a n fun av => .next (f av)) post :=
  completesUnder_lengthChecked (by simp) fun hP _ hc => .val (hc ⟨a, n⟩ (by simp)) fun _ => .next (h hP)

/-- The contract may list the two regions in either order. -/
theorem completesUnder_readTwo {a n b m : Nat} {rs : List Region} {f : Nat → Nat → State}
    (hrs : ∀ x, x ∈ rs ↔ x = ⟨a, n⟩ ∨ x = ⟨b, m⟩) (h : P → post (f (valAt s a n) (valAt s b m))) :
    CompletesUnder ((P, .zeroLength) :: (Contract.regions s cls ins outs ++ Contract.reads s rs))
      (checkRegions s cls ins outs <| guardUB P .zeroLength <|
        withVal s a n fun av => withVal s b m fun bv => .next (f av bv)) post :=
  completesUnder_lengthChecked (by simp [hrs]) fun hP _ hc =>
    .val (hc ⟨a, n⟩ (by simp [hrs])) fun _ => .val (hc ⟨b, m⟩ (by simp [hrs])) fun _ => .next (h hP)

theorem completesUnder_readTwoLimbs {a b n : Nat} {f : List Nat → List Nat → State}
    (h : P → ∀ xs ys, s.limbsAt 1 a n = some xs → s.limbsAt 1 b n = some ys → post (f xs ys)) :
    CompletesUnder ((P, .zeroLength) :: (Contract.regions s cls ins outs ++ Contract.reads s [⟨a, n⟩, ⟨b, n⟩]))
      (checkRegions s cls ins outs <| guardUB P .zeroLength <|
        withLimbs s 1 a n fun xs => withLimbs s 1 b n fun ys => .next (f xs ys)) post := by
  refine completesUnder_lengthChecked ?_ fun hP _ hc =>
    .limbs (fun hn => hc ⟨a, n⟩ (by simp) (mt written_iff_limbs.mp hn)) fun xs hx =>
    .limbs (fun hn => hc ⟨b, n⟩ (by simp) (mt written_iff_limbs.mp hn)) fun ys hy => .next (h hP xs ys hx hy)
  simp [written_iff_limbsAt]

end

/-! ### Results -/

/-- A stored result and a word in RES0: what every command that writes R(n) leaves. -/
theorem stored_result (s : State) (r n : Nat) (l : Leak) {v w r0 : Nat} (hv : v % 2 ^ (s.cfg.W * n) = w)
    (h0 : r0 < 2 ^ s.cfg.W) :
    ((s.memWrite r n v).complete r0 0 l).memRead r n = some w ∧ Done ((s.memWrite r n v).complete r0 0 l) r0 0 ∧
      Frame s ((s.memWrite r n v).complete r0 0 l) [⟨r, n⟩] := by
  refine ⟨?_, done_complete (by simpa using h0) (Nat.two_pow_pos _), frame_memWrite_complete s r n v r0 0 l⟩
  rw [memRead_complete, memRead_memWrite_same, hv]

theorem carryOut_lt {W n v B : Nat} (h : v < 2 ^ (W * n) * B) : carryOut W n v < B := Nat.div_lt_of_lt_mul h

/-- The carry of a sum of two values of n limbs fits a word (R141, R143). -/
theorem carryOut_add_lt (c : Config) {n a b : Nat} (ha : a < 2 ^ (c.W * n)) (hb : b < 2 ^ (c.W * n)) :
    carryOut c.W n (a + b) < 2 ^ c.W :=
  (carryOut_lt (B := 2) (by omega)).trans_le (one_lt_two_pow_W c)

theorem borrowOut_lt (c : Config) (a b : Nat) : borrowOut a b < 2 ^ c.W := by
  have := one_lt_two_pow_W c
  rw [borrowOut]
  split <;> omega

/-- A product of n limbs and one word is below 2^(W·n)·(2^W - 1), so its high limb is a word and the borrow limb of
SUBMULD is one too (R145, R146). -/
theorem mul_word_lt_pred (c : Config) {n a v : Nat} (ha : a < 2 ^ (c.W * n)) (hv : v < 2 ^ c.W) :
    a * v < 2 ^ (c.W * n) * (2 ^ c.W - 1) := by
  have hW : 0 < 2 ^ c.W - 1 := Nat.sub_pos_of_lt (one_lt_two_pow_W c)
  calc a * v ≤ a * (2 ^ c.W - 1) := Nat.mul_le_mul_left a (Nat.le_sub_one_of_lt hv)
    _ < 2 ^ (c.W * n) * (2 ^ c.W - 1) := (Nat.mul_lt_mul_right hW).mpr ha

theorem subWrap_mod {W n a b : Nat} (hb : b < 2 ^ (W * n)) :
    subWrap W n a b % 2 ^ (W * n) = (2 ^ (W * n) + a - b) % 2 ^ (W * n) := by
  rw [subWrap_eq W n a b hb, Nat.mod_mod]

theorem compareWord_lt (c : Config) (a b : Nat) : compareWord c.W a b < 2 ^ c.W := by
  have := one_lt_two_pow_W c
  rw [compareWord]
  split
  · exact this
  · split <;> omega

/-- A value of n limbs has no bit at W·n or above, so the shift needs no case for a large count (R151). -/
theorem shiftRightVal_eq {W n a : Nat} (sh : Nat) (ha : a < 2 ^ (W * n)) : shiftRightVal W n a sh = a / 2 ^ sh := by
  rw [shiftRightVal]
  split
  next h => rw [Nat.div_eq_of_lt (ha.trans_le (Nat.pow_le_pow_right (by omega) h))]
  next => rfl

/-- The leading zeros place the top bit of a limb that is not 0 (R149). -/
theorem leadingZeros_spec {W x : Nat} (hx : x < 2 ^ W) (h0 : x ≠ 0) :
    leadingZeros W x < W ∧ 2 ^ (W - 1 - leadingZeros W x) ≤ x ∧ x < 2 ^ (W - leadingZeros W x) := by
  have hlog : Nat.log2 x < W := (Nat.log2_lt h0).mpr hx
  rw [leadingZeros, if_neg h0, show W - 1 - (W - 1 - Nat.log2 x) = Nat.log2 x by omega,
    show W - (W - 1 - Nat.log2 x) = Nat.log2 x + 1 by omega]
  exact ⟨by omega, Nat.log2_self_le h0, Nat.lt_log2_self⟩

theorem leadingZeros_le (W x : Nat) : leadingZeros W x ≤ W := by
  rw [leadingZeros]
  split <;> omega

@[simp] theorem trailingZeros_zero (k : Nat) : trailingZeros k 0 = k := by
  induction k with
  | zero => rfl
  | succ k ih => simp [trailingZeros, ih, Nat.add_comm]

/-! ### Selection (R155) -/

/-- Limb j of the selection, written to R(n), comes from the limbs before. -/
theorem limbAt_setLimbs_select (s : State) (r mask : Nat) {a b n j : Nat} {xs ys : List Nat}
    (hx : s.limbsAt 1 a n = some xs) (hy : s.limbsAt 1 b n = some ys) (hj : j < n) :
    ∃ x y, s.limbAt (a + j) = some x ∧ s.limbAt (b + j) = some y ∧
      (State.setLimbs 1 s r (List.zipWith (selectLimb s.cfg.W mask) xs ys)).limbAt (r + j) =
        some (selectLimb s.cfg.W mask x y) := by
  have hlx : j < xs.length := by rwa [limbsAt_length hx]
  have hly : j < ys.length := by rwa [limbsAt_length hy]
  have hw := limbAt_setLimbs_inside s Nat.one_pos r (List.zipWith (selectLimb s.cfg.W mask) xs ys) (j := j)
    (by simp [hlx, hly])
  refine ⟨xs[j], ys[j], by simpa using limbAt_of_limbsAt hx hlx, by simpa using limbAt_of_limbsAt hy hly, ?_⟩
  rw [Nat.mul_one] at hw
  rw [hw, List.getElem_zipWith, Nat.mod_eq_of_lt]
  exact selectLimb_lt (limbsAt_lt hx (List.getElem_mem hlx)) (limbsAt_lt hy (List.getElem_mem hly))

/-! ### The statements -/

/-- Settles O26: the carry of two values of n limbs is 0 or 1. -/
theorem addWritesSumAndCarry : Obligations.AddWritesSumAndCarry :=
  ⟨rfl, fun s => completesUnder_readTwo (by simp) fun _ =>
    stored_result s _ _ _ rfl (carryOut_add_lt s.cfg (valAt_lt s _ _) (valAt_lt s _ _))⟩

/-- Settles O27: the wrapped difference is the one of R142. -/
theorem subWritesDifferenceAndBorrow : Obligations.SubWritesDifferenceAndBorrow :=
  ⟨rfl, fun s => completesUnder_readTwo (by simp) fun _ =>
    stored_result s _ _ _ (subWrap_mod (valAt_lt s _ _)) (borrowOut_lt s.cfg _ _)⟩

/-- Settles O28: a word is below 2^(W·n) as n is at least 1. -/
theorem incAndDecPropagate : Obligations.IncAndDecPropagate := by
  refine ⟨rfl, rfl, fun s hs => ⟨completesUnder_readOne fun hn => ?_, completesUnder_readOne fun hn => ?_⟩⟩
  all_goals have hv := (hs 3).trans_le (two_pow_le_of_one_le hn)
  · exact stored_result s _ _ _ rfl (carryOut_add_lt s.cfg (valAt_lt s _ _) hv)
  · exact stored_result s _ _ _ (subWrap_mod hv) (borrowOut_lt s.cfg _ _)

/-- Settles O29: the overflow limb of n limbs times a word is a word. -/
theorem muldWritesProductAndHighLimb : Obligations.MuldWritesProductAndHighLimb :=
  ⟨rfl, fun s hs => completesUnder_readOne fun _ => stored_result s _ _ _ rfl
    ((carryOut_lt (mul_word_lt_pred s.cfg (valAt_lt s _ _) (hs 3))).trans_le (Nat.sub_le _ 1))⟩

/-- Settles O30: a·v bounds the borrow limb by 2^W - 1. -/
theorem submuldWritesDifferenceAndBorrowLimb : Obligations.SubmuldWritesDifferenceAndBorrowLimb := by
  refine ⟨rfl, fun s hs => completesUnder_readTwo (by simp [or_comm]) fun _ => ?_⟩
  obtain ⟨heq, hb, hrn⟩ := borrowLimb_spec s.cfg.W (s.opnd 2) _ _ (valAt_lt s (s.opnd 0) _) (2 ^ s.cfg.W - 1)
    (mul_word_lt_pred s.cfg (valAt_lt s (s.opnd 1) (s.opnd 2)) (hs 3))
  have hb' := Nat.lt_of_le_sub_one (Nat.two_pow_pos _) hb
  exact ⟨_, _, hrn, hb', heq, stored_result s _ _ _ (Nat.mod_eq_of_lt hrn) hb'⟩

/-- Settles O31: a product of nA and nB limbs fits nA + nB limbs. -/
theorem mulWritesTheExactProduct : Obligations.MulWritesTheExactProduct :=
  ⟨rfl, fun s => completesUnder_readTwo (by simp) fun _ =>
    stored_result s _ _ _ (Nat.mod_eq_of_lt (mul_lt_two_pow_add (valAt_lt s _ _) (valAt_lt s _ _)))
      (Nat.two_pow_pos _)⟩

/-- Settles O32: a square of n limbs fits 2n limbs. -/
theorem sqrWritesTheExactSquare : Obligations.SqrWritesTheExactSquare := by
  refine ⟨rfl, fun s => completesUnder_readOne fun _ => stored_result s _ _ _ (Nat.mod_eq_of_lt ?_) (Nat.two_pow_pos _)⟩
  rw [Nat.two_mul]
  exact mul_lt_two_pow_add (valAt_lt s _ _) (valAt_lt s _ _)

/-- Settles O33: a bit count is at most W, so it fits RES0. -/
theorem bitCountsOfALimb : Obligations.BitCountsOfALimb :=
  ⟨rfl, rfl, fun s hs =>
    ⟨⟨_, _, rfl, done_complete ((leadingZeros_le _ _).trans_lt Nat.lt_two_pow_self) (Nat.two_pow_pos _),
      frame_complete s _ _ _, fun h0 => by rw [h0]; rfl, leadingZeros_spec (hs 0)⟩,
     ⟨_, _, rfl, done_complete ((trailingZeros_le _ _).trans_lt Nat.lt_two_pow_self) (Nat.two_pow_pos _),
      frame_complete s _ _ _, fun h0 => by rw [h0, trailingZeros_zero], trailingZeros_spec _ _ (hs 0)⟩⟩⟩

/-- Settles O34: a value of n limbs shifted right is a value of n limbs. -/
theorem lsrShiftsBySomeBits : Obligations.LsrShiftsBySomeBits := by
  refine ⟨rfl, fun s => completesUnder_readOne fun _ => stored_result s _ _ _ ?_ (Nat.two_pow_pos _)⟩
  rw [shiftRightVal_eq _ (valAt_lt s _ _), Nat.mod_eq_of_lt ((Nat.div_le_self _ _).trans_lt (valAt_lt s _ _))]

/-- Settles O35: the logical length is at most n, which is a word. -/
theorem fixGivesTheLogicalLength : Obligations.FixGivesTheLogicalLength := by
  refine ⟨rfl, fun s hs => completesUnder_readOne fun hn => ?_⟩
  have hle : lenOf s.cfg.W (valAt s (s.opnd 0) (s.opnd 1)) ≤ s.opnd 1 := lenOf_le (W_pos _) hn (valAt_lt s _ _)
  exact ⟨_, isLength_lenOf _, hle, done_complete (hle.trans_lt (hs 1)) (Nat.two_pow_pos _), frame_complete s _ _ _⟩

/-- Settles O36: both complete with the comparison word; CMPCT's leakage is the one it completes with. -/
theorem compareGivesThreeWayResult : Obligations.CompareGivesThreeWayResult := by
  refine ⟨rfl, rfl, fun s =>
    ⟨completesUnder_readTwo (by simp) fun _ => ?_, completesUnder_readTwo (by simp) fun _ => ?_⟩⟩
  · exact ⟨done_complete (compareWord_lt _ _ _) (Nat.two_pow_pos _), frame_complete s _ _ _⟩
  · exact ⟨done_complete (compareWord_lt _ _ _) (Nat.two_pow_pos _), frame_complete s _ _ _,
      cmpctTrace_eq _ _ _ _ _, rfl⟩

/-- Settles O37: both regions are read before the first limb is written, so R may be A. -/
theorem maskcopySelectsBitByBit : Obligations.MaskcopySelectsBitByBit := by
  refine ⟨rfl, fun s => completesUnder_readTwoLimbs fun _ xs ys hx hy => ⟨fun j hj => ?_, ?_, rfl, ?_, ?_⟩⟩
  · obtain ⟨x, y, hxj, hyj, hw⟩ := limbAt_setLimbs_select s (s.opnd 0) (s.opnd 4) hx hy hj
    exact ⟨x, y, hxj, hyj, hw⟩
  · rw [complete_leak, maskcopyLeak, maskcopyTrace_eq]
    simp
  · exact done_complete_zero _ _
  · exact frame_finish_setLimbs (keepsLmOutside_setLimbs s _ _ (by simp [limbsAt_length hx, limbsAt_length hy])) _ _ _ _

end Sys2Proof.Machine
end

section
/-! Division, GCD and inverse as 41_division.md gives them: the divisor's top limb bounds the divisor from below, so the
quotient fits its region; the checks DIV and MOD share, proved once; then each command is its values. -/

namespace Sys2Proof.Machine

open Sys2Proof

/-! ### The divisor (R201, R202) -/

/-- Limb i of a written region is digit i of its value (00_scope.md R11). -/
theorem limbAt_eq_digit {s : State} {a n i : Nat} (h : Written s a n) (hi : i < n) :
    s.limbAt (a + i) = some (valAt s a n / 2 ^ (s.cfg.W * i) % 2 ^ s.cfg.W) := by
  obtain ⟨l, hl⟩ := written_iff_limbsAt.mp h
  have hlen := limbsAt_length hl
  have hv : valAt s a n = radixVal s.cfg.W l := valAt_of (by rw [State.memRead, hl]; rfl)
  have hd : radixDigits s.cfg.W n (valAt s a n) = l := by
    rw [hv, ← hlen, radixDigits_radixVal fun x hx => limbsAt_lt hl hx]
  have hx := limbAt_of_limbsAt hl (j := i) (by omega)
  rw [Nat.mul_one] at hx
  simp only [hx, ← hd, radixDigits_getElem]

theorem two_pow_le_valAt_of_top {s : State} {b nb : Nat} (hnb : 1 ≤ nb) (h : Written s b nb)
    (htop : s.limbAt (b + nb - 1) ≠ some 0) : 2 ^ (s.cfg.W * (nb - 1)) ≤ valAt s b nb := by
  by_contra hlt
  refine htop ?_
  rw [Nat.add_sub_assoc hnb, limbAt_eq_digit h (by omega), Nat.div_eq_of_lt (not_le.mp hlt), Nat.zero_mod]

theorem quotient_lt {W na nb a b : Nat} (hnb : 1 ≤ nb) (hle : nb ≤ na) (ha : a < 2 ^ (W * na))
    (hb : 2 ^ (W * (nb - 1)) ≤ b) : a / b < 2 ^ (W * (na + 1 - nb)) := by
  refine Nat.div_lt_of_lt_mul (ha.trans_le ?_)
  calc 2 ^ (W * na) = 2 ^ (W * (nb - 1)) * 2 ^ (W * (na + 1 - nb)) := by
        rw [← Nat.pow_add, ← Nat.mul_add]; congr 2; omega
    _ ≤ b * 2 ^ (W * (na + 1 - nb)) := Nat.mul_le_mul_right _ hb

theorem remainder_fits {s : State} {b nb : Nat} (a na : Nat) (hb : 2 ^ (s.cfg.W * (nb - 1)) ≤ valAt s b nb) :
    0 < valAt s b nb ∧ valAt s a na % valAt s b nb < 2 ^ (s.cfg.W * nb) := by
  have hpos : 0 < valAt s b nb := (Nat.two_pow_pos _).trans_le hb
  exact ⟨hpos, (Nat.mod_lt _ hpos).trans (valAt_lt s b nb)⟩

/-! ### The inverse (R204) -/

theorem invMod_residue {a m : Nat} (hm : 2 ≤ m) (hg : Nat.gcd (a % m) m = 1) :
    invMod (a % m) m < m ∧ a * invMod (a % m) m % m = 1 := by
  have hpos : 0 < m := by omega
  have hinv := invMod_spec hpos hg
  rw [Nat.mod_mul_mod, Nat.mod_eq_of_lt hm] at hinv
  exact ⟨invMod_lt _ hpos, hinv⟩

/-! ### Contracts -/

/-- The checks every command here makes first, regions and counts; `pre` lists the conditions of the command's own. -/
theorem completesUnder_ownChecks {s : State} {cls : AliasClass} {ins outs rs : List Region} {P q : Prop} [Decidable P]
    {pre : Contract} {k : Out} {post : State → Prop} (hq : pre.Holds ∧ (Contract.reads s rs).Holds ↔ q)
    (h : RegionsOk s cls ins outs → P → ∀ c : Contract, pre ⊆ c → Contract.reads s rs ⊆ c → CompletesWhen c q k post) :
    CompletesUnder ((P, .zeroLength) :: (pre ++ (Contract.regions s cls ins outs ++ Contract.reads s rs)))
      (checkRegions s cls ins outs (guardUB P .zeroLength k)) post := by
  refine .of (q := RegionsOk s cls ins outs ∧ P ∧ q) ?_ (.regions (fun _ hx => by simp [hx]) fun hreg =>
    .guard (.of_mem List.mem_cons_self id) fun hP =>
    h hreg hP _ (fun _ hx => by simp [hx]) (fun _ hx => by simp [hx]))
  simp only [Contract.holds_cons, Contract.holds_append, regions_holds, ← hq]
  tauto

/-- What DIV and MOD do after their length checks: the divisor's top limb, then both operands. -/
theorem CompletesWhen.divide {s : State} {c : Contract} {a na b nb : Nat} {f : Nat → Nat → State}
    {post : State → Prop} (hnb : 1 ≤ nb) (hd : c.Names (s.limbAt (b + nb - 1) ≠ some 0) .divisorNotNormalized)
    (hr : Contract.reads s [⟨a, na⟩, ⟨b, nb⟩] ⊆ c)
    (h : 2 ^ (s.cfg.W * (nb - 1)) ≤ valAt s b nb → post (f (valAt s a na) (valAt s b nb))) :
    CompletesWhen c (s.limbAt (b + nb - 1) ≠ some 0 ∧ (Contract.reads s [⟨a, na⟩, ⟨b, nb⟩]).Holds)
      (divisorCheck s b nb <| withVal s a na fun av => withVal s b nb fun bv => .next (f av bv)) post := by
  have hwa : c.Names (Written s a na) .uninitRead := Contract.names_reads hr (by simp)
  have hwb : c.Names (Written s b nb) .uninitRead := Contract.names_reads hr (by simp)
  refine .congr ?_ (.divisor hnb hwb hd fun x hx h0 => .val hwa fun _ => .val hwb fun hb =>
    .next (h (two_pow_le_valAt_of_top hnb hb (by simpa [hx] using h0))))
  simp only [reads_holds, List.forall_mem_cons, List.not_mem_nil, false_implies, implies_true, and_true]
  refine ⟨fun ⟨h0, ha, hb⟩ => ?_, fun ⟨⟨x, hx, h0⟩, ha, hb⟩ => ⟨by simpa [hx] using h0, ha, hb⟩⟩
  have htop := limbAt_eq_digit hb (i := nb - 1) (by omega)
  rw [← Nat.add_sub_assoc hnb] at htop
  exact ⟨⟨_, htop, fun hz => h0 (by rw [htop, hz])⟩, ha, hb⟩

/-! ### Results -/

/-- The logical length of a value of n limbs fits a result register, n being a word. -/
theorem lenOf_lt_of_fits {c : Config} {v n : Nat} (hn : 1 ≤ n) (hv : v < 2 ^ (c.W * n)) (hw : n < 2 ^ c.W) :
    lenOf c.W v < 2 ^ c.W := (lenOf_le (W_pos c) hn hv).trans_lt hw

theorem Frame.trans {s t u : State} {l m : List Region} (h : Frame s t l) (h' : Frame t u m) : Frame s u (l ++ m) := by
  obtain ⟨⟨hcfg, hcmd, hargs, hdata, hsched⟩, h0, h1, hlm⟩ := h
  obtain ⟨⟨hcfg', hcmd', hargs', hdata', hsched'⟩, h0', h1', hlm'⟩ := h'
  exact ⟨⟨hcfg'.trans hcfg, hcmd'.trans hcmd, hargs'.trans hargs, hdata'.trans hdata, hsched'.trans hsched⟩,
    h0'.trans h0, h1'.trans h1, hlm.trans hcfg hlm'⟩

theorem frame_memWrite (s : State) (a n v : Nat) : Frame s (s.memWrite a n v) [⟨a, n⟩] :=
  ⟨⟨by simp, by simp, by simp, by simp, by simp⟩, by simp, by simp, keepsLmOutside_memWrite s a n v⟩

/-- Two results stored in disjoint regions, the second store leaving the first result alone. -/
theorem memRead_memWrite_memWrite (s : State) {a n b m v w : Nat} (hd : Region.disjoint ⟨a, n⟩ ⟨b, m⟩ = true)
    (hv : v < 2 ^ (s.cfg.W * n)) (hw : w < 2 ^ (s.cfg.W * m)) :
    ((s.memWrite a n v).memWrite b m w).memRead a n = some v ∧
      ((s.memWrite a n v).memWrite b m w).memRead b m = some w := by
  constructor
  · rw [memRead_memWrite_disjoint _ _ hd, memRead_memWrite_same, Nat.mod_eq_of_lt hv]
  · rw [memRead_memWrite_same, memWrite_cfg, Nat.mod_eq_of_lt hw]

theorem gcd_lt_of_lt {a b k : Nat} (ha : a < k) (hb : b < k) : Nat.gcd a b < k := by
  rcases Nat.eq_zero_or_pos a with rfl | h0
  · rwa [Nat.gcd_zero_left]
  · exact (Nat.gcd_le_left b h0).trans_lt ha

/-! ### The statements -/

/-- Settles O38: a normalized divisor is at least 2^(W·(nB - 1)), so the quotient fits nA - nB + 1 limbs, and class NONE
keeps the store of the remainder off it. -/
theorem divWritesQuotientAndRemainder : Obligations.DivWritesQuotientAndRemainder := by
  refine ⟨rfl, fun s hs => completesUnder_ownChecks (pre := [_, _]) (by simp [and_assoc])
    fun hreg ⟨_, hnb⟩ c hpre hreads => .guard (.of_mem (hpre (by simp)) id) fun hle =>
      .divide hnb (.of_mem (hpre (by simp)) id) hreads fun hb => ?_⟩
  have hq := quotient_lt hnb hle (valAt_lt s (s.opnd 2) (s.opnd 3)) hb
  obtain ⟨hpos, hr⟩ := remainder_fits (s.opnd 2) (s.opnd 3) hb
  have hdisj : Region.disjoint ⟨s.opnd 0, s.opnd 3 + 1 - s.opnd 5⟩ ⟨s.opnd 1, s.opnd 5⟩ = true := by
    simpa [pairwiseDisjoint, Region.disjointAll] using (aliasOk_none_disjoint hreg.2).1
  obtain ⟨hmq, hmr⟩ := memRead_memWrite_memWrite s hdisj hq hr
  have hnq : s.opnd 3 + 1 - s.opnd 5 < 2 ^ s.cfg.W := lt_of_le_of_lt (by omega) (hs 3)
  refine ⟨_, _, by rwa [memRead_complete], by rwa [memRead_complete], hpos, isLength_lenOf _, isLength_lenOf _,
    done_complete ?_ ?_, (frame_memWrite s _ _ _).trans (frame_memWrite_complete _ _ _ _ _ _ _)⟩
  · simpa using lenOf_lt_of_fits (by omega) hq hnq
  · simpa using lenOf_lt_of_fits hnb hr (hs 5)

/-- Settles O39: the remainder is below the divisor, so it fits nB limbs. -/
theorem modWritesTheRemainder : Obligations.ModWritesTheRemainder := by
  refine ⟨rfl, fun s hs => completesUnder_ownChecks (pre := [_]) (by simp) fun _ ⟨_, hnb⟩ c hpre hreads =>
    .divide hnb (.of_mem (hpre (by simp)) id) hreads fun hb => ?_⟩
  obtain ⟨hpos, hr⟩ := remainder_fits (s.opnd 1) (s.opnd 2) hb
  obtain ⟨hm, hdone, hframe⟩ :=
    stored_result s (s.opnd 0) _ (Config.freeLeak s) (Nat.mod_eq_of_lt hr) (lenOf_lt_of_fits hnb hr (hs 4))
  exact ⟨_, hm, hpos, isLength_lenOf _, hdone, hframe⟩

/-- Settles O40: the gcd of two words is a word. -/
theorem gcdOfTwoLimbs : Obligations.GcdOfTwoLimbs :=
  ⟨rfl, fun s hs => ⟨_, _, rfl, done_complete (gcd_lt_of_lt (hs 0) (hs 1)) (Nat.two_pow_pos _), frame_complete s _ _ _,
    Nat.gcd_dvd_left _ _, Nat.gcd_dvd_right _ _, fun _ => Nat.dvd_gcd⟩⟩

/-- Settles O41: the inverse of a mod m is one of a, and without one the region is written all the same. -/
theorem modinvWritesTheInverse : Obligations.ModinvWritesTheInverse := by
  refine ⟨rfl, fun s hs => completesUnder_ownChecks (pre := [_])
    (q := Written s _ _ ∧ Written s _ _ ∧ 2 ≤ valAt s _ _ ∧ True) (by simp [reads_holds, and_comm, and_assoc])
    fun _ ⟨_, hnm⟩ c hpre hreads => .val (Contract.names_reads hreads (by simp)) fun _ =>
      .val (Contract.names_reads hreads (by simp)) fun _ => .guard (.of_mem (hpre (by simp)) id) fun hm => ?_⟩
  split
  next hg =>
    obtain ⟨hy, hinv⟩ := invMod_residue hm hg
    have hfit := hy.trans (valAt_lt s (s.opnd 3) (s.opnd 4))
    obtain ⟨hmem, hdone, hframe⟩ :=
      stored_result s (s.opnd 0) _ (Config.freeLeak s) (Nat.mod_eq_of_lt hfit) (lenOf_lt_of_fits hnm hfit (hs 4))
    exact .next ⟨hframe, fun _ => ⟨_, _, hy, hinv, hmem, isLength_lenOf _, hdone⟩, fun h => absurd hg h⟩
  next hg =>
    exact .next ⟨frame_havoc_complete s _ _ _ _ _, fun h => absurd h hg, fun _ =>
      ⟨by rw [Written, memRead_complete]; exact memRead_havoc_isSome s _ _, done_complete_zero _ _⟩⟩

end Sys2Proof.Machine
end

section
/-! The Montgomery engine as 42_montgomery.md gives it: the values of the method table, each reduced and what its rule
says modulo m; the checks the methods share, proved once for one operand and for two; ENGINIT branch by branch and ENGRD
by its selector. -/

namespace Sys2Proof.Machine

open Sys2Proof

/-- The word of a command whose only field is C (30_encoding.md R101, R103). -/
theorem packWord_slot_toNat {opc : Nat} (h : opc ≤ 255) (c : Slot) :
    (packWord opc c.bit 0 0 0).toNat = opc + 256 * c.bit := by
  have := slot_bit_le c
  simp only [packWord, BitVec.toNat_ofNat]
  omega

/-! ### The values of the method table (R235 to R240) -/

section
variable {m a b : Nat}

theorem maddVal_eq (ha : a < m) (hb : b < m) : maddVal m a b = (a + b) % m := by
  unfold maddVal
  split
  next h => rw [Nat.mod_eq_sub_mod h, Nat.mod_eq_of_lt (by omega)]
  next h => rw [Nat.mod_eq_of_lt (not_le.mp h)]

theorem msubVal_eq (ha : a < m) (hb : b < m) : msubVal m a b = (m + a - b) % m := by
  unfold msubVal
  split
  next h => rw [Nat.mod_eq_of_lt (by omega), Nat.add_comm]
  next h => rw [Nat.add_sub_assoc (not_lt.mp h), Nat.add_mod_left, Nat.mod_eq_of_lt (by omega)]

theorem mnegVal_spec (ha : a < m) : mnegVal m a < m ∧ (mnegVal m a + a) % m = 0 := by
  unfold mnegVal
  split
  next h =>
    obtain rfl : a = 0 := by omega
    exact ⟨ha, Nat.zero_mod m⟩
  next h => exact ⟨by omega, by rw [Nat.sub_add_cancel ha.le, Nat.mod_self]⟩

/-- With m odd, one of a and a + m is even, and half of it is the reduced half of a. -/
theorem mdiv2Val_spec (hm : m % 2 = 1) (ha : a < m) : mdiv2Val m a < m ∧ 2 * mdiv2Val m a % m = a := by
  unfold mdiv2Val
  split
  next h =>
    refine ⟨by omega, ?_⟩
    rw [show 2 * ((a + m) / 2) = a + m by omega, Nat.add_mod_right, Nat.mod_eq_of_lt ha]
  next h =>
    refine ⟨by omega, ?_⟩
    rw [show 2 * (a / 2) = a by omega, Nat.mod_eq_of_lt ha]

theorem add_double_mod (m a : Nat) : (a + (a + a) % m) % m = 3 * a % m := by
  rw [Nat.add_mod_mod]
  congr 1
  ring

end

/-! ### Results of the methods of a valid context (R230) -/

theorem ctxM_odd {c : Config} {x : Ctx} (hok : CtxOk c x) (hv : x.valid = true) : ctxM c x % 2 = 1 := by
  obtain ⟨-, -, -, -, -, -, -, hodd, -⟩ := hok hv
  exact hodd

section
variable {s : State} {c : Slot} (r : Nat) (l : Leak) (hok : CtxOk s.cfg (s.ctx c)) (hv : (s.ctx c).valid = true)
include hok hv

/-- A reduced value stored in R(n): what every method leaves. -/
theorem reduced_result {v y : Nat} (hvy : v = y) (hy : y < ctxM s.cfg (s.ctx c)) :
    let n := ctxLen (s.ctx c)
    let t := (s.memWrite r n v).complete 0 0 l
    t.memRead r n = some y ∧ Done t 0 0 ∧ Frame s t [⟨r, n⟩] := by
  subst hvy
  exact stored_result s r _ l (Nat.mod_eq_of_lt (hy.trans (ctxM_lt hok hv))) (Nat.two_pow_pos _)

/-- A value REDC reduces, stored in R(n) (R241). -/
theorem redc_result {T u : Nat} (hT : T < ctxM s.cfg (s.ctx c) * ctxR s.cfg (s.ctx c))
    (hu : T % ctxM s.cfg (s.ctx c) = u) :
    let n := ctxLen (s.ctx c)
    let m := ctxM s.cfg (s.ctx c)
    let bigR := ctxR s.cfg (s.ctx c)
    let t := (s.memWrite r n (redc m bigR T)).complete 0 0 l
    ∃ y, y < m ∧ y * bigR % m = u ∧ t.memRead r n = some y ∧ Done t 0 0 ∧ Frame s t [⟨r, n⟩] := by
  obtain ⟨hy, hred, -⟩ := redc_ctx hok hv hT
  exact ⟨_, hy, hred.trans hu, reduced_result r l hok hv rfl hy⟩

/-- A product of two reduced values is in the range of REDC (R241). -/
theorem mul_lt_redc_bound {a b : Nat} (ha : a < ctxM s.cfg (s.ctx c)) (hb : b < ctxM s.cfg (s.ctx c)) :
    a * b < ctxM s.cfg (s.ctx c) * ctxR s.cfg (s.ctx c) := by
  obtain ⟨-, -, hmR⟩ := ctx_montgomery hok hv
  exact Nat.mul_lt_mul'' ha (hb.trans hmR)

end

/-! ### Contracts -/

section
variable {s : State} {c : Slot} {opc : Nat} {cls : AliasClass} {post : State → Prop}

/-- The checks every method makes before it reads, its contract listing the reduced operands first. -/
theorem completesUnder_context {ins outs rs : List Region} {P q : Prop} {f : Ctx → Out} {k : Out}
    (hf : f (s.ctx c) = checkRegions s cls ins outs k) (hq : (Contract.reads s rs).Holds ∧ P ↔ q)
    (h : (s.ctx c).valid = true → ∀ C : Contract, C.Names P .notReduced → Contract.reads s rs ⊆ C →
      CompletesWhen C q k post) :
    CompletesUnder ((P, .notReduced) ::
        (Contract.context s c opc ++ Contract.regions s cls ins outs ++ Contract.reads s rs))
      (withCtx s c opc f) post := by
  refine .of (q := CtxReady s c opc ∧ RegionsOk s cls ins outs ∧ q) ?_ (.context (fun _ hx => by simp [hx])
    fun ⟨hv, _⟩ => hf ▸ .regions (fun _ hx => by simp [hx]) fun _ =>
    h hv _ (.of_mem List.mem_cons_self id) fun _ hx => by simp [hx])
  simp only [Contract.holds_cons, Contract.holds_append, context_holds, regions_holds, ← hq]
  tauto

/-- A method of one operand: A of `count` limbs, its value below `bound`. -/
theorem completesUnder_reduceOne {r n a count bound : Nat} {f : Ctx → Out} {g : Nat → State}
    (hf : f (s.ctx c) = checkRegions s cls [⟨a, count⟩] [⟨r, n⟩] (withVal s a count fun v =>
      guardUB (v < bound) .notReduced (.next (g v))))
    (h : (s.ctx c).valid = true → valAt s a count < bound → post (g (valAt s a count))) :
    CompletesUnder ((valAt s a count < bound, .notReduced) ::
        (Contract.context s c opc ++ Contract.regions s cls [⟨a, count⟩] [⟨r, n⟩] ++ Contract.reads s [⟨a, count⟩]))
      (withCtx s c opc f) post :=
  completesUnder_context hf (q := Written s a count ∧ _ ∧ True) (by simp [reads_holds]) fun hv _ hred hreads =>
    .val (Contract.names_reads hreads (by simp)) fun _ => .guard hred fun hlt => .next (h hv hlt)

/-- A method of two operands of n limbs, both below m. -/
theorem completesUnder_reduceTwo {r n a b m : Nat} {f : Ctx → Out} {g : Nat → Nat → State}
    (hf : f (s.ctx c) = checkRegions s cls [⟨a, n⟩, ⟨b, n⟩] [⟨r, n⟩] (withVal s a n fun v => withVal s b n fun w =>
      guardUB (v < m ∧ w < m) .notReduced (.next (g v w))))
    (h : (s.ctx c).valid = true → valAt s a n < m → valAt s b n < m → post (g (valAt s a n) (valAt s b n))) :
    CompletesUnder ((valAt s a n < m ∧ valAt s b n < m, .notReduced) ::
        (Contract.context s c opc ++ Contract.regions s cls [⟨a, n⟩, ⟨b, n⟩] [⟨r, n⟩] ++
          Contract.reads s [⟨a, n⟩, ⟨b, n⟩]))
      (withCtx s c opc f) post :=
  completesUnder_context hf (q := Written s a n ∧ Written s b n ∧ _ ∧ True) (by simp [reads_holds, and_assoc])
    fun hv _ hred hreads => .val (Contract.names_reads hreads (by simp)) fun _ =>
    .val (Contract.names_reads hreads (by simp)) fun _ => .guard hred fun ⟨ha, hb⟩ => .next (h hv ha hb)

end

/-! ### What ENGRD copies (R233) -/

theorem engrdSource_eq {c : Config} {x : Ctx} {sel : Nat} (h : sel ≤ 3) : engrdSource c x sel =
    (if sel = 3 then 1 else x.modLen.toNat,
      if sel = 0 then ctxM c x else if sel = 1 then ctxRm c x else if sel = 2 then ctxR2m c x else x.k0.toNat) := by
  interval_cases sel <;> rfl

/-- Every constant of a valid context fits the limbs ENGRD gives it, and their count fits RES0. -/
theorem engrdSource_fits {c : Config} {x : Ctx} (hfit : CtxFits c x) (hok : CtxOk c x) (hv : x.valid = true)
    (sel : Nat) : (engrdSource c x sel).2 < 2 ^ (c.W * (engrdSource c x sel).1) ∧
      (engrdSource c x sel).1 < 2 ^ c.W := by
  obtain ⟨-, hlen, hk0, -, -⟩ := hfit
  have hm := ctxM_lt hok hv
  have hodd := ctxM_odd hok hv
  obtain ⟨-, -, -, -, -, -, -, -, -, -, hrm, hr2, -⟩ := hok hv
  have hmod : ∀ v, v % ctxM c x < 2 ^ (c.W * ctxLen x) := fun v => (Nat.mod_lt v (by omega)).trans hm
  unfold engrdSource
  split_ifs
  · exact ⟨hm, hlen⟩
  · exact ⟨hrm ▸ hmod _, hlen⟩
  · exact ⟨hr2 ▸ hmod _, hlen⟩
  · exact ⟨by simpa using hk0, one_lt_two_pow_W c⟩

theorem regionsOk_output {s : State} {r : Region} : RegionsOk s .none [] [r] ↔ r.base + r.count ≤ s.cfg.lmLimbs := by
  simp [RegionsOk, aliasOk_none_iff]

/-! ### ENGINIT (R232) -/

/-- What ENGINIT of slot `c` leaves unchanged, however it completes. -/
def KeepsAllButSlot (c : Slot) (s t : State) : Prop :=
  KeepsRegisters s t ∧ t.lm = s.lm ∧ ∀ k, k ≠ c → t.ctx k = s.ctx k

theorem keepsAllButSlot_setCtx_finish (c : Slot) (s : State) (x : Ctx) (e : ErrCode) (r0 r1 : Nat) (l : Leak) :
    KeepsAllButSlot c s ((s.setCtx c x).finish e r0 r1 l) :=
  ⟨by simp [KeepsRegisters], by simp, fun k hk => by rw [ctx_finish, setCtx_ctx_other s x hk]⟩

theorem enginitError_fails {o : Out} {s : State} {c : Slot} {e : ErrCode} (h : o = enginitError s c e) :
    ∃ t, o = .next t ∧ Failed t e ∧ (t.ctx c).valid = false ∧ KeepsAllButSlot c s t := by
  refine ⟨_, h, failed_completeErr _ _ _, ?_, keepsAllButSlot_setCtx_finish _ _ _ _ _ _ _⟩
  rw [ctx_completeErr, setCtx_ctx_same]
  rfl

/-- What ENGINIT does with the modulus it has read. -/
def enginitBuild (c : Slot) (s : State) (m : Nat) : Out :=
  if m % 2 = 0 then enginitError s c .badModulus
  else
    guardUB (m < 2 ^ s.opnd 1) .modulusTooWide <|
    .next ((s.setCtx c (newCtx s c m (ceilDiv (s.opnd 1) s.cfg.W) (s.opnd 1) (s.opnd 2))).complete
      (ceilDiv (s.opnd 1) s.cfg.W) 0 (Config.freeLeak s))

theorem withVal_of_written {s : State} {a n : Nat} {f : Nat → Out} (h : Written s a n) :
    withVal s a n f = f (valAt s a n) := by
  rw [withVal, memRead_of_written h, needUB_some]

theorem withVal_of_not_written {s : State} {a n : Nat} {f : Nat → Out} (h : ¬ Written s a n) :
    withVal s a n f = .fault .uninitRead := by
  rw [withVal, Option.not_isSome_iff_eq_none.mp h]
  rfl

section
variable {s : State} (c : Slot)

theorem exec_enginit_of_badSize (h : ¬ (1 ≤ s.opnd 1 ∧ s.opnd 1 ≤ s.cfg.maxModBits)) :
    exec (.enginit c) s = enginitError s c .invalidLength := if_pos (by omega)

variable (hb : 1 ≤ s.opnd 1 ∧ s.opnd 1 ≤ s.cfg.maxModBits)
include hb

theorem exec_enginit_of_noPool (hp : s.opnd 2 < 1) : exec (.enginit c) s = enginitError s c .insufficientPool :=
  (if_neg (by omega)).trans (if_pos hp)

variable (hp : 1 ≤ s.opnd 2)
include hp

theorem exec_enginit_of_operands : exec (.enginit c) s =
    guardUB (Region.inBounds s.cfg ⟨s.opnd 0, ceilDiv (s.opnd 1) s.cfg.W⟩) .outOfBounds
      (withVal s (s.opnd 0) (ceilDiv (s.opnd 1) s.cfg.W) (enginitBuild c s)) :=
  (if_neg (by omega)).trans (if_neg (by omega))

theorem exec_enginit_of_outside (h : ¬ s.opnd 0 + ceilDiv (s.opnd 1) s.cfg.W ≤ s.cfg.lmLimbs) :
    exec (.enginit c) s = .fault .outOfBounds := by
  rw [exec_enginit_of_operands c hb hp, guardUB_of_not (by simpa [Region.inBounds] using h)]

variable (hin : s.opnd 0 + ceilDiv (s.opnd 1) s.cfg.W ≤ s.cfg.lmLimbs)
include hin

theorem exec_enginit_of_inside : exec (.enginit c) s =
    withVal s (s.opnd 0) (ceilDiv (s.opnd 1) s.cfg.W) (enginitBuild c s) := by
  rw [exec_enginit_of_operands c hb hp, guardUB_of (by simpa [Region.inBounds] using hin)]

theorem exec_enginit_of_written (hw : Written s (s.opnd 0) (ceilDiv (s.opnd 1) s.cfg.W)) : exec (.enginit c) s =
    enginitBuild c s (valAt s (s.opnd 0) (ceilDiv (s.opnd 1) s.cfg.W)) := by
  rw [exec_enginit_of_inside c hb hp hin, withVal_of_written hw]

end

section
variable (c : Slot) (s : State) {m : Nat}

theorem enginitBuild_of_even (h : m % 2 = 0) : enginitBuild c s m = enginitError s c .badModulus := if_pos h

theorem enginitBuild_of_odd (h : m % 2 = 1) : enginitBuild c s m = guardUB (m < 2 ^ s.opnd 1) .modulusTooWide
    (.next ((s.setCtx c (newCtx s c m (ceilDiv (s.opnd 1) s.cfg.W) (s.opnd 1) (s.opnd 2))).complete
      (ceilDiv (s.opnd 1) s.cfg.W) 0 (Config.freeLeak s))) := if_neg (by omega)

end

/-- The sizes and the modulus ENGINIT puts into the context are the operands' and the one it read. -/
theorem newCtx_holds_operands {s : State} (c : Slot) {m b p : Nat} (hbM : b ≤ s.cfg.maxModBits)
    (hbW : b < 2 ^ s.cfg.W) (hpW : p < 2 ^ s.cfg.W) (hm : m < 2 ^ (s.cfg.W * ceilDiv b s.cfg.W)) :
    let x := newCtx s c m (ceilDiv b s.cfg.W) b p
    x.modBits.toNat = b ∧ x.modLen.toNat = ceilDiv b s.cfg.W ∧ x.poolCap.toNat = p ∧ ctxM s.cfg x = m := by
  intro x
  have hlen : x.modLen.toNat = ceilDiv b s.cfg.W :=
    wordOf_toNat_of_lt ((ceilDiv_le_self (W_pos s.cfg)).trans_lt hbW)
  refine ⟨wordOf_toNat_of_lt hbW, hlen, wordOf_toNat_of_lt hpW, ctxVal_ctxLimbs s.cfg x m ?_ ?_⟩
  · exact hlen.trans_le (ceilDiv_le_maxLimbs hbM)
  · rwa [ctxLen, hlen]

/-! ### The statements -/

/-- Settles O42: an odd m0 is invertible modulo 2^W. -/
theorem montfactorGivesTheFactor : Obligations.MontfactorGivesTheFactor :=
  ⟨rfl, fun s => .of (q := _ ∧ True) (by simp) (.guard (.of_mem List.mem_cons_self id) fun hodd => .next
    ⟨_, negInv_lt _ (Nat.two_pow_pos _), negInv_spec (one_lt_two_pow_W s.cfg) (gcd_two_pow_of_odd hodd),
      done_complete (negInv_lt _ (Nat.two_pow_pos _)) (Nat.two_pow_pos _), frame_complete s _ _ _⟩)⟩

/-- Settles O43, branch by branch: the context built is one of 10_state.md R36, and its modulus is the one read. -/
theorem enginitConstructsTheContext : Obligations.EnginitConstructsTheContext := by
  refine fun c s hs => ⟨packWord_slot_toNat (by decide) c, fun hb => enginitError_fails (exec_enginit_of_badSize c hb),
    fun hb hp => enginitError_fails (exec_enginit_of_noPool c hb hp),
    exec_enginit_of_outside c, fun hb hp hin hw => ?_, fun hb hp hin hw heven => ?_,
    fun hb hp hin hw hodd hwide => ?_, fun hb hp hin hw hodd hlt => ?_⟩
  · rw [exec_enginit_of_inside c hb hp hin, withVal_of_not_written hw]
  · exact enginitError_fails ((exec_enginit_of_written c hb hp hin hw).trans (enginitBuild_of_even c s heven))
  · rw [exec_enginit_of_written c hb hp hin hw, enginitBuild_of_odd c s hodd, guardUB_of_not (by omega)]
  · have hn : ceilDiv (s.opnd 1) s.cfg.W < 2 ^ s.cfg.W := (ceilDiv_le_self (W_pos s.cfg)).trans_lt (hs 1)
    have hm := valAt_lt s (s.opnd 0) (ceilDiv (s.opnd 1) s.cfg.W)
    obtain ⟨hbits, hlen, hpool, hM⟩ := newCtx_holds_operands c hb.2 (hs 1) (hs 2) hm
    obtain ⟨-, -, -, hlimbs, -, -, hzero, -, -, hk0, hRm, hR2m, -, hused⟩ :=
      newCtx_ok c hb.1 hb.2 (hs 1) hp (hs 2) hodd hlt hm rfl
    obtain ⟨-, -, hk0W, -, -⟩ := newCtx_fits s c (valAt s (s.opnd 0) (ceilDiv (s.opnd 1) s.cfg.W))
      (ceilDiv (s.opnd 1) s.cfg.W) (s.opnd 1) (s.opnd 2)
    rw [ctxR, ctxLen, hlen, hM] at hRm hR2m
    rw [hM] at hk0
    rw [hlen] at hzero
    rw [exec_enginit_of_written c hb hp hin hw, enginitBuild_of_odd c s hodd, guardUB_of hlt]
    refine ⟨_, rfl, done_complete (by simpa using hn) (Nat.two_pow_pos _),
      keepsAllButSlot_setCtx_finish _ _ _ _ _ _ _, ?_⟩
    rw [ctx_complete, setCtx_ctx_same]
    refine ⟨rfl, hbits, hlen, hpool, hused, hlimbs, hzero, hM, hk0, hk0W, hRm, ?_⟩
    rw [hRm, hR2m, Nat.mul_mod]

/-- Settles O44: each constant of a valid context fits the limbs it is copied to. -/
theorem engrdCopiesAConstant : Obligations.EngrdCopiesAConstant := by
  intro c s _ hfit hok
  refine ⟨packWord_slot_toNat (by decide) c, ?_⟩
  intro r sel x k v
  unfold exec execEngrd
  refine .of (q := CtxReady s c 0x22 ∧ sel ≤ 3 ∧ RegionsOk s .none [] [⟨r, k⟩] ∧ True)
    (by simp [regionsOk_output]; tauto) (.context (fun _ hx => by simp [hx]) fun ⟨hv, _⟩ =>
    .guard (.of_mem List.mem_cons_self id) fun hsel => ?_)
  obtain ⟨hval, hcount⟩ := engrdSource_fits hfit hok hv sel
  rw [engrdSource_eq hsel] at hval hcount ⊢
  exact .regionsOf (.of_mem (List.mem_cons_of_mem _ List.mem_cons_self) fun h => by simpa using h)
    (fun hn => absurd rfl hn) fun _ =>
    .next (stored_result s r _ _ (Nat.mod_eq_of_lt hval) hcount)

/-- Settles O45: one conditional subtraction, or one modulus added back, reduces the result. -/
theorem modularAddAndSubtract : Obligations.ModularAddAndSubtract := by
  refine fun c s hok => ⟨packWord_slot_toNat (by decide) c, packWord_slot_toNat (by decide) c, ?_, ?_⟩
  · unfold exec execMadd methodBinary
    refine completesUnder_reduceTwo rfl fun hv ha hb => ?_
    exact reduced_result _ _ hok hv (maddVal_eq ha hb) (Nat.mod_lt _ (Nat.zero_lt_of_lt ha))
  · unfold exec execMsub methodBinary
    refine completesUnder_reduceTwo rfl fun hv ha hb => ?_
    exact reduced_result _ _ hok hv (msubVal_eq ha hb) (Nat.mod_lt _ (Nat.zero_lt_of_lt ha))

/-- Settles O46: the four values; halving needs the modulus odd. -/
theorem modularNegateHalveDoubleTriple : Obligations.ModularNegateHalveDoubleTriple := by
  refine fun c s hok => ⟨⟨packWord_slot_toNat (by decide) c, ?_⟩, ⟨packWord_slot_toNat (by decide) c, ?_⟩,
    ⟨packWord_slot_toNat (by decide) c, ?_⟩, ⟨packWord_slot_toNat (by decide) c, ?_⟩⟩
  · unfold exec execMneg methodUnary
    refine completesUnder_reduceOne rfl fun hv ha => ?_
    obtain ⟨hy, hneg⟩ := mnegVal_spec ha
    exact ⟨_, hy, hneg, reduced_result _ _ hok hv rfl hy⟩
  · unfold exec execMdiv2 methodUnary
    refine completesUnder_reduceOne rfl fun hv ha => ?_
    obtain ⟨hy, hhalf⟩ := mdiv2Val_spec (ctxM_odd hok hv) ha
    exact ⟨_, hy, hhalf, reduced_result _ _ hok hv rfl hy⟩
  · unfold exec execMmul2 methodUnary
    refine completesUnder_reduceOne rfl fun hv ha => ?_
    have hm := Nat.zero_lt_of_lt ha
    exact ⟨_, Nat.mod_lt _ hm, by rw [Nat.two_mul], reduced_result _ _ hok hv rfl (Nat.mod_lt _ hm)⟩
  · unfold exec execMmul3 methodUnary
    refine completesUnder_reduceOne rfl fun hv ha => ?_
    have hm := Nat.zero_lt_of_lt ha
    exact ⟨_, Nat.mod_lt _ hm, add_double_mod _ _, reduced_result _ _ hok hv rfl (Nat.mod_lt _ hm)⟩

/-- Settles O47: a product of two reduced values is below m·R, where REDC divides by R modulo m. -/
theorem montgomeryProducts : Obligations.MontgomeryProducts := by
  refine fun c s hok => ⟨packWord_slot_toNat (by decide) c, packWord_slot_toNat (by decide) c, ?_, ?_⟩
  · unfold exec execMmul methodBinary
    refine completesUnder_reduceTwo rfl fun hv ha hb => ?_
    exact redc_result _ _ hok hv (mul_lt_redc_bound hok hv ha hb) rfl
  · unfold exec execMsqr methodUnary
    refine completesUnder_reduceOne rfl fun hv ha => ?_
    exact redc_result _ _ hok hv (mul_lt_redc_bound hok hv ha ha) rfl

/-- Settles O48: MENC is a product with R² mod m, and a reduced value is below m·R as 1 < R. -/
theorem montgomeryEncodeDecodeReduce : Obligations.MontgomeryEncodeDecodeReduce := by
  refine fun c s hok => ⟨packWord_slot_toNat (by decide) c, packWord_slot_toNat (by decide) c,
    packWord_slot_toNat (by decide) c, ?_, ?_, ?_⟩
  · unfold exec execMenc methodUnary
    refine completesUnder_reduceOne rfl fun hv ha => ?_
    obtain ⟨-, -, -, -, -, -, -, -, -, -, -, hr2, -⟩ := hok hv
    obtain ⟨hg, hR, hmR⟩ := ctx_montgomery hok hv
    exact reduced_result _ _ hok hv (redc_encode hR hg hmR hr2 ha) (Nat.mod_lt _ (Nat.zero_lt_of_lt ha))
  · unfold exec execMdec methodUnary
    refine completesUnder_reduceOne rfl fun hv ha => ?_
    obtain ⟨-, hR, -⟩ := ctx_montgomery hok hv
    exact redc_result _ _ hok hv (ha.trans_le (Nat.le_mul_of_pos_right _ (Nat.zero_lt_of_lt hR)))
      (Nat.mod_eq_of_lt ha)
  · unfold exec execMred
    exact completesUnder_reduceOne rfl fun hv ha => redc_result _ _ hok hv ha rfl

end Sys2Proof.Machine
end


section
/-! The redundant radix as 43_redundant.md gives it: what a store of digits leaves, and one AMM quadruple checked and
stored, proved once for AMM and AMS; AMMDUAL is two quadruples whose outputs, by class NONE, do not meet. -/

namespace Sys2Proof.Machine

open Sys2Proof

/-- The word of a command whose only field is S (30_encoding.md R101, R103). -/
theorem packWord_digitSize_toNat {opc : Nat} (h : opc ≤ 255) (dg : DigitSize) :
    (packWord opc 0 0 dg.bit 0).toNat = opc + 1024 * dg.bit := by
  have := digitSize_bit_le dg
  simp only [packWord, BitVec.toNat_ofNat]
  omega

/-! ### Results -/

section
variable {s : State} {d : Nat} (hd : d ≤ s.cfg.W)
include hd

/-- A value stored as digits: what every command that writes one digit region leaves (R280). -/
theorem stored_digits (out n : Nat) (l : Leak) {v : Nat} (hv : v < 2 ^ (d * n)) :
    DigitsAt ((s.digWrite d out n v).complete 0 0 l) d out n v ∧ Done ((s.digWrite d out n v).complete 0 0 l) 0 0 ∧
      Frame s ((s.digWrite d out n v).complete 0 0 l) [⟨out, n⟩] :=
  ⟨digitsAt_complete (digitsAt_digWrite_same hd out n v hv), done_complete_zero _ _,
    frame_digWrite_complete s d out n v 0 0 l⟩

/-- Two values stored as digits in disjoint regions, the second store leaving the first value alone. -/
theorem digitsAt_digWrite_digWrite {a b n v w : Nat} (hdisj : Region.disjoint ⟨a, n⟩ ⟨b, n⟩ = true)
    (hv : v < 2 ^ (d * n)) (hw : w < 2 ^ (d * n)) :
    DigitsAt ((s.digWrite d a n v).digWrite d b n w) d a n v ∧
      DigitsAt ((s.digWrite d a n v).digWrite d b n w) d b n w :=
  ⟨(digitsAt_digWrite_same hd a n v hv).congr (limbsAt_digWrite_disjoint _ d w hdisj),
    digitsAt_digWrite_same (by rwa [digWrite_cfg]) b n w hw⟩

end

theorem frame_digWrite (s : State) (d a n v : Nat) : Frame s (s.digWrite d a n v) [⟨a, n⟩] :=
  ⟨⟨by simp, by simp, by simp, by simp, by simp⟩, by simp, by simp, keepsLmOutside_digWrite s d a n v⟩

/-! ### Contracts -/

/-- AMM of one quadruple, its value stored as digits: AMM, and AMS with b = a (R284, R285). -/
theorem completesUnder_amm {s : State} {dg : DigitSize} (hd : digitBits dg ≤ s.cfg.W) (cls : AliasClass)
    (ins : List Region) (out a b m k0 len : Nat) (l : Leak) :
    CompletesUnder (Contract.regions s cls ins [⟨out, len⟩] ++ Contract.amm s dg a b m k0 len)
      (checkRegions s cls ins [⟨out, len⟩] <| withAmm s dg a b m k0 len fun v =>
        .next ((s.digWrite (digitBits dg) out len v).complete 0 0 l)) fun t =>
      ∃ y, ammValue (digitBits dg) len (dvalAt s (digitBits dg) a len) (dvalAt s (digitBits dg) b len)
          (dvalAt s (digitBits dg) m len) y ∧
        DigitsAt t (digitBits dg) out len y ∧ Done t 0 0 ∧ Frame s t [⟨out, len⟩] := by
  refine .of (q := RegionsOk s cls ins [⟨out, len⟩] ∧ (Contract.amm s dg a b m k0 len).Holds ∧ True) (by simp)
    (.regions (List.subset_append_left _ _) fun _ => .amm (List.subset_append_right _ _) fun hamm => .next ?_)
  obtain ⟨hval, hfit⟩ := amm_value hamm
  exact ⟨_, hval, stored_digits hd out len l hfit⟩

/-! ### The statements -/

/-- Settles O49: a value of inBitSize bits fits outLen digits, and one of outBitSize bits fits the limbs of R282. -/
theorem radixConvertersKeepTheValue : Obligations.RadixConvertersKeepTheValue := by
  refine fun dg s hdg => ⟨packWord_digitSize_toNat (by decide) dg, packWord_digitSize_toNat (by decide) dg, ?_, ?_⟩
  · refine completesUnder_ownChecks (pre := [_, _]) (q := s.opnd 3 ≤ s.opnd 1 * digitBits dg ∧ Written s _ _ ∧
      valAt s _ _ < 2 ^ s.opnd 3 ∧ True) (by simp [reads_holds, and_comm, and_left_comm])
      fun _ _ c hpre hreads => .guard (.of_mem (hpre (by simp)) id) fun hlen =>
      .val (Contract.names_reads hreads (by simp)) fun _ =>
      .guard (.of_mem (hpre (by simp)) id) fun hx => .next ?_
    rw [Nat.mul_comm] at hlen
    exact stored_digits (digitBits_le_W hdg) _ _ _ (hx.trans_le (Nat.pow_le_pow_right (by omega) hlen))
  · refine completesUnder_ownChecks (pre := [_, _]) (q := Written s _ _ ∧ Normalized s (digitBits dg) _ _ ∧
      dvalAt s (digitBits dg) _ _ < 2 ^ s.opnd 2 ∧ True) (by simp [reads_holds, and_comm])
      fun _ _ c hpre hreads => .digits (Contract.names_reads hreads (by simp)) (.of_mem (hpre (by simp)) id) fun _ _ =>
      .guard (.of_mem (hpre (by simp)) id) fun hy => .next ?_
    exact stored_result s _ _ _ (Nat.mod_eq_of_lt (lt_two_pow_ceilDiv (W_pos s.cfg) hy)) (Nat.two_pow_pos _)

/-- Settles O50: under its contract AMMf is the value of R283, and 4M ≤ Rd makes a value below 2M fit len digits. -/
theorem almostMontgomeryProducts : Obligations.AlmostMontgomeryProducts := fun dg _ hdg =>
  have hd := digitBits_le_W hdg
  ⟨packWord_digitSize_toNat (by decide) dg, packWord_digitSize_toNat (by decide) dg,
    completesUnder_amm hd _ _ _ _ _ _ _ _ _, completesUnder_amm hd _ _ _ _ _ _ _ _ _⟩

/-- Settles O51: both values are taken before the first store, and class NONE keeps the second store off the first
output. -/
theorem dualAlmostMontgomeryProducts : Obligations.DualAlmostMontgomeryProducts := by
  refine fun dg s hdg => ⟨packWord_digitSize_toNat (by decide) dg, ?_⟩
  intro d len reg val
  refine .of (q := RegionsOk s .none [reg 1, reg 2, reg 3, reg 6, reg 7, reg 8] [reg 0, reg 5] ∧
    (Contract.amm s dg (s.opnd 1) (s.opnd 2) (s.opnd 3) (s.opnd 4) len).Holds ∧
    (Contract.amm s dg (s.opnd 6) (s.opnd 7) (s.opnd 8) (s.opnd 9) len).Holds ∧ True) (by simp)
    (.regions (fun _ hx => by simp [hx]) fun hreg => .amm (fun _ hx => by simp [hx]) fun hamm0 =>
      .amm (fun _ hx => by simp [hx]) fun hamm1 => .next ?_)
  have hd : d ≤ s.cfg.W := digitBits_le_W hdg
  have hdisj : (reg 0).disjoint (reg 5) = true := by
    simpa [pairwiseDisjoint, Region.disjointAll] using (aliasOk_none_disjoint hreg.2).1
  obtain ⟨hval0, hfit0⟩ := amm_value hamm0
  obtain ⟨hval1, hfit1⟩ := amm_value hamm1
  obtain ⟨hout0, hout1⟩ := digitsAt_digWrite_digWrite hd hdisj hfit0 hfit1
  exact ⟨_, _, hval0, hval1, digitsAt_complete hout0, digitsAt_complete hout1, done_complete_zero _ _,
    (frame_digWrite s d _ _ _).trans (frame_digWrite_complete _ _ _ _ _ _ _ _)⟩

end Sys2Proof.Machine
end

section
/-! The scramble table as 44_scramble.md gives it: a table is stored and loaded by the limbs of one entry at stride N,
and the constant-time scan gives the very limbs the strided read gives, so both loads leave the same. -/

namespace Sys2Proof.Machine

open Sys2Proof

/-- The word of a command whose only field is WIN (30_encoding.md R101, R103). -/
theorem packWord_win_toNat {opc : Nat} (h : opc ≤ 255) (w : Win) :
    (packWord opc 0 0 0 w.toNat).toNat = opc + 4096 * w.toNat := by
  have := win_toNat_le w
  simp only [packWord, BitVec.toNat_ofNat]
  omega

/-! ### Contracts -/

theorem CompletesUnder.perm {c c' : Contract} {o : Out} {post : State → Prop} (hp : c.Perm c')
    (h : CompletesUnder c o post) : CompletesUnder c' o post := by
  simpa only [CompletesUnder, Contract.Holds, hp.mem_iff] using h

/-- A size query: its length is positive and its size fits RES0 (R310, 45_exponentiation.md R331). -/
theorem completesUnder_sizeQuery (s : State) (x size : Nat) (l : Leak) :
    CompletesUnder [(1 ≤ x, .zeroLength), (size < 2 ^ s.cfg.W, .badLength)]
      (guardUB (1 ≤ x) .zeroLength <| guardUB (size < 2 ^ s.cfg.W) .badLength <| .next (s.complete size 0 l))
      (fun t => Done t size 0 ∧ Frame s t []) :=
  .of (q := 1 ≤ x ∧ size < 2 ^ s.cfg.W ∧ True) (by simp) (.guard (.of_mem (by simp) id) fun _ =>
    .guard (.of_mem (by simp) id) fun hsize =>
    .next ⟨done_complete hsize (Nat.two_pow_pos _), frame_complete s size 0 l⟩)

/-- The checks of SCRPUT, SCRGET and SCRGETCT: regions, entry length, index, and `P`, that the limbs read are written
(R311 to R314). -/
theorem completesUnder_entryChecked {s : State} {ins outs : List Region} {n idx bigN st a k : Nat} {P : Prop}
    {f : List Nat → State} {post : State → Prop} (hP : P ↔ ∃ l, s.limbsAt st a k = some l)
    (h : idx < bigN → ∀ l, s.limbsAt st a k = some l → post (f l)) :
    CompletesUnder
      ((1 ≤ n, .zeroLength) :: (idx < bigN, .badIndex) :: (Contract.regions s .none ins outs ++ [(P, .uninitRead)]))
      (checkRegions s .none ins outs <| guardUB (1 ≤ n) .zeroLength <| guardUB (idx < bigN) .badIndex <|
        withLimbs s st a k fun l => .next (f l)) post := by
  refine .of (q := RegionsOk s .none ins outs ∧ 1 ≤ n ∧ idx < bigN ∧ ∃ l, s.limbsAt st a k = some l ∧ True) ?_
    (.regions (fun _ hx => by simp [hx]) fun _ => .guard (.of_mem (by simp) id) fun _ =>
      .guard (.of_mem (by simp) id) fun hidx => .limbs (.of_mem (P := P) (by simp) fun hp => ?_) fun l hl =>
      .next (h hidx l hl))
  · simp only [Contract.holds_cons, Contract.holds_append, regions_holds, Contract.holds_nil, hP, and_true]
    tauto
  · exact Option.isSome_iff_exists.mpr (hP.mp hp)

theorem written_region_iff {s : State} {a n : Nat} :
    (∀ q ∈ [(⟨a, n⟩ : Region)], Written s q.base q.count) ↔ ∃ l, s.limbsAt 1 a n = some l := by
  simp [written_iff_limbsAt]

/-! ### One entry (R311) -/

/-- Limbs read at one stride and stored at another: limb j of the target is limb j of the source. -/
theorem limbAt_setLimbs_copied {s : State} {st st' a b n j : Nat} {xs : List Nat}
    (hx : s.limbsAt st a n = some xs) (hst' : 0 < st') (hj : j < n) :
    (State.setLimbs st' s b xs).limbAt (b + j * st') = s.limbAt (a + j * st) := by
  have hlen : j < xs.length := by rwa [limbsAt_length hx]
  rw [limbAt_setLimbs_inside s hst' b xs hlen, limbAt_of_limbsAt hx hlen,
    Nat.mod_eq_of_lt (limbsAt_lt hx (List.getElem_mem hlen))]

theorem keepsLmOutside_setLimbs_stride (s : State) (st a : Nat) (l : List Nat) {n : Nat} (hn : l.length = n) :
    KeepsLmOutside s (State.setLimbs st s a l) ((List.range n).map fun j => ⟨a + j * st, 1⟩) := by
  subst hn
  exact fun b hb => byteAt_setLimbs_outside s st a l fun j hj =>
    hb _ (List.mem_map.mpr ⟨j, List.mem_range.mpr hj, rfl⟩)

/-- The entry loaded into value(n): what SCRGET and SCRGETCT leave (R313, R314). -/
theorem entry_loaded {s : State} {bigN table idx value n : Nat} {xs : List Nat} (l : Leak)
    (hx : s.limbsAt bigN (table + idx) n = some xs) :
    let t := (State.setLimbs 1 s value xs).complete 0 0 l
    (∀ j, j < n → (s.limbAt (table + j * bigN + idx)).isSome ∧
      t.limbAt (value + j) = s.limbAt (table + j * bigN + idx)) ∧
    Done t 0 0 ∧ Frame s t [⟨value, n⟩] := by
  refine ⟨fun j hj => ?_, done_complete_zero _ _,
    frame_finish_setLimbs (keepsLmOutside_setLimbs s _ _ (limbsAt_length hx)) _ _ _ _⟩
  rw [Nat.add_right_comm]
  refine ⟨limbsAt_isSome_iff.mp ⟨xs, hx⟩ j hj, ?_⟩
  have hcopy := limbAt_setLimbs_copied (b := value) hx Nat.one_pos hj
  rwa [Nat.mul_one] at hcopy

/-- The constant-time scan of a written table gives the limbs of entry idx (R314). -/
theorem limbsAt_entry_of_table {s : State} {bigN table idx n : Nat} {l : List Nat} (hidx : idx < bigN)
    (hl : s.limbsAt 1 table (bigN * n) = some l) :
    s.limbsAt bigN (table + idx) n = some (scanTable s.cfg.W idx bigN n l) := by
  have hlen := limbsAt_length hl
  have hlimb : ∀ j, j < n → s.limbAt (table + idx + j * bigN) = some (l.getD (j * bigN + idx) 0) := by
    intro j hj
    have hrow : j * bigN + idx < l.length := by
      calc j * bigN + idx < (j + 1) * bigN := by rw [Nat.succ_mul]; omega
        _ ≤ l.length := by rw [hlen, Nat.mul_comm]; exact Nat.mul_le_mul_left _ hj
    rw [List.getD_eq_getElem _ _ hrow, ← limbAt_of_limbsAt hl hrow]
    congr 1
    omega
  rw [scanTable_spec s.cfg.W idx bigN hidx n l hlen fun x hx => limbsAt_lt hl hx]
  have hread := limbsAt_of_limbAt (s := s) (st := bigN) (a := table + idx)
    (List.ofFn (n := n) fun j => l.getD (j.val * bigN + idx) 0) fun j hj => by
      rw [hlimb j (by simpa using hj), List.getElem_ofFn]
  rwa [List.length_ofFn] at hread

/-! ### Sizes -/

/-- The window width by ranges of the bit size (45_exponentiation.md R330). -/
theorem winSize_table (x : Nat) : (x ≤ 41 → winSize x = 1) ∧ (41 < x → x ≤ 178 → winSize x = 2) ∧
    (178 < x → x ≤ 717 → winSize x = 3) ∧ (717 < x → x ≤ 2666 → winSize x = 4) ∧
    (2666 < x → x ≤ 4096 → winSize x = 5) ∧ (4096 < x → winSize x = 6) := by
  unfold winSize
  split_ifs <;> omega

theorem winSize_lt (c : Config) (x : Nat) : winSize x < 2 ^ c.W := by
  have htable := winSize_table x
  have hW := W_eq_bpl c
  have hbpl := bpl_pos c
  exact lt_of_le_of_lt (by omega : winSize x ≤ c.W) Nat.lt_two_pow_self

/-! ### The statements -/

/-- Settles O52: the table size is the least multiple of the cache line that holds the entries. -/
theorem sizeQueries : Obligations.SizeQueries :=
  fun w s hwf _ => ⟨rfl, packWord_win_toNat (by decide) w, packWord_win_toNat (by decide) w,
    ⟨_, scrSize_spec s.cfg hwf _ _, completesUnder_sizeQuery s _ _ _⟩,
    ⟨_, fun h0 => if_pos h0, fun h0 => ⟨_, scrSize_spec s.cfg hwf _ _, if_neg h0⟩, completesUnder_sizeQuery s _ _ _⟩,
    ⟨_, _, rfl, done_complete (winSize_lt s.cfg _) (Nat.two_pow_pos _), frame_complete s _ _ _, winSize_table _⟩⟩

/-- Settles O53: limb j of the value is stored at stride N, and only those limbs are. -/
theorem scrputStoresOneEntry : Obligations.ScrputStoresOneEntry := by
  refine fun w s => ⟨packWord_win_toNat (by decide) w,
    completesUnder_entryChecked written_region_iff fun _ xs hx => ?_⟩
  simp only [Nat.add_right_comm _ _ (s.opnd 1)]
  refine ⟨fun j hj => ?_, done_complete_zero _ _,
    frame_finish_setLimbs (keepsLmOutside_setLimbs_stride s _ _ xs (limbsAt_length hx)) _ _ _ _⟩
  have hcopy := limbAt_setLimbs_copied (b := s.opnd 0 + s.opnd 1) hx (Nat.two_pow_pos w.toNat) hj
  rwa [Nat.mul_one] at hcopy

/-- Settles O54: SCRGETCT's scan gives the limbs SCRGET reads. -/
theorem scrgetLoadsOneEntry : Obligations.ScrgetLoadsOneEntry := by
  refine fun w s => ⟨packWord_win_toNat (by decide) w, packWord_win_toNat (by decide) w,
    .perm (List.perm_append_singleton _ _) (completesUnder_entryChecked ?_ fun _ xs hx => entry_loaded _ hx),
    completesUnder_entryChecked written_region_iff fun hidx xs hx => ?_⟩
  · simp only [limbsAt_isSome_iff, Nat.add_right_comm]
  · obtain ⟨hload, hdone, hframe⟩ := entry_loaded _ (limbsAt_entry_of_table hidx hx)
    refine ⟨hload, hdone, hframe, ?_, rfl⟩
    rw [complete_leak, scrgetctLeak, scrgetctTrace_eq]
    simp only [Nat.zero_add]

end Sys2Proof.Machine
end

section
/-! Exponentiation as 45_exponentiation.md gives it: the method of each rule computes the power on Montgomery
forms, so what a single exponentiation leaves is proved once, for any method; DUALEXPWINCT is two of them whose outputs,
by class NONE, do not meet. -/

namespace Sys2Proof.Machine

open Sys2Proof

/-- The word of a command whose fields are C, D and WIN (30_encoding.md R101, R103). -/
theorem packWord_exp_toNat {opc cbit win : Nat} (h : opc ≤ 255) (hc : cbit ≤ 1) (dom : Domain) (hw : win ≤ 7) :
    (packWord opc cbit dom.bit 0 win).toNat = opc + 256 * cbit + 512 * dom.bit + 4096 * win := by
  have := domain_bit_le dom
  simp only [packWord, BitVec.toNat_ofNat]
  omega

/-! ### The methods over a valid context (R333, R335 to R338) -/

/-- `pow m R rm v e bits` is a method of R335 to R338: from MontgomeryOne, the Montgomery form `v` of a base and an
exponent of `bits` bits it computes the Montgomery form of the power. -/
def PowerMethod (pow : Nat → Nat → Nat → Nat → Nat → Nat → Nat) : Prop :=
  ∀ m R x v e bits, 1 < R → Nat.gcd m R = 1 → m < R → 0 < m → Represents m R v x → e < 2 ^ bits →
    Represents m R (pow m R (R % m) v e bits) (x ^ e)

theorem powerMethod_powBin : PowerMethod powBin :=
  fun _ _ _ _ _ _ hR hg hmR => represents_powBin hR hg hmR

theorem powerMethod_powBinCt : PowerMethod powBinCt :=
  fun _ _ _ _ _ _ hR hg hmR => represents_powBinCt hR hg hmR

theorem powerMethod_powWin {w : Nat} (hw : 1 ≤ w) : PowerMethod fun m R rm v e bits => powWin m R rm v e bits w :=
  fun _ _ _ _ _ _ hR hg hmR hm => represents_powWin hR hg hmR hm hw

theorem powerMethod_powWinCt {w : Nat} (hw : 1 ≤ w) :
    PowerMethod fun m R rm v e bits => powWinCt m R rm v e bits w :=
  fun _ _ _ _ _ _ hR hg hmR hm => represents_powWinCt hR hg hmR hm hw

/-- Encode, run and decode over a valid context, by any method, give the power of R333, which is reduced. -/
theorem expResult_of_powerMethod {pow : Nat → Nat → Nat → Nat → Nat → Nat → Nat} (hp : PowerMethod pow) {s : State}
    {c : Slot} (hok : CtxOk s.cfg (s.ctx c)) (hv : (s.ctx c).valid = true) (dom : Domain) {xv e bits : Nat}
    (hx : xv < ctxM s.cfg (s.ctx c)) (he : e < 2 ^ bits) :
    let m := ctxM s.cfg (s.ctx c)
    let y := expResult s.cfg (s.ctx c) dom (fun m R b => pow m R (ctxRm s.cfg (s.ctx c)) b e bits) xv
    isPower dom m (ctxR s.cfg (s.ctx c)) xv e y ∧ y < m := by
  obtain ⟨hg, hR, hmR⟩ := ctx_montgomery hok hv
  obtain ⟨-, -, -, -, -, -, -, -, -, -, hrm, hr2, -⟩ := hok hv
  refine expResult_isPower hR hg hmR dom (fun m R b => pow m R (ctxRm s.cfg (s.ctx c)) b e bits) hr2 hx
    fun _ _ hb => ?_
  rw [hrm]
  exact hp _ _ _ _ _ _ hR hg hmR (Nat.zero_lt_of_lt hx) hb he

/-- What the contract of one exponentiation says of the values read (R332). -/
theorem exponent_holds_bounds {s : State} {x : Ctx} {xb eb bits : Nat}
    (h : (Contract.exponent s x xb eb bits).Holds) :
    valAt s xb (ctxLen x) < ctxM s.cfg x ∧ valAt s eb (ceilDiv bits s.cfg.W) < 2 ^ bits := by
  simp only [Contract.exponent, Contract.holds_cons, Contract.holds_nil, and_true] at h
  obtain ⟨-, -, hx, he⟩ := h
  exact ⟨hx, he⟩

/-! ### Results (R334) -/

/-- Scratch drawn after the results are stored leaves a result off it alone. -/
theorem memRead_havoc_complete (u : State) (a n r0 r1 : Nat) (l : Leak) {b k : Nat}
    (hd : Region.disjoint ⟨b, k⟩ ⟨a, n⟩ = true) :
    ((u.havoc a n).complete r0 r1 l).memRead b k = u.memRead b k := by
  rw [memRead_complete, memRead_havoc_disjoint u hd]

theorem written_havoc_complete (u : State) (a n r0 r1 : Nat) (l : Leak) :
    Written ((u.havoc a n).complete r0 r1 l) a n := by
  rw [Written, memRead_complete]
  exact memRead_havoc_isSome u a n

/-! ### The single exponentiations (R332) -/

/-- Class A1 with a scratch region: Y is off it. -/
theorem disjoint_scratch_of_aliasOk_a1 {i y scratch : Region} {is : List Region}
    (h : aliasOk .a1 (i :: is) [y, scratch] = true) : y.disjoint scratch = true :=
  List.rel_of_pairwise_cons (aliasOk_a1_iff.mp h).1 (by simp)

/-- A single exponentiation by any method. -/
theorem completesUnder_expSingle {pow : Nat → Nat → Nat → Nat → Nat → Nat → Nat} (hp : PowerMethod pow) {s : State}
    {c : Slot} (hok : CtxOk s.cfg (s.ctx c)) (dom : Domain) (opc win : Nat) (l : Leak) :
    let n := ctxLen (s.ctx c)
    let ne := ceilDiv (s.opnd 3) s.cfg.W
    let size := expBuf s.cfg n win
    CompletesUnder
      (Contract.context s c opc ++
        Contract.regions s .a1 [⟨s.opnd 1, n⟩, ⟨s.opnd 2, ne⟩] [⟨s.opnd 0, n⟩, ⟨s.opnd 4, size⟩] ++
        Contract.exponent s (s.ctx c) (s.opnd 1) (s.opnd 2) (s.opnd 3))
      (expSingle s c opc win
        (fun x xv ev bits => expResult s.cfg x dom (fun m R b => pow m R (ctxRm s.cfg x) b ev bits) xv)
        fun t => t.complete 0 0 l)
      fun t => ∃ v, isPower dom (ctxM s.cfg (s.ctx c)) (ctxR s.cfg (s.ctx c)) (valAt s (s.opnd 1) n)
          (valAt s (s.opnd 2) ne) v ∧
        t.memRead (s.opnd 0) n = some v ∧ Written t (s.opnd 4) size ∧ Done t 0 0 ∧
        Frame s t [⟨s.opnd 0, n⟩, ⟨s.opnd 4, size⟩] := by
  intro n ne size
  unfold expSingle
  refine .of (q := CtxReady s c opc ∧
    RegionsOk s .a1 [⟨s.opnd 1, n⟩, ⟨s.opnd 2, ne⟩] [⟨s.opnd 0, n⟩, ⟨s.opnd 4, size⟩] ∧
    (Contract.exponent s (s.ctx c) (s.opnd 1) (s.opnd 2) (s.opnd 3)).Holds ∧ True) (by simp)
    (.context (fun _ hx => by simp [hx]) fun ⟨hv, _⟩ => .regions (fun _ hx => by simp [hx]) fun hreg =>
      .expOperands (fun _ hx => by simp [hx]) fun hexp => .next ?_)
  obtain ⟨hx, he⟩ := exponent_holds_bounds hexp
  obtain ⟨hval, hlt⟩ := expResult_of_powerMethod hp hok hv dom hx he
  refine ⟨_, hval, ?_, written_havoc_complete _ _ _ _ _ _, done_complete_zero _ _,
    (frame_memWrite s _ _ _).trans (frame_havoc_complete _ _ _ _ _ _)⟩
  rw [memRead_havoc_complete _ _ _ _ _ _ (disjoint_scratch_of_aliasOk_a1 hreg.2), memRead_memWrite_same,
    Nat.mod_eq_of_lt (hlt.trans (ctxM_lt hok hv))]

/-! ### The statements -/

/-- Settles O55: the commands differ in their method and window only, and each method computes the power. -/
theorem exponentiationsGiveThePower : Obligations.ExponentiationsGiveThePower := by
  intro c dom w s hw hok
  have hc := slot_bit_le c
  have hwin := win_toNat_le w
  refine ⟨⟨packWord_exp_toNat (by decide) hc dom (by decide), ?_⟩,
    ⟨packWord_exp_toNat (by decide) hc dom (by decide), ?_⟩,
    ⟨packWord_exp_toNat (by decide) hc dom hwin, ?_⟩, ⟨packWord_exp_toNat (by decide) hc dom hwin, ?_⟩⟩
  · unfold exec execExpbin
    exact completesUnder_expSingle powerMethod_powBin hok dom _ _ _
  · unfold exec execExpbinct
    exact completesUnder_expSingle powerMethod_powBinCt hok dom _ _ _
  · unfold exec execExpwin
    exact completesUnder_expSingle (powerMethod_powWin hw) hok dom _ _ _
  · unfold exec execExpwinct
    exact completesUnder_expSingle (powerMethod_powWinCt hw) hok dom _ _ _

/-- Settles O56: both values are taken before the first store, and class NONE keeps the second store and the scratch
off the first output. -/
theorem dualExponentiationGivesBothPowers : Obligations.DualExponentiationGivesBothPowers := by
  refine fun dom w s hw hok0 hok1 => ⟨packWord_exp_toNat (by decide) (by decide) dom (win_toNat_le w), ?_⟩
  intro n size ne
  unfold exec execDualexpwinct
  refine .of (q := CtxReady s .c0 0x56 ∧ CtxReady s .c1 0x56 ∧ s.ctx0.modLen = s.ctx1.modLen ∧
    RegionsOk s .none
      [⟨s.opnd 1, n⟩, ⟨s.opnd 2, ne (s.opnd 3)⟩, ⟨s.opnd 5, n⟩, ⟨s.opnd 6, ne (s.opnd 7)⟩]
      [⟨s.opnd 0, n⟩, ⟨s.opnd 4, n⟩, ⟨s.opnd 8, size⟩] ∧
    (Contract.exponent s s.ctx0 (s.opnd 1) (s.opnd 2) (s.opnd 3)).Holds ∧
    (Contract.exponent s s.ctx1 (s.opnd 5) (s.opnd 6) (s.opnd 7)).Holds ∧ True) (by simp; tauto)
    (.context (fun _ hx => by simp [hx]) fun ⟨hv0, _⟩ => .context (fun _ hx => by simp [hx]) fun ⟨hv1, _⟩ =>
      .guard (.of_mem List.mem_cons_self id) fun hlen => .regions (fun _ hx => by simp [hx]) fun hreg =>
      .expOperands (fun _ hx => by simp [hx]) fun hexp0 => .expOperands (fun _ hx => by simp [hx]) fun hexp1 =>
      .next ?_)
  have hp := powerMethod_powWinCt hw
  have hn : ctxLen s.ctx1 = n := congrArg BitVec.toNat hlen.symm
  obtain ⟨hx0, he0⟩ := exponent_holds_bounds hexp0
  obtain ⟨hx1, he1⟩ := exponent_holds_bounds hexp1
  obtain ⟨hval0, hlt0⟩ := expResult_of_powerMethod hp (c := .c0) hok0 hv0 dom hx0 he0
  obtain ⟨hval1, hlt1⟩ := expResult_of_powerMethod hp (c := .c1) hok1 hv1 dom hx1 he1
  have hfit0 := hlt0.trans (ctxM_lt hok0 hv0)
  have hfit1 := hlt1.trans (ctxM_lt hok1 hv1)
  simp only [State.ctx, hn] at hval1 hfit1 ⊢
  have hdisj := (aliasOk_none_iff.mp hreg.2).1
  simp only [List.pairwise_cons, List.forall_mem_cons, List.not_mem_nil, false_implies, implies_true,
    List.Pairwise.nil, and_true] at hdisj
  obtain ⟨⟨hyy, hys0⟩, hys1⟩ := hdisj
  obtain ⟨hout0, hout1⟩ := memRead_memWrite_memWrite s hyy hfit0 hfit1
  refine ⟨_, _, hval0, hval1, ?_, ?_, written_havoc_complete _ _ _ _ _ _, done_complete_zero _ _,
    ((frame_memWrite s _ _ _).trans (frame_memWrite _ _ _ _)).trans (frame_havoc_complete _ _ _ _ _ _)⟩
  · rw [memRead_havoc_complete _ _ _ _ _ _ hys0]
    exact hout0
  · rw [memRead_havoc_complete _ _ _ _ _ _ hys1]
    exact hout1

end Sys2Proof.Machine
end

section
/-! Octet strings and NOP as 46_octet_misc.md gives them: the checks OS2BN and BN2OS share are proved once, whichever of
the two regions is the output; then each command is what it reads and what it stores. -/

namespace Sys2Proof.Machine

open Sys2Proof

/-! ### The octet string: its limbs, its value, its octets (R72, R73, R77) -/

/-- A length in limbs is enough for the octets exactly when the octets fit (R360). -/
theorem ceilDiv_le_iff {a b n : Nat} (hb : 0 < b) : ceilDiv a b ≤ n ↔ a ≤ n * b := by
  rw [Nat.mul_comm]
  exact ceilDiv_le_iff_le_mul hb

theorem region_disjoint_comm {r q : Region} : r.disjoint q = true ↔ q.disjoint r = true :=
  ⟨region_disjoint_symm, region_disjoint_symm⟩

/-- `limbCover_disjoint_iff` for the empty limb region too, which no octet lies in. -/
theorem limbCover_disjoint_iff_forall (c : Config) (b len r n : Nat) :
    Region.disjoint (limbCover c b len) ⟨r, n⟩ = true ↔
      ∀ i, i < len → ¬ (r ≤ (b + i) / c.bpl ∧ (b + i) / c.bpl < r + n) := by
  rcases Nat.eq_zero_or_pos n with rfl | hn
  · exact iff_of_true (by simp [Region.disjoint]) fun i _ h => by omega
  · exact limbCover_disjoint_iff c b len r n hn

/-- Class NONE between one input and one output region. -/
theorem aliasOk_none_pair {i o : Region} : aliasOk .none [i] [o] = true ↔ o.disjoint i = true := by
  simp [aliasOk_none_iff]

theorem octetsRead_isSome_iff {s : State} {b k : Nat} : (s.octetsRead b k).isSome ↔ OctetsWritten s b k := by
  rw [State.octetsRead, Option.isSome_map, readBytes_isSome_iff, OctetsWritten]

theorem octetSum_of_octetsRead {s : State} {b k v : Nat} (h : s.octetsRead b k = some v) : octetSum s b k = v := by
  obtain ⟨l, hl, rfl⟩ := Option.map_eq_some_iff.mp h
  exact octetSum_eq s b k l hl

theorem octetsRead_lt {s : State} {b k v : Nat} (h : s.octetsRead b k = some v) : v < 2 ^ (8 * k) := by
  obtain ⟨l, hl, rfl⟩ := Option.map_eq_some_iff.mp h
  have := bytesVal_lt l.reverse
  rwa [List.length_reverse, readBytes_length hl] at this

/-- An octet string of at most n limbs' length has a value of n limbs (R360). -/
theorem octetsRead_fits {s : State} {b k n v : Nat} (h : s.octetsRead b k = some v) (hk : k ≤ n * s.cfg.bpl) :
    v < 2 ^ (s.cfg.W * n) := by
  refine (octetsRead_lt h).trans_le (Nat.pow_le_pow_right (by omega) ?_)
  calc 8 * k ≤ 8 * (n * s.cfg.bpl) := Nat.mul_le_mul_left 8 hk
    _ = s.cfg.W * n := by rw [W_eq_bpl]; ring

theorem valBytes_getElem {k v i : Nat} (h : i < (valBytes k v).length) :
    (valBytes k v)[i] = BitVec.ofNat 8 (v / 2 ^ (8 * i)) := by
  refine BitVec.eq_of_toNat_eq ?_
  simp [valBytes, radixDigits_getElem]

/-- The octets of a stored string, the one at the lowest address most significant (R73). -/
theorem byteAt_octetsWrite_inside (s : State) (b v : Nat) {k i : Nat} (hi : i < k) :
    Memory.byteAt (s.octetsWrite b k v).lm (b + i) = some (BitVec.ofNat 8 (v / 2 ^ (8 * (k - 1 - i)))) := by
  rw [octetsWrite_lm, byteAt_writeBytes_inside _ _ _ (by simpa using hi), List.getElem_reverse, valBytes_getElem,
    valBytes_length]

theorem byteAt_octetsWrite_outside (s : State) (v : Nat) {b k c : Nat} (h : ¬ (b ≤ c ∧ c < b + k)) :
    Memory.byteAt (s.octetsWrite b k v).lm c = Memory.byteAt s.lm c := by
  rw [octetsWrite_lm, byteAt_writeBytes_outside]
  rw [List.length_reverse, valBytes_length]
  omega

/-! ### The contract of OS2BN and BN2OS, check by check -/

section
variable {s : State} {q : Prop} {post : State → Prop}

/-- The checks of both commands before they read: bounds of the octets and of the limbs, overlap, the limb count; `rest`
is what the contract asks further. -/
theorem completesUnder_octetRegions {b len r n : Nat} {ins outs : List Region} {clear : Prop} {rest : Contract}
    {k : Out}
    (hclear : aliasOk .none ins outs = true ↔ clear) (hrest : rest.Holds ↔ q)
    (h : 1 ≤ n → ∀ c : Contract, rest ⊆ c → CompletesWhen c q k post) :
    CompletesUnder
      ((r + n ≤ s.cfg.lmLimbs ∧ b + len ≤ s.cfg.lmLimbs * s.cfg.bpl, .outOfBounds) :: (clear, .overlap) ::
        (1 ≤ n, .zeroLength) :: rest)
      (guardUB (bytesInBounds s.cfg b len ∧ Region.inBounds s.cfg ⟨r, n⟩) .outOfBounds <|
        guardUB (aliasOk .none ins outs) .overlap <| guardUB (1 ≤ n) .zeroLength k) post := by
  have hbounds : (bytesInBounds s.cfg b len = true ∧ Region.inBounds s.cfg ⟨r, n⟩ = true) ↔
      r + n ≤ s.cfg.lmLimbs ∧ b + len ≤ s.cfg.lmLimbs * s.cfg.bpl := by
    simp [bytesInBounds, Region.inBounds, and_comm]
  refine .of (q := _ ∧ _ ∧ 1 ≤ n ∧ q) ?_ (.guard (.of_mem List.mem_cons_self hbounds.mpr) fun _ =>
    .guard (.of_mem (by simp) hclear.mpr) fun _ => .guard (.of_mem (by simp) id) fun hn =>
    h hn _ fun _ hx => by simp [hx])
  simp only [Contract.holds_cons, hbounds, hclear, hrest]

theorem CompletesWhen.octets {c : Contract} {b k : Nat} {f : Nat → Out}
    (hn : c.Names (OctetsWritten s b k) .uninitRead)
    (h : s.octetsRead b k = some (octetSum s b k) → CompletesWhen c q (f (octetSum s b k)) post) :
    CompletesWhen c (OctetsWritten s b k ∧ q) (needUB (s.octetsRead b k) .uninitRead f) post := by
  refine .congr ?_ (.need (Q := fun _ => q) (fun hp => hn (mt octetsRead_isSome_iff.mpr hp)) fun v hv => ?_)
  · rw [← octetsRead_isSome_iff, Option.isSome_iff_exists, exists_and_right]
  · obtain rfl := octetSum_of_octetsRead hv
    exact h hv

end

/-- A completed byte store changes no register but the results, its LM aside: the octets are limbs in part only, so
`Frame` has no region for them. -/
theorem frame_octetsWrite_complete_lm (s : State) (b k v r0 r1 : Nat) (l : Leak) :
    Frame s { (s.octetsWrite b k v).complete r0 r1 l with lm := s.lm } [] :=
  ⟨⟨rfl, rfl, rfl, rfl, rfl⟩, rfl, rfl, fun _ _ => rfl⟩

/-! ### The statements -/

/-- Settles O59: the state is completed with results 0 and nothing stored. -/
theorem nopChangesNothingElse : Obligations.NopChangesNothingElse :=
  ⟨rfl, fun s => ⟨_, rfl, done_complete_zero s _, frame_complete s 0 0 _, rfl⟩⟩

/-- Settles O57: the octets fit n limbs, so R(n) takes their value whole, and its logical length is at most n. -/
theorem octetStringToLimbs : Obligations.OctetStringToLimbs := by
  refine ⟨rfl, fun s hs => completesUnder_octetRegions
    (q := ceilDiv (s.opnd 3) s.cfg.bpl ≤ s.opnd 1 ∧ OctetsWritten s (s.opnd 2) (s.opnd 3) ∧ True)
    (aliasOk_none_pair.trans (region_disjoint_comm.trans (limbCover_disjoint_iff_forall _ _ _ _ _)))
    (by simp [ceilDiv_le_iff (bpl_pos s.cfg)]) fun hn c hc =>
    .guard (.of_mem (hc List.mem_cons_self) (ceilDiv_le_iff (bpl_pos _)).mpr) fun hlen =>
    .octets (.of_mem (hc (by simp)) id) fun hread => .next ?_⟩
  have hfit := octetsRead_fits hread ((ceilDiv_le_iff (bpl_pos _)).mp hlen)
  obtain ⟨hmem, hdone, hframe⟩ :=
    stored_result s (s.opnd 0) _ (Config.freeLeak s) (Nat.mod_eq_of_lt hfit) (lenOf_lt_of_fits hn hfit (hs 1))
  exact ⟨_, hmem, isLength_lenOf _, hdone, hframe⟩

/-- Settles O58: the byte length is compared with outLen after the contract, and when it fits it is a word as outLen
is one. -/
theorem limbsToOctetString : Obligations.LimbsToOctetString := by
  refine ⟨rfl, fun s hs => completesUnder_octetRegions (q := Written s (s.opnd 2) (s.opnd 3) ∧ True)
    (aliasOk_none_pair.trans (limbCover_disjoint_iff_forall _ _ _ _ _)) (by simp) fun _ c hc =>
    .val (.of_mem (hc List.mem_cons_self) id) fun _ => ?_⟩
  rw [← minBytes_eq_size]
  split
  next hshort =>
    exact .next ⟨frame_finish s _ _ _ _, fun _ => ⟨failed_completeErr s _ _, rfl⟩,
      fun hfits => absurd hshort (Nat.not_lt.mpr hfits)⟩
  next hfits =>
    exact .next ⟨frame_octetsWrite_complete_lm s _ _ _ _ _ _, fun hshort => absurd hshort hfits, fun hle =>
      ⟨done_complete (hle.trans_lt (hs 1)) (Nat.two_pow_pos _), fun _ hi => byteAt_octetsWrite_inside s _ _ hi,
        fun _ hb => byteAt_octetsWrite_outside s _ hb⟩⟩

end Sys2Proof.Machine
end

section
/-! The fault state and the checked errors as 60_exceptions.md gives them: in Faulted the engine has no step and every
host access but reset leaves the block as it is; a command that answers a next state ends idle and done. -/

namespace Sys2Proof.Machine

open Sys2Proof

section
variable {s t : State} {r : Fault}

/-! ### The engine in the fault state (R382) -/

theorem engineStep_of_faulted (hp : s.phase = .faulted r) : engineStep s = .fault r := by
  simp [engineStep, hp]

theorem EngineTurn.step_of_faulted {u : State} (hu : EngineTurn s u) (hp : s.phase = .faulted r) : step s = .fault r :=
  hu.step_eq.trans (engineStep_of_faulted (hu.phase_eq.trans hp))

/-! ### Host accesses in the fault state (R395) -/

theorem hostReadReg_faulted (hp : s.phase = .faulted r) (slot : Fin 64) : hostReadReg s slot = s.hostDraws := by
  simp [hostReadReg, hp]

theorem hostWriteReg_faulted (hp : s.phase = .faulted r) (slot : Fin 64) (v : Word) : hostWriteReg s slot v = s := by
  simp [hostWriteReg, hp]

theorem hostReadLm_faulted (hp : s.phase = .faulted r) (a : Nat) : hostReadLm s a = s.hostDraws := by
  simp [hostReadLm, hp]

theorem hostWriteLm_faulted (hp : s.phase = .faulted r) (a : Nat) (v : Word) : hostWriteLm s a v = s := by
  simp [hostWriteLm, hp]

theorem hostAccess_phase_of_faulted (hp : s.phase = .faulted r) {a : HostAccess} (ha : a ≠ .reset) :
    (hostAccess s a).phase = .faulted r := by
  cases a with
  | readReg slot => rw [hostAccess, hostReadReg_faulted hp, hostDraws_phase, hp]
  | writeReg slot v => rw [hostAccess, hostWriteReg_faulted hp, hp]
  | readLm a => rw [hostAccess, hostReadLm_faulted hp, hostDraws_phase, hp]
  | writeLm a v => rw [hostAccess, hostWriteLm_faulted hp, hp]
  | reset => exact absurd rfl ha

/-! ### The step in the fault state -/

theorem eq_hostAccess_of_step {a : HostAccess} {rest : List Event} (h : step s = .next t)
    (hs : s.schedule = .host a :: rest) : t = hostAccess { s with schedule := rest } a :=
  Host.Outcome.next.inj (h.symm.trans (step_host hs))

/-- A step that answers a next state in Faulted is a host access, as the engine has none there. -/
theorem host_of_step_of_faulted (hp : s.phase = .faulted r) (h : step s = .next t) :
    ∃ a rest, s.schedule = .host a :: rest := by
  have no_turn {u : State} (hu : EngineTurn s u) : False := by
    rw [hu.step_of_faulted hp] at h
    cases h
  match hs : s.schedule with
  | [] => exact (no_turn (.inl ⟨hs, rfl⟩)).elim
  | .engine :: rest => exact (no_turn (.inr ⟨rest, hs, rfl⟩)).elim
  | .host a :: rest => exact ⟨a, rest, rfl⟩

/-- The two ways a step from Faulted ends: the phase is kept, or a reset was applied. -/
theorem step_of_faulted_cases (hp : s.phase = .faulted r) (h : step s = .next t) :
    (t.phase = .faulted r ∧ ∀ rest, s.schedule ≠ .host .reset :: rest) ∨
      ∃ rest, s.schedule = .host .reset :: rest ∧ t = State.applyReset { s with schedule := rest } := by
  obtain ⟨a, rest, hs⟩ := host_of_step_of_faulted hp h
  obtain rfl := eq_hostAccess_of_step h hs
  by_cases ha : a = .reset
  · subst ha
    exact .inr ⟨rest, hs, rfl⟩
  · exact .inl ⟨hostAccess_phase_of_faulted (s := { s with schedule := rest }) hp ha, by simp [hs, ha]⟩

/-! ### Checked errors (R380, R381) -/

theorem wordOf_zero (c : Config) : wordOf c 0 = 0 := by simp [wordOf]

/-- The commands that end with an error store nothing. -/
theorem Completion.lm_eq_of_error {i : Instr} (h : Completion i s t) (he : t.status.err ≠ .none) :
    t.lm = s.lm ∧ (i = .bn2os ∨ ∃ c, i = .enginit c) := by
  cases h with
  | stores r0 r1 l hu => exact absurd rfl he
  | built c m l => exact absurd rfl he
  | failed c e l hi => exact ⟨setCtx_lm _ _ _, .inr ⟨c, hi⟩⟩
  | tooSmall l hi => exact ⟨rfl, .inl hi⟩

end

/-! ### The statements -/

/-- Settles O11: both forms of the engine's turn begin in phase Faulted. -/
theorem faultedEngineHasNoStep : Obligations.FaultedEngineHasNoStep := fun _ _ rest hp =>
  ⟨fun hs => EngineTurn.step_of_faulted (.inl ⟨hs, rfl⟩) hp,
    fun hs => EngineTurn.step_of_faulted (.inr ⟨rest, hs, rfl⟩) hp⟩

/-- Settles O12: the step is a host access, and each kind of access but reset is a draw or nothing there. -/
theorem onlyResetLeavesTheFaultState : Obligations.OnlyResetLeavesTheFaultState := by
  intro s t r hp h
  have hp' (rest : List Event) : State.phase { s with schedule := rest } = .faulted r := hp
  refine ⟨?_, fun slot v rest hs => ?_, fun a v rest hs => ?_, fun slot rest hs => ?_, fun a rest hs => ?_⟩
  · rcases step_of_faulted_cases hp h with hkept | ⟨rest, hs, rfl⟩
    · exact .inl hkept
    · exact .inr ⟨⟨rest, hs⟩, by rw [hs]; rfl⟩
  · exact (eq_hostAccess_of_step h hs).trans (hostWriteReg_faulted (hp' rest) slot v)
  · exact (eq_hostAccess_of_step h hs).trans (hostWriteLm_faulted (hp' rest) a v)
  · exact ⟨_, _, (eq_hostAccess_of_step h hs).trans (hostReadReg_faulted (hp' rest) slot)⟩
  · exact ⟨_, _, (eq_hostAccess_of_step h hs).trans (hostReadLm_faulted (hp' rest) a)⟩

/-- Settles O23: every completion is `State.finish`, which writes the results 0 with an error. -/
theorem commandsEndDone : Obligations.CommandsEndDone := by
  intro i s t h
  have hc : Completion i s t := (exec_completion i s).1 t h
  obtain ⟨u, e, r0, r1, l, rfl, -, hres⟩ := hc.finish_eq
  refine ⟨rfl, rfl, rfl, fun he => ?_⟩
  obtain ⟨rfl, rfl⟩ := hres he
  exact ⟨wordOf_zero _, wordOf_zero _, hc.lm_eq_of_error he⟩

end Sys2Proof.Machine
end

section
/-! Reset and the host's hazards as 70_reset_and_hazards.md gives them: reset in every phase, and what a host write does
while a command is pending. -/

namespace Sys2Proof.Machine

open Sys2Proof

/-! ### Host writes while BUSY = 1 (R411, 60_exceptions.md R395) -/

section
variable {s : State} {w : BitVec 32} {args : Args} {slot : Fin 64}

theorem hostWriteReg_pending_cmd (v : Word) (hp : s.phase = .pending w args) (hk : slotKind slot.val = .cmd) :
    hostWriteReg s slot v = s.enterFaulted .hostBusyWrite := by
  simp [hostWriteReg, hp, hk]

theorem hostWriteReg_pending_arg (v : Word) (hp : s.phase = .pending w args) {i : Fin 16}
    (hk : slotKind slot.val = .arg i) : hostWriteReg s slot v = s.enterFaulted .hostBusyWrite := by
  simp [hostWriteReg, hp, hk]

theorem hostWriteLm_pending (a : Nat) (v : Word) (hp : s.phase = .pending w args) :
    hostWriteLm s a v = s.enterFaulted .hostBusyWrite := by
  simp [hostWriteLm, hp]

/-- The slots a pending command guards by their numbers: CMD is slot 0, ARG0 to ARG15 are slots 0x10 to 0x1F. -/
theorem hostWriteReg_pending_guarded (v : Word) (hp : s.phase = .pending w args)
    (h : slot.val = 0 ∨ (0x10 ≤ slot.val ∧ slot.val ≤ 0x1F)) :
    hostWriteReg s slot v = s.enterFaulted .hostBusyWrite := by
  rcases h with h0 | ⟨hlo, hhi⟩
  · exact hostWriteReg_pending_cmd v hp (slotKind_eq_cmd_iff.mpr h0)
  · exact hostWriteReg_pending_arg v hp (i := ⟨slot.val - 0x10, by omega⟩)
      (slotKind_eq_arg_iff.mpr (Nat.add_sub_of_le hlo).symm)

end

/-- `hostWriteReg_ignored` by the slot's number. -/
theorem hostWriteReg_unguarded (s : State) {slot : Fin 64} (v : Word)
    (h : ¬ (slot.val = 0 ∨ (0x10 ≤ slot.val ∧ slot.val ≤ 0x1F))) : hostWriteReg s slot v = s := by
  refine hostWriteReg_ignored s v (fun hk => h (.inl (slotKind_eq_cmd_iff.mp hk))) fun i hk => h (.inr ?_)
  have := slotKind_eq_arg_iff.mp hk
  omega

/-! ### The statements -/

/-- Settles O14: CMD and the ARG registers are the guarded slots, every other slot ignores a write in every phase, and a
limb write in Pending is the fault whatever the limb. -/
theorem hostWritesWhileBusy : Obligations.HostWritesWhileBusy := by
  intro s w args rest hp
  have hp' : ({ s with schedule := rest } : State).phase = .pending w args := hp
  refine ⟨fun slot v hs => ⟨fun hguard => ⟨_, step_host hs, ?_⟩, fun hfree => ?_⟩, fun a v hs => ⟨_, step_host hs, ?_⟩⟩
  · rw [hostAccess, hostWriteReg_pending_guarded v hp' hguard, enterFaulted_phase]
  · rw [step_host hs, hostAccess, hostWriteReg_unguarded _ v hfree]
  · rw [hostAccess, hostWriteLm_pending a v hp', enterFaulted_phase]

/-- Settles O13: no case on the phase is needed, as the host access `reset` is `State.applyReset` in every phase. -/
theorem resetInEveryPhase : Obligations.ResetInEveryPhase := by
  intro s rest hs
  rw [step_host hs, hostAccess, State.applyReset]

end Sys2Proof.Machine
end
